-- ==== Sys2Proof/Word.lean ====
section
/-! DEFINITION. The widths of the machine's data: words, bytes and the numbers that name registers. -/

namespace Sys2Proof

/-- A 32-bit word: a general register, a virtual or physical address, an instruction (R2, XLEN and ILEN). -/
abbrev Word := BitVec 32

/-- An 8-bit byte, the smallest addressable unit (R30). -/
abbrev Byte := BitVec 8

/-- The 5-bit number of a general register, R0 to R31 (R10). -/
abbrev RegNum := BitVec 5

/-- The 2-bit number of a predicate register, P0 to P3 (R13, R14). -/
abbrev PredNum := BitVec 2

/-- The 5-bit number of a coprocessor register (R18). -/
abbrev CprNum := BitVec 5

end Sys2Proof
end

