-- ==== Sys2Proof/Config.lean ====
section
/-! DEFINITION. What one implementation fixes and the spec leaves open (R2, the OPEN parameters), and the free values. The
parameters of R2 with a default stand beside what they configure: `encMfhi`, `encMthi`, `ShiftKind.ofBits`,
`branchPcrelOffsetBits` and `storeMMustBeZero` in Decode.lean, and `dataEndian`, `shortImm`, `divSigned` and
`State.epcValue` under Machine.
An opaque constant has no body: no proof can see what it is. -/

namespace Sys2Proof.Config

/-- EXC_HANDLER_ADDR divided by 16: where every trap goes (R2, R227). The address is a multiple of 16, so its low four
bits are not stored. OPEN in the spec (log 4). -/
opaque excHandler : BitVec 28

/-- CPR_EPC, the coprocessor register number of Error PC (R2, R19). OPEN in the spec (log 5). -/
opaque cprEpc : CprNum

/-- CPR_MAP: bit n is 1 when coprocessor register n exists (R2, R18). OPEN in the spec (log 5). -/
opaque cprMap : BitVec 32

/-- REG_SHIFT_WIDE: the result of a register-specified shift by 32 or more, any value (R80, D8). Its arguments are
the step, the destination register, the SHF code, the value and the amount (log 12). -/
opaque regShiftWide : Nat → RegNum → BitVec 2 → Word → Word → Word

/-- DIV_BY_ZERO, the quotient: any value (R192, D13). Its arguments are the step and the dividend (log 17). -/
opaque divByZeroQuotient : Nat → Word → Word

/-- DIV_BY_ZERO, the remainder: any value (R192, D13). Its arguments are the step and the dividend (log 17). -/
opaque divByZeroRemainder : Nat → Word → Word

/-- RESET_PC, a multiple of 16 (R261). OPEN in the spec: DESIGN CHOICE 0 (log 2). -/
def resetPc : Word := 0

end Sys2Proof.Config
end

