-- ==== Sys2Proof/Syntax.lean ====
section
/-! DEFINITION. The instructions as terms: one constructor for each row of spec/opcode_table.json. An operand has exactly
the width of its field, so every term is an instruction; bits the spec ignores (R69, R77, R84) are not part of a term. -/

namespace Sys2Proof

/-- The shift kinds of the SHF field (R79, R80). -/
inductive ShiftKind where
  | lsl | lsr | asr | ror
  deriving DecidableEq, Repr

/-- What FLUSH acts on: its TYPE field (R204). -/
inductive FlushTarget where
  | data | inst | dtlb | itlb
  deriving DecidableEq, Repr

/-- The PRED field (R61): the predicate register it selects, and whether it is inverted. -/
structure Pred where
  sel : PredNum
  inv : Bool
  deriving DecidableEq, Repr

/-- One instruction. A suffix names the format: I short immediate (R63, R66), S shifted register (R64, R67),
R register-specified shift (R68), L long immediate with its LIM (R65, R69); of a branch, P pc-relative (R73) and
R register (R74). Every constructor's first operand is its PRED field (R61). -/
inductive Instr where
  /-- ADD, R101. Format A-I: CONSTANT, ROTATE, RD, RS. -/
  | addI (p : Pred) (c : BitVec 10) (rot : BitVec 4) (rd rs : RegNum)
  /-- ADD, R101. Format A-S: SHIFTAMT, SHF, RT, RD, RS. -/
  | addS (p : Pred) (amt : BitVec 5) (shf : ShiftKind) (rt rd rs : RegNum)
  /-- ADD, R101. Format A-L: RD, RS, LIM. -/
  | addL (p : Pred) (rd rs : RegNum) (lim : Word)
  /-- AND, R102. Format A-I: CONSTANT, ROTATE, RD, RS. -/
  | andI (p : Pred) (c : BitVec 10) (rot : BitVec 4) (rd rs : RegNum)
  /-- AND, R102. Format A-S: SHIFTAMT, SHF, RT, RD, RS. -/
  | andS (p : Pred) (amt : BitVec 5) (shf : ShiftKind) (rt rd rs : RegNum)
  /-- AND, R102. Format A-L: RD, RS, LIM. -/
  | andL (p : Pred) (rd rs : RegNum) (lim : Word)
  /-- NOR, R103. Format A-I: CONSTANT, ROTATE, RD, RS. -/
  | norI (p : Pred) (c : BitVec 10) (rot : BitVec 4) (rd rs : RegNum)
  /-- NOR, R103. Format A-S: SHIFTAMT, SHF, RT, RD, RS. -/
  | norS (p : Pred) (amt : BitVec 5) (shf : ShiftKind) (rt rd rs : RegNum)
  /-- NOR, R103. Format A-L: RD, RS, LIM. -/
  | norL (p : Pred) (rd rs : RegNum) (lim : Word)
  /-- OR, R104. Format A-I: CONSTANT, ROTATE, RD, RS. -/
  | orI (p : Pred) (c : BitVec 10) (rot : BitVec 4) (rd rs : RegNum)
  /-- OR, R104. Format A-S: SHIFTAMT, SHF, RT, RD, RS. -/
  | orS (p : Pred) (amt : BitVec 5) (shf : ShiftKind) (rt rd rs : RegNum)
  /-- OR, R104. Format A-L: RD, RS, LIM. -/
  | orL (p : Pred) (rd rs : RegNum) (lim : Word)
  /-- SUB, R105. Format A-I: CONSTANT, ROTATE, RD, RS. -/
  | subI (p : Pred) (c : BitVec 10) (rot : BitVec 4) (rd rs : RegNum)
  /-- SUB, R105. Format A-S: SHIFTAMT, SHF, RT, RD, RS. -/
  | subS (p : Pred) (amt : BitVec 5) (shf : ShiftKind) (rt rd rs : RegNum)
  /-- SUB, R105. Format A-L: RD, RS, LIM. -/
  | subL (p : Pred) (rd rs : RegNum) (lim : Word)
  /-- RSB, R106. Format A-I: CONSTANT, ROTATE, RD, RS. -/
  | rsbI (p : Pred) (c : BitVec 10) (rot : BitVec 4) (rd rs : RegNum)
  /-- RSB, R106. Format A-S: SHIFTAMT, SHF, RT, RD, RS. -/
  | rsbS (p : Pred) (amt : BitVec 5) (shf : ShiftKind) (rt rd rs : RegNum)
  /-- RSB, R106. Format A-L: RD, RS, LIM. -/
  | rsbL (p : Pred) (rd rs : RegNum) (lim : Word)
  /-- XOR, R107. Format A-I: CONSTANT, ROTATE, RD, RS. -/
  | xorI (p : Pred) (c : BitVec 10) (rot : BitVec 4) (rd rs : RegNum)
  /-- XOR, R107. Format A-S: SHIFTAMT, SHF, RT, RD, RS. -/
  | xorS (p : Pred) (amt : BitVec 5) (shf : ShiftKind) (rt rd rs : RegNum)
  /-- XOR, R107. Format A-L: RD, RS, LIM. -/
  | xorL (p : Pred) (rd rs : RegNum) (lim : Word)
  /-- CMPLTU, R121. Format A-I with PD for RD (R70). -/
  | cmpltuI (p : Pred) (c : BitVec 10) (rot : BitVec 4) (pd : PredNum) (rs : RegNum)
  /-- CMPLTU, R121. Format A-S with PD for RD (R70). -/
  | cmpltuS (p : Pred) (amt : BitVec 5) (shf : ShiftKind) (rt : RegNum) (pd : PredNum) (rs : RegNum)
  /-- CMPLTU, R121. Format A-L with PD for RD (R70). -/
  | cmpltuL (p : Pred) (pd : PredNum) (rs : RegNum) (lim : Word)
  /-- CMPLEU, R122. Format A-I with PD for RD (R70). -/
  | cmpleuI (p : Pred) (c : BitVec 10) (rot : BitVec 4) (pd : PredNum) (rs : RegNum)
  /-- CMPLEU, R122. Format A-S with PD for RD (R70). -/
  | cmpleuS (p : Pred) (amt : BitVec 5) (shf : ShiftKind) (rt : RegNum) (pd : PredNum) (rs : RegNum)
  /-- CMPLEU, R122. Format A-L with PD for RD (R70). -/
  | cmpleuL (p : Pred) (pd : PredNum) (rs : RegNum) (lim : Word)
  /-- CMPEQ, R123. Format A-I with PD for RD (R70). -/
  | cmpeqI (p : Pred) (c : BitVec 10) (rot : BitVec 4) (pd : PredNum) (rs : RegNum)
  /-- CMPEQ, R123. Format A-S with PD for RD (R70). -/
  | cmpeqS (p : Pred) (amt : BitVec 5) (shf : ShiftKind) (rt : RegNum) (pd : PredNum) (rs : RegNum)
  /-- CMPEQ, R123. Format A-L with PD for RD (R70). -/
  | cmpeqL (p : Pred) (pd : PredNum) (rs : RegNum) (lim : Word)
  /-- CMPLTS, R124. Format A-I with PD for RD (R70). -/
  | cmpltsI (p : Pred) (c : BitVec 10) (rot : BitVec 4) (pd : PredNum) (rs : RegNum)
  /-- CMPLTS, R124. Format A-S with PD for RD (R70). -/
  | cmpltsS (p : Pred) (amt : BitVec 5) (shf : ShiftKind) (rt : RegNum) (pd : PredNum) (rs : RegNum)
  /-- CMPLTS, R124. Format A-L with PD for RD (R70). -/
  | cmpltsL (p : Pred) (pd : PredNum) (rs : RegNum) (lim : Word)
  /-- CMPLES, R125. Format A-I with PD for RD (R70). -/
  | cmplesI (p : Pred) (c : BitVec 10) (rot : BitVec 4) (pd : PredNum) (rs : RegNum)
  /-- CMPLES, R125. Format A-S with PD for RD (R70). -/
  | cmplesS (p : Pred) (amt : BitVec 5) (shf : ShiftKind) (rt : RegNum) (pd : PredNum) (rs : RegNum)
  /-- CMPLES, R125. Format A-L with PD for RD (R70). -/
  | cmplesL (p : Pred) (pd : PredNum) (rs : RegNum) (lim : Word)
  /-- CMPBS, R126. Format A-I with PD for RD (R70). -/
  | cmpbsI (p : Pred) (c : BitVec 10) (rot : BitVec 4) (pd : PredNum) (rs : RegNum)
  /-- CMPBS, R126. Format A-S with PD for RD (R70). -/
  | cmpbsS (p : Pred) (amt : BitVec 5) (shf : ShiftKind) (rt : RegNum) (pd : PredNum) (rs : RegNum)
  /-- CMPBS, R126. Format A-L with PD for RD (R70). -/
  | cmpbsL (p : Pred) (pd : PredNum) (rs : RegNum) (lim : Word)
  /-- CMPBC, R127. Format A-I with PD for RD (R70). -/
  | cmpbcI (p : Pred) (c : BitVec 10) (rot : BitVec 4) (pd : PredNum) (rs : RegNum)
  /-- CMPBC, R127. Format A-S with PD for RD (R70). -/
  | cmpbcS (p : Pred) (amt : BitVec 5) (shf : ShiftKind) (rt : RegNum) (pd : PredNum) (rs : RegNum)
  /-- CMPBC, R127. Format A-L with PD for RD (R70). -/
  | cmpbcL (p : Pred) (pd : PredNum) (rs : RegNum) (lim : Word)
  /-- MOV, R141. Format M-I: CONSTHI:CONSTLOW, ROTATE, RD. -/
  | movI (p : Pred) (c : BitVec 15) (rot : BitVec 4) (rd : RegNum)
  /-- MOV, R141. Format M-S: SHIFTAMT, SHF, RD, RS. -/
  | movS (p : Pred) (amt : BitVec 5) (shf : ShiftKind) (rd rs : RegNum)
  /-- MOV, R141. Format M-R: SHF, RT, RD, RS. -/
  | movR (p : Pred) (shf : ShiftKind) (rt rd rs : RegNum)
  /-- MOV, R141. Format M-L: RD, LIM. -/
  | movL (p : Pred) (rd : RegNum) (lim : Word)
  /-- MVN, R142. Format M-I: CONSTHI:CONSTLOW, ROTATE, RD. -/
  | mvnI (p : Pred) (c : BitVec 15) (rot : BitVec 4) (rd : RegNum)
  /-- MVN, R142. Format M-S: SHIFTAMT, SHF, RD, RS. -/
  | mvnS (p : Pred) (amt : BitVec 5) (shf : ShiftKind) (rd rs : RegNum)
  /-- MVN, R142. Format M-R: SHF, RT, RD, RS. -/
  | mvnR (p : Pred) (shf : ShiftKind) (rt rd rs : RegNum)
  /-- MVN, R142. Format M-L: RD, LIM. -/
  | mvnL (p : Pred) (rd : RegNum) (lim : Word)
  /-- SXB, R143. Format M-I: CONSTHI:CONSTLOW, ROTATE, RD. -/
  | sxbI (p : Pred) (c : BitVec 15) (rot : BitVec 4) (rd : RegNum)
  /-- SXB, R143. Format M-S: SHIFTAMT, SHF, RD, RS. -/
  | sxbS (p : Pred) (amt : BitVec 5) (shf : ShiftKind) (rd rs : RegNum)
  /-- SXB, R143. Format M-R: SHF, RT, RD, RS. -/
  | sxbR (p : Pred) (shf : ShiftKind) (rt rd rs : RegNum)
  /-- SXB, R143. Format M-L: RD, LIM. -/
  | sxbL (p : Pred) (rd : RegNum) (lim : Word)
  /-- SXH, R144. Format M-I: CONSTHI:CONSTLOW, ROTATE, RD. -/
  | sxhI (p : Pred) (c : BitVec 15) (rot : BitVec 4) (rd : RegNum)
  /-- SXH, R144. Format M-S: SHIFTAMT, SHF, RD, RS. -/
  | sxhS (p : Pred) (amt : BitVec 5) (shf : ShiftKind) (rd rs : RegNum)
  /-- SXH, R144. Format M-R: SHF, RT, RD, RS. -/
  | sxhR (p : Pred) (shf : ShiftKind) (rt rd rs : RegNum)
  /-- SXH, R144. Format M-L: RD, LIM. -/
  | sxhL (p : Pred) (rd : RegNum) (lim : Word)
  /-- B, R161. Format B-P: OFFSET. -/
  | bP (p : Pred) (off : BitVec 25)
  /-- B, R161. Format B-R: OFFSET, RS. -/
  | bR (p : Pred) (off : BitVec 20) (rs : RegNum)
  /-- BL, R162. Format B-P: OFFSET. -/
  | blP (p : Pred) (off : BitVec 25)
  /-- BL, R162. Format B-R: OFFSET, RS. -/
  | blR (p : Pred) (off : BitVec 20) (rs : RegNum)
  /-- LB, R171. Format LD (R75): OFFSET, RD, RS. -/
  | lb (p : Pred) (off : BitVec 12) (rd rs : RegNum)
  /-- LH, R172. Format LD (R75): OFFSET, RD, RS. -/
  | lh (p : Pred) (off : BitVec 12) (rd rs : RegNum)
  /-- LW, R173. Format LD (R75): OFFSET, RD, RS. -/
  | lw (p : Pred) (off : BitVec 12) (rd rs : RegNum)
  /-- LL, R174. Format LD (R75): OFFSET, RD, RS. -/
  | ll (p : Pred) (off : BitVec 12) (rd rs : RegNum)
  /-- SB, R175. Format ST (R76): OFFSETHIGH:OFFSETLOW, RT, RS. -/
  | sb (p : Pred) (off : BitVec 11) (rt rs : RegNum)
  /-- SH, R176. Format ST (R76): OFFSETHIGH:OFFSETLOW, RT, RS. -/
  | sh (p : Pred) (off : BitVec 11) (rt rs : RegNum)
  /-- SW, R177. Format ST (R76): OFFSETHIGH:OFFSETLOW, RT, RS. -/
  | sw (p : Pred) (off : BitVec 11) (rt rs : RegNum)
  /-- SC, R178. Format ST (R76): OFFSETHIGH:OFFSETLOW, RT, RS. -/
  | sc (p : Pred) (off : BitVec 11) (rt rs : RegNum)
  /-- BREAK, R200. Format O (R77). -/
  | brk (p : Pred)
  /-- SYSCALL, R201. Format O (R77). -/
  | syscall (p : Pred)
  /-- FENCE, R202. Format O (R77). -/
  | fence (p : Pred)
  /-- ERET, R203. Format O (R77). -/
  | eret (p : Pred)
  /-- FLUSH, R204. Format O (R77). -/
  | flush (p : Pred) (target : FlushTarget) (rs : RegNum)
  /-- MFC, R205. Format O (R77). -/
  | mfc (p : Pred) (rd : RegNum) (cprs : CprNum)
  /-- MTC, R206. Format O (R77). -/
  | mtc (p : Pred) (cprd : CprNum) (rs : RegNum)
  /-- MULT, R190. Format O (R77). -/
  | mult (p : Pred) (rt rd rs : RegNum)
  /-- MULTS, R191. Format O (R77). -/
  | mults (p : Pred) (rt rd rs : RegNum)
  /-- DIV, R192. Format O (R77). -/
  | div (p : Pred) (rt rd rs : RegNum)
  /-- MFHI, R193. Format O (R77). -/
  | mfhi (p : Pred) (rd : RegNum)
  /-- MTHI, R194. Format O (R77). -/
  | mthi (p : Pred) (rs : RegNum)
  deriving DecidableEq, Repr

/-- The PRED field of an instruction (R61). -/
def Instr.pred : Instr → Pred
  | .addI p _ _ _ _ => p
  | .addS p _ _ _ _ _ => p
  | .addL p _ _ _ => p
  | .andI p _ _ _ _ => p
  | .andS p _ _ _ _ _ => p
  | .andL p _ _ _ => p
  | .norI p _ _ _ _ => p
  | .norS p _ _ _ _ _ => p
  | .norL p _ _ _ => p
  | .orI p _ _ _ _ => p
  | .orS p _ _ _ _ _ => p
  | .orL p _ _ _ => p
  | .subI p _ _ _ _ => p
  | .subS p _ _ _ _ _ => p
  | .subL p _ _ _ => p
  | .rsbI p _ _ _ _ => p
  | .rsbS p _ _ _ _ _ => p
  | .rsbL p _ _ _ => p
  | .xorI p _ _ _ _ => p
  | .xorS p _ _ _ _ _ => p
  | .xorL p _ _ _ => p
  | .cmpltuI p _ _ _ _ => p
  | .cmpltuS p _ _ _ _ _ => p
  | .cmpltuL p _ _ _ => p
  | .cmpleuI p _ _ _ _ => p
  | .cmpleuS p _ _ _ _ _ => p
  | .cmpleuL p _ _ _ => p
  | .cmpeqI p _ _ _ _ => p
  | .cmpeqS p _ _ _ _ _ => p
  | .cmpeqL p _ _ _ => p
  | .cmpltsI p _ _ _ _ => p
  | .cmpltsS p _ _ _ _ _ => p
  | .cmpltsL p _ _ _ => p
  | .cmplesI p _ _ _ _ => p
  | .cmplesS p _ _ _ _ _ => p
  | .cmplesL p _ _ _ => p
  | .cmpbsI p _ _ _ _ => p
  | .cmpbsS p _ _ _ _ _ => p
  | .cmpbsL p _ _ _ => p
  | .cmpbcI p _ _ _ _ => p
  | .cmpbcS p _ _ _ _ _ => p
  | .cmpbcL p _ _ _ => p
  | .movI p _ _ _ => p
  | .movS p _ _ _ _ => p
  | .movR p _ _ _ _ => p
  | .movL p _ _ => p
  | .mvnI p _ _ _ => p
  | .mvnS p _ _ _ _ => p
  | .mvnR p _ _ _ _ => p
  | .mvnL p _ _ => p
  | .sxbI p _ _ _ => p
  | .sxbS p _ _ _ _ => p
  | .sxbR p _ _ _ _ => p
  | .sxbL p _ _ => p
  | .sxhI p _ _ _ => p
  | .sxhS p _ _ _ _ => p
  | .sxhR p _ _ _ _ => p
  | .sxhL p _ _ => p
  | .bP p _ => p
  | .bR p _ _ => p
  | .blP p _ => p
  | .blR p _ _ => p
  | .lb p _ _ _ => p
  | .lh p _ _ _ => p
  | .lw p _ _ _ => p
  | .ll p _ _ _ => p
  | .sb p _ _ _ => p
  | .sh p _ _ _ => p
  | .sw p _ _ _ => p
  | .sc p _ _ _ => p
  | .brk p => p
  | .syscall p => p
  | .fence p => p
  | .eret p => p
  | .flush p _ _ => p
  | .mfc p _ _ => p
  | .mtc p _ _ => p
  | .mult p _ _ _ => p
  | .mults p _ _ _ => p
  | .div p _ _ _ => p
  | .mfhi p _ => p
  | .mthi p _ => p

end Sys2Proof
end

