-- ==== Sys2Proof/WellFormed.lean ====
section
/-! DEFINITION. What a well-formed packet is (R81, R82): which slots an instruction may stand in and how many it takes.
Every term of Instr by itself is well formed, since each operand has exactly the width of its field. -/

namespace Sys2Proof

/-- The three types of instructions (R82). -/
inductive SlotClass where
  | control | memory | alu
  deriving DecidableEq, Repr

/-- The slots an instruction of a class may occupy (R82). -/
def SlotClass.allows : SlotClass → Nat → Bool
  | .control, slot => slot == 0
  | .memory, slot => slot < 2
  | .alu, slot => slot < 4

/-- The class of each instruction (R82, the class column of the opcode table). -/
def Instr.slotClass : Instr → SlotClass
  | .addI _ _ _ _ _ => .alu
  | .addS _ _ _ _ _ _ => .alu
  | .addL _ _ _ _ => .alu
  | .andI _ _ _ _ _ => .alu
  | .andS _ _ _ _ _ _ => .alu
  | .andL _ _ _ _ => .alu
  | .norI _ _ _ _ _ => .alu
  | .norS _ _ _ _ _ _ => .alu
  | .norL _ _ _ _ => .alu
  | .orI _ _ _ _ _ => .alu
  | .orS _ _ _ _ _ _ => .alu
  | .orL _ _ _ _ => .alu
  | .subI _ _ _ _ _ => .alu
  | .subS _ _ _ _ _ _ => .alu
  | .subL _ _ _ _ => .alu
  | .rsbI _ _ _ _ _ => .alu
  | .rsbS _ _ _ _ _ _ => .alu
  | .rsbL _ _ _ _ => .alu
  | .xorI _ _ _ _ _ => .alu
  | .xorS _ _ _ _ _ _ => .alu
  | .xorL _ _ _ _ => .alu
  | .cmpltuI _ _ _ _ _ => .alu
  | .cmpltuS _ _ _ _ _ _ => .alu
  | .cmpltuL _ _ _ _ => .alu
  | .cmpleuI _ _ _ _ _ => .alu
  | .cmpleuS _ _ _ _ _ _ => .alu
  | .cmpleuL _ _ _ _ => .alu
  | .cmpeqI _ _ _ _ _ => .alu
  | .cmpeqS _ _ _ _ _ _ => .alu
  | .cmpeqL _ _ _ _ => .alu
  | .cmpltsI _ _ _ _ _ => .alu
  | .cmpltsS _ _ _ _ _ _ => .alu
  | .cmpltsL _ _ _ _ => .alu
  | .cmplesI _ _ _ _ _ => .alu
  | .cmplesS _ _ _ _ _ _ => .alu
  | .cmplesL _ _ _ _ => .alu
  | .cmpbsI _ _ _ _ _ => .alu
  | .cmpbsS _ _ _ _ _ _ => .alu
  | .cmpbsL _ _ _ _ => .alu
  | .cmpbcI _ _ _ _ _ => .alu
  | .cmpbcS _ _ _ _ _ _ => .alu
  | .cmpbcL _ _ _ _ => .alu
  | .movI _ _ _ _ => .alu
  | .movS _ _ _ _ _ => .alu
  | .movR _ _ _ _ _ => .alu
  | .movL _ _ _ => .alu
  | .mvnI _ _ _ _ => .alu
  | .mvnS _ _ _ _ _ => .alu
  | .mvnR _ _ _ _ _ => .alu
  | .mvnL _ _ _ => .alu
  | .sxbI _ _ _ _ => .alu
  | .sxbS _ _ _ _ _ => .alu
  | .sxbR _ _ _ _ _ => .alu
  | .sxbL _ _ _ => .alu
  | .sxhI _ _ _ _ => .alu
  | .sxhS _ _ _ _ _ => .alu
  | .sxhR _ _ _ _ _ => .alu
  | .sxhL _ _ _ => .alu
  | .bP _ _ => .control
  | .bR _ _ _ => .control
  | .blP _ _ => .control
  | .blR _ _ _ => .control
  | .lb _ _ _ _ => .memory
  | .lh _ _ _ _ => .memory
  | .lw _ _ _ _ => .memory
  | .ll _ _ _ _ => .memory
  | .sb _ _ _ _ => .memory
  | .sh _ _ _ _ => .memory
  | .sw _ _ _ _ => .memory
  | .sc _ _ _ _ => .memory
  | .brk _ => .control
  | .syscall _ => .control
  | .fence _ => .control
  | .eret _ => .control
  | .flush _ _ _ => .control
  | .mfc _ _ _ => .control
  | .mtc _ _ _ => .control
  | .mult _ _ _ _ => .control
  | .mults _ _ _ _ => .control
  | .div _ _ _ _ => .control
  | .mfhi _ _ => .control
  | .mthi _ _ => .control

/-- The number of slots an instruction takes: two with a long immediate, else one (R60, R81). -/
def Instr.slots : Instr → Nat
  | .addI _ _ _ _ _ => 1
  | .addS _ _ _ _ _ _ => 1
  | .addL _ _ _ _ => 2
  | .andI _ _ _ _ _ => 1
  | .andS _ _ _ _ _ _ => 1
  | .andL _ _ _ _ => 2
  | .norI _ _ _ _ _ => 1
  | .norS _ _ _ _ _ _ => 1
  | .norL _ _ _ _ => 2
  | .orI _ _ _ _ _ => 1
  | .orS _ _ _ _ _ _ => 1
  | .orL _ _ _ _ => 2
  | .subI _ _ _ _ _ => 1
  | .subS _ _ _ _ _ _ => 1
  | .subL _ _ _ _ => 2
  | .rsbI _ _ _ _ _ => 1
  | .rsbS _ _ _ _ _ _ => 1
  | .rsbL _ _ _ _ => 2
  | .xorI _ _ _ _ _ => 1
  | .xorS _ _ _ _ _ _ => 1
  | .xorL _ _ _ _ => 2
  | .cmpltuI _ _ _ _ _ => 1
  | .cmpltuS _ _ _ _ _ _ => 1
  | .cmpltuL _ _ _ _ => 2
  | .cmpleuI _ _ _ _ _ => 1
  | .cmpleuS _ _ _ _ _ _ => 1
  | .cmpleuL _ _ _ _ => 2
  | .cmpeqI _ _ _ _ _ => 1
  | .cmpeqS _ _ _ _ _ _ => 1
  | .cmpeqL _ _ _ _ => 2
  | .cmpltsI _ _ _ _ _ => 1
  | .cmpltsS _ _ _ _ _ _ => 1
  | .cmpltsL _ _ _ _ => 2
  | .cmplesI _ _ _ _ _ => 1
  | .cmplesS _ _ _ _ _ _ => 1
  | .cmplesL _ _ _ _ => 2
  | .cmpbsI _ _ _ _ _ => 1
  | .cmpbsS _ _ _ _ _ _ => 1
  | .cmpbsL _ _ _ _ => 2
  | .cmpbcI _ _ _ _ _ => 1
  | .cmpbcS _ _ _ _ _ _ => 1
  | .cmpbcL _ _ _ _ => 2
  | .movI _ _ _ _ => 1
  | .movS _ _ _ _ _ => 1
  | .movR _ _ _ _ _ => 1
  | .movL _ _ _ => 2
  | .mvnI _ _ _ _ => 1
  | .mvnS _ _ _ _ _ => 1
  | .mvnR _ _ _ _ _ => 1
  | .mvnL _ _ _ => 2
  | .sxbI _ _ _ _ => 1
  | .sxbS _ _ _ _ _ => 1
  | .sxbR _ _ _ _ _ => 1
  | .sxbL _ _ _ => 2
  | .sxhI _ _ _ _ => 1
  | .sxhS _ _ _ _ _ => 1
  | .sxhR _ _ _ _ _ => 1
  | .sxhL _ _ _ => 2
  | .bP _ _ => 1
  | .bR _ _ _ => 1
  | .blP _ _ => 1
  | .blR _ _ _ => 1
  | .lb _ _ _ _ => 1
  | .lh _ _ _ _ => 1
  | .lw _ _ _ _ => 1
  | .ll _ _ _ _ => 1
  | .sb _ _ _ _ => 1
  | .sh _ _ _ _ => 1
  | .sw _ _ _ _ => 1
  | .sc _ _ _ _ => 1
  | .brk _ => 1
  | .syscall _ => 1
  | .fence _ => 1
  | .eret _ => 1
  | .flush _ _ _ => 1
  | .mfc _ _ _ => 1
  | .mtc _ _ _ => 1
  | .mult _ _ _ _ => 1
  | .mults _ _ _ _ => 1
  | .div _ _ _ _ => 1
  | .mfhi _ _ => 1
  | .mthi _ _ => 1

/-- The instructions `is`, placed one after the other from slot `slot` on, fill the packet up to slot 3 and each stands
where its class allows (R81, R82). -/
def wellPlacedFrom : Nat → List Instr → Bool
  | slot, [] => slot == 4
  | slot, i :: is => i.slotClass.allows slot && (slot + i.slots ≤ 4) && wellPlacedFrom (slot + i.slots) is

/-- A well-formed packet: four slots, each instruction in a slot its class allows, no long immediate in slot 3. -/
def wellFormedPacket (is : List Instr) : Bool := wellPlacedFrom 0 is

end Sys2Proof
end

