-- ==== Sys2Proof/Decode.lean ====
section
/-! DEFINITION. The decoder and the encoder: words to instructions (R61 to R77), packets to instructions (R81 to R86), and
back. The decoder is total; what it rejects it rejects by name. -/

namespace Sys2Proof

/-! ## Parameters of the encoding (R2) -/

/-- ENC_MFHI: the sub-opcode of MFHI (R77, D10; log 14). -/
def encMfhi : BitVec 4 := 0b1010

/-- ENC_MTHI: the sub-opcode of MTHI (R77, D10; log 14). -/
def encMthi : BitVec 4 := 0b1011

/-- SHF_MAP: the shift kind of each SHF code (R79, D7; log 11). -/
def ShiftKind.ofBits (b : BitVec 2) : ShiftKind :=
  match b.toNat with
  | 0 => .lsl
  | 1 => .lsr
  | 2 => .asr
  | _ => .ror

/-- The SHF code of each shift kind (R79, D7; log 11). -/
def ShiftKind.bits : ShiftKind → BitVec 2
  | .lsl => 0b00
  | .lsr => 0b01
  | .asr => 0b10
  | .ror => 0b11

/-- BRANCH_PCREL_OFFSET_BITS: the width of OFFSET in the pc-relative B and BL, at most 25; OFFSET is the top bits of the
cell 24:0 (R73, D9, U20; log 13). 25 is the spec's default; 20 would be the reading with OFFSET in bits 24:5. -/
def branchPcrelOffsetBits : Nat := 25

/-- STORE_M: bit 13 of a store must be 0, and 1 is refused (R76, D11, U7; log 15). With `false` the bit would be ignored. -/
def storeMMustBeZero : Bool := true

/-- The target each TYPE code of FLUSH names (R204). -/
def FlushTarget.ofBits (b : BitVec 2) : FlushTarget :=
  match b.toNat with
  | 0 => .data
  | 1 => .inst
  | 2 => .dtlb
  | _ => .itlb

/-- The TYPE code of each FLUSH target (R204). -/
def FlushTarget.bits : FlushTarget → BitVec 2
  | .data => 0b00
  | .inst => 0b01
  | .dtlb => 0b10
  | .itlb => 0b11

/-- The PRED field from bits 31:29: the top two select the register, the third inverts (R61). -/
def Pred.ofBits (b : BitVec 3) : Pred := ⟨b.extractLsb' 1 2, b.extractLsb' 0 1 == 1⟩

/-- The three bits of a PRED field (R61). -/
def Pred.bits (p : Pred) : BitVec 3 := p.sel ++ BitVec.ofBool p.inv

/-! ## Decoding a word -/

/-- Why a word or a packet does not decode. All but `storeM` raise IllegalInstruction (R82, R83); `storeM` is refused by the
model (R76, D11). -/
inductive DecodeStop where
  /-- ALU OPCODE 1100 to 1111 (R83 a). -/
  | aluOpcode
  /-- OPCODE 0111 with CMP = 011 (R83 b). -/
  | compareKind
  /-- Bits 28:24 = 10000 with bits 23:14 neither the long-immediate nor the register-shift pattern (R83 c). -/
  | longPattern
  /-- Format O with SUBOP 0000 or 1100 to 1111 (R83 d). -/
  | subop
  /-- A store with bit 13, M, set (R76, R83 e). -/
  | storeM
  /-- An instruction in a slot its class does not allow (R82). -/
  | slotClass
  /-- A long immediate in slot 3 (R81). -/
  | longInLastSlot
  deriving DecidableEq, Repr

/-- The `n` bits of `w` from bit `lo` up: `w[lo+n-1:lo]` (R3). -/
def field (w : Word) (lo n : Nat) : BitVec n := w.extractLsb' lo n

/-- The PRED field of a word (R61). -/
def predOf (w : Word) : Pred := .ofBits (field w 29 3)

/-- Formats A-I and M-I, bit 28 = 0 (R63, R66, R70, R71, R72). -/
def decodeShort (w : Word) : Except DecodeStop Instr :=
  match (field w 10 4).toNat with
  | 0 => .ok (.addI (predOf w) (field w 18 10) (field w 14 4) (field w 5 5) (field w 0 5))
  | 1 => .ok (.andI (predOf w) (field w 18 10) (field w 14 4) (field w 5 5) (field w 0 5))
  | 2 => .ok (.norI (predOf w) (field w 18 10) (field w 14 4) (field w 5 5) (field w 0 5))
  | 3 => .ok (.orI (predOf w) (field w 18 10) (field w 14 4) (field w 5 5) (field w 0 5))
  | 4 => .ok (.subI (predOf w) (field w 18 10) (field w 14 4) (field w 5 5) (field w 0 5))
  | 5 => .ok (.rsbI (predOf w) (field w 18 10) (field w 14 4) (field w 5 5) (field w 0 5))
  | 6 => .ok (.xorI (predOf w) (field w 18 10) (field w 14 4) (field w 5 5) (field w 0 5))
  | 7 =>
    match (field w 7 3).toNat with
    | 0 => .ok (.cmpltuI (predOf w) (field w 18 10) (field w 14 4) (field w 5 2) (field w 0 5))
    | 1 => .ok (.cmpleuI (predOf w) (field w 18 10) (field w 14 4) (field w 5 2) (field w 0 5))
    | 2 => .ok (.cmpeqI (predOf w) (field w 18 10) (field w 14 4) (field w 5 2) (field w 0 5))
    | 4 => .ok (.cmpltsI (predOf w) (field w 18 10) (field w 14 4) (field w 5 2) (field w 0 5))
    | 5 => .ok (.cmplesI (predOf w) (field w 18 10) (field w 14 4) (field w 5 2) (field w 0 5))
    | 6 => .ok (.cmpbsI (predOf w) (field w 18 10) (field w 14 4) (field w 5 2) (field w 0 5))
    | 7 => .ok (.cmpbcI (predOf w) (field w 18 10) (field w 14 4) (field w 5 2) (field w 0 5))
    | _ => .error .compareKind
  | 8 => .ok (.movI (predOf w) (field w 0 5 ++ field w 18 10) (field w 14 4) (field w 5 5))
  | 9 => .ok (.mvnI (predOf w) (field w 0 5 ++ field w 18 10) (field w 14 4) (field w 5 5))
  | 10 => .ok (.sxbI (predOf w) (field w 0 5 ++ field w 18 10) (field w 14 4) (field w 5 5))
  | 11 => .ok (.sxhI (predOf w) (field w 0 5 ++ field w 18 10) (field w 14 4) (field w 5 5))
  | _ => .error .aluOpcode

/-- Formats A-S and M-S, bits 28:26 = 101 (R64, R67, R70, R71, R72). -/
def decodeShifted (w : Word) : Except DecodeStop Instr :=
  match (field w 10 4).toNat with
  | 0 => .ok (.addS (predOf w) (field w 21 5) (.ofBits (field w 19 2)) (field w 14 5) (field w 5 5) (field w 0 5))
  | 1 => .ok (.andS (predOf w) (field w 21 5) (.ofBits (field w 19 2)) (field w 14 5) (field w 5 5) (field w 0 5))
  | 2 => .ok (.norS (predOf w) (field w 21 5) (.ofBits (field w 19 2)) (field w 14 5) (field w 5 5) (field w 0 5))
  | 3 => .ok (.orS (predOf w) (field w 21 5) (.ofBits (field w 19 2)) (field w 14 5) (field w 5 5) (field w 0 5))
  | 4 => .ok (.subS (predOf w) (field w 21 5) (.ofBits (field w 19 2)) (field w 14 5) (field w 5 5) (field w 0 5))
  | 5 => .ok (.rsbS (predOf w) (field w 21 5) (.ofBits (field w 19 2)) (field w 14 5) (field w 5 5) (field w 0 5))
  | 6 => .ok (.xorS (predOf w) (field w 21 5) (.ofBits (field w 19 2)) (field w 14 5) (field w 5 5) (field w 0 5))
  | 7 =>
    match (field w 7 3).toNat with
    | 0 => .ok (.cmpltuS (predOf w) (field w 21 5) (.ofBits (field w 19 2)) (field w 14 5) (field w 5 2) (field w 0 5))
    | 1 => .ok (.cmpleuS (predOf w) (field w 21 5) (.ofBits (field w 19 2)) (field w 14 5) (field w 5 2) (field w 0 5))
    | 2 => .ok (.cmpeqS (predOf w) (field w 21 5) (.ofBits (field w 19 2)) (field w 14 5) (field w 5 2) (field w 0 5))
    | 4 => .ok (.cmpltsS (predOf w) (field w 21 5) (.ofBits (field w 19 2)) (field w 14 5) (field w 5 2) (field w 0 5))
    | 5 => .ok (.cmplesS (predOf w) (field w 21 5) (.ofBits (field w 19 2)) (field w 14 5) (field w 5 2) (field w 0 5))
    | 6 => .ok (.cmpbsS (predOf w) (field w 21 5) (.ofBits (field w 19 2)) (field w 14 5) (field w 5 2) (field w 0 5))
    | 7 => .ok (.cmpbcS (predOf w) (field w 21 5) (.ofBits (field w 19 2)) (field w 14 5) (field w 5 2) (field w 0 5))
    | _ => .error .compareKind
  | 8 => .ok (.movS (predOf w) (field w 21 5) (.ofBits (field w 19 2)) (field w 5 5) (field w 0 5))
  | 9 => .ok (.mvnS (predOf w) (field w 21 5) (.ofBits (field w 19 2)) (field w 5 5) (field w 0 5))
  | 10 => .ok (.sxbS (predOf w) (field w 21 5) (.ofBits (field w 19 2)) (field w 5 5) (field w 0 5))
  | 11 => .ok (.sxhS (predOf w) (field w 21 5) (.ofBits (field w 19 2)) (field w 5 5) (field w 0 5))
  | _ => .error .aluOpcode

/-- Formats A-L and M-L, bits 28:14 = 100 000000000000; `lim` is the next slot's word (R65, R69, R81). -/
def decodeLong (w : Word) (lim : Word) : Except DecodeStop Instr :=
  match (field w 10 4).toNat with
  | 0 => .ok (.addL (predOf w) (field w 5 5) (field w 0 5) lim)
  | 1 => .ok (.andL (predOf w) (field w 5 5) (field w 0 5) lim)
  | 2 => .ok (.norL (predOf w) (field w 5 5) (field w 0 5) lim)
  | 3 => .ok (.orL (predOf w) (field w 5 5) (field w 0 5) lim)
  | 4 => .ok (.subL (predOf w) (field w 5 5) (field w 0 5) lim)
  | 5 => .ok (.rsbL (predOf w) (field w 5 5) (field w 0 5) lim)
  | 6 => .ok (.xorL (predOf w) (field w 5 5) (field w 0 5) lim)
  | 7 =>
    match (field w 7 3).toNat with
    | 0 => .ok (.cmpltuL (predOf w) (field w 5 2) (field w 0 5) lim)
    | 1 => .ok (.cmpleuL (predOf w) (field w 5 2) (field w 0 5) lim)
    | 2 => .ok (.cmpeqL (predOf w) (field w 5 2) (field w 0 5) lim)
    | 4 => .ok (.cmpltsL (predOf w) (field w 5 2) (field w 0 5) lim)
    | 5 => .ok (.cmplesL (predOf w) (field w 5 2) (field w 0 5) lim)
    | 6 => .ok (.cmpbsL (predOf w) (field w 5 2) (field w 0 5) lim)
    | 7 => .ok (.cmpbcL (predOf w) (field w 5 2) (field w 0 5) lim)
    | _ => .error .compareKind
  | 8 => .ok (.movL (predOf w) (field w 5 5) lim)
  | 9 => .ok (.mvnL (predOf w) (field w 5 5) lim)
  | 10 => .ok (.sxbL (predOf w) (field w 5 5) lim)
  | 11 => .ok (.sxhL (predOf w) (field w 5 5) lim)
  | _ => .error .aluOpcode

/-- Format M-R, bits 28:21 = 100 00001: only the one-source instructions have it (R68, R83 c). -/
def decodeRegShift (w : Word) : Except DecodeStop Instr :=
  match (field w 10 4).toNat with
  | 8 => .ok (.movR (predOf w) (.ofBits (field w 19 2)) (field w 14 5) (field w 5 5) (field w 0 5))
  | 9 => .ok (.mvnR (predOf w) (.ofBits (field w 19 2)) (field w 14 5) (field w 5 5) (field w 0 5))
  | 10 => .ok (.sxbR (predOf w) (.ofBits (field w 19 2)) (field w 14 5) (field w 5 5) (field w 0 5))
  | 11 => .ok (.sxhR (predOf w) (.ofBits (field w 19 2)) (field w 14 5) (field w 5 5) (field w 0 5))
  | _ => .error .longPattern

/-- Formats LD and ST, bits 28:25 = 1001: bit 12 tells a load from a store, bits 11:10 are WIDTH; bit 13 of a store is as
STORE_M says (R75, R76). -/
def decodeMemory (w : Word) : Except DecodeStop Instr :=
  if field w 12 1 = 0 then
    match (field w 10 2).toNat with
    | 0 => .ok (.lb (predOf w) (field w 13 12) (field w 5 5) (field w 0 5))
    | 1 => .ok (.lh (predOf w) (field w 13 12) (field w 5 5) (field w 0 5))
    | 2 => .ok (.lw (predOf w) (field w 13 12) (field w 5 5) (field w 0 5))
    | _ => .ok (.ll (predOf w) (field w 13 12) (field w 5 5) (field w 0 5))
  else if storeMMustBeZero && field w 13 1 == 1 then .error .storeM
  else
    match (field w 10 2).toNat with
    | 0 => .ok (.sb (predOf w) (field w 19 6 ++ field w 5 5) (field w 14 5) (field w 0 5))
    | 1 => .ok (.sh (predOf w) (field w 19 6 ++ field w 5 5) (field w 14 5) (field w 0 5))
    | 2 => .ok (.sw (predOf w) (field w 19 6 ++ field w 5 5) (field w 14 5) (field w 0 5))
    | _ => .ok (.sc (predOf w) (field w 19 6 ++ field w 5 5) (field w 14 5) (field w 0 5))

/-- OFFSET of format B-P, sign-extended to the 25 bits of its cell: the cell's top BRANCH_PCREL_OFFSET_BITS bits (R73, D9). -/
def branchOffset (w : Word) : BitVec 25 := (field w 0 25).sshiftRight (25 - branchPcrelOffsetBits)

/-- The cell 24:0 of format B-P that holds a given OFFSET (R73, D9). -/
def branchCell (off : BitVec 25) : BitVec 25 := off <<< (25 - branchPcrelOffsetBits)

/-- Formats B-P and B-R, bits 28:27 = 11: bit 26 selects the register form, bit 25 is L (R73, R74). -/
def decodeBranch (w : Word) : Except DecodeStop Instr :=
  match (field w 25 2).toNat with
  | 0 => .ok (.bP (predOf w) (branchOffset w))
  | 1 => .ok (.blP (predOf w) (branchOffset w))
  | 2 => .ok (.bR (predOf w) (field w 5 20) (field w 0 5))
  | _ => .ok (.blR (predOf w) (field w 5 20) (field w 0 5))

/-- Format O, bits 28:24 = 10001: bits 23:20 are SUBOP (R77). -/
def decodeOther (w : Word) : Except DecodeStop Instr :=
  let subop := field w 20 4
  if subop = 1 then .ok (.brk (predOf w))
  else if subop = 2 then .ok (.syscall (predOf w))
  else if subop = 3 then .ok (.fence (predOf w))
  else if subop = 4 then .ok (.eret (predOf w))
  else if subop = 5 then .ok (.flush (predOf w) (.ofBits (field w 10 2)) (field w 0 5))
  else if subop = 6 then .ok (.mfc (predOf w) (field w 5 5) (field w 0 5))
  else if subop = 7 then .ok (.mtc (predOf w) (field w 5 5) (field w 0 5))
  else if subop = 8 then
    if field w 19 1 = 0 then .ok (.mult (predOf w) (field w 14 5) (field w 5 5) (field w 0 5))
    else .ok (.mults (predOf w) (field w 14 5) (field w 5 5) (field w 0 5))
  else if subop = 9 then .ok (.div (predOf w) (field w 14 5) (field w 5 5) (field w 0 5))
  else if subop = encMfhi then .ok (.mfhi (predOf w) (field w 5 5))
  else if subop = encMthi then .ok (.mthi (predOf w) (field w 0 5))
  else .error .subop

/-- Major decode by bits 28:24 (R62); `lim` is the word of the next slot, used by the long-immediate forms only (R81). -/
def decodeWord (w lim : Word) : Except DecodeStop Instr :=
  if field w 28 1 = 0 then decodeShort w
  else if field w 26 3 = 0b101 then decodeShifted w
  else if field w 27 2 = 0b11 then decodeBranch w
  else if field w 25 4 = 0b1001 then decodeMemory w
  else if field w 24 5 = 0b10001 then decodeOther w
  else if field w 14 10 = 0 then decodeLong w lim
  else if field w 21 3 = 0b001 then decodeRegShift w
  else .error .longPattern

/-- The word has the long-immediate pattern of formats A-L and M-L, bits 28:14 = 100 000000000000 (R65, R69): it takes
two slots (R60). -/
def isLongWord (w : Word) : Bool := field w 14 15 == 0x4000

/-- The class of the instruction a word encodes, read from bits 28:24 alone (R62, R82). -/
def wordClass (w : Word) : SlotClass :=
  if field w 28 1 = 0 then .alu
  else if field w 27 2 = 0b11 then .control
  else if field w 25 4 = 0b1001 then .memory
  else if field w 24 5 = 0b10001 then .control
  else .alu

/-! ## Decoding a packet -/

/-- Decode the words of a packet from slot `slot` on, lowest slot first (R86): the word after a long immediate is its
operand and is not decoded; a long immediate in the last slot and an instruction in a slot its class does not allow are
rejected. -/
def decodeFrom : Nat → List Word → Except DecodeStop (List Instr)
  | _, [] => .ok []
  | slot, w :: rest =>
    match decodeWord w (rest.headD 0) with
    | .error e => .error e
    | .ok i =>
      if !(wordClass w).allows slot then .error .slotClass
      else if isLongWord w then
        match rest with
        | [] => .error .longInLastSlot
        | _ :: rest' =>
          match decodeFrom (slot + 2) rest' with
          | .error e => .error e
          | .ok is => .ok (i :: is)
      else
        match decodeFrom (slot + 1) rest with
        | .error e => .error e
        | .ok is => .ok (i :: is)

/-- Decode the four words of a packet (R86). -/
def decodePacket (ws : List Word) : Except DecodeStop (List Instr) := decodeFrom 0 ws

/-! ## Bytes, and the host's reading of a table row -/

/-- The word that four bytes hold, the first byte in bits 7:0 (R31). -/
def wordOfBytes (b0 b1 b2 b3 : Byte) : Word := b3 ++ b2 ++ b1 ++ b0

/-- The four bytes of a word as memory holds them, bits 7:0 at the lowest address (R31). -/
def bytesOfWord (w : Word) : List Byte := [field w 0 8, field w 8 8, field w 16 8, field w 24 8]

/-- Decode the instruction at the front of a list of bytes and return what follows it; none where the bytes are too few
or encode no instruction. A long immediate takes the next four bytes (R81). -/
def decodeBytes : List Byte → Option (Instr × List Byte)
  | b0 :: b1 :: b2 :: b3 :: rest =>
    let w := wordOfBytes b0 b1 b2 b3
    if isLongWord w then
      match rest with
      | l0 :: l1 :: l2 :: l3 :: rest' =>
        match decodeWord w (wordOfBytes l0 l1 l2 l3) with
        | .ok i => some (i, rest')
        | .error _ => none
      | _ => none
    else
      match decodeWord w 0 with
      | .ok i => some (i, rest)
      | .error _ => none
  | _ => none

/-- The first two words of an instruction given as a number of `nbits` bits, every bit above them zero. -/
def tableWords (nbits w : Nat) : Word × Word :=
  let bits := w % 2 ^ nbits
  (BitVec.ofNat 32 bits, BitVec.ofNat 32 (bits >>> 32))

/-- The instruction the decoder reads from a row of the opcode table: its bits are laid out as bytes, first word first and
low byte first, and given to the decoder. -/
def decodeTableWord (nbits w : Nat) : Option Instr :=
  let ws := tableWords nbits w
  (decodeBytes (bytesOfWord ws.1 ++ bytesOfWord ws.2)).map Prod.fst

/-! ## The encoder. Bits the spec ignores are written 0 (R84). -/

/-- Format A-I, M-I (R63, R66): the last field is RS or CONSTHI. -/
def encodeShort (p : Pred) (c : BitVec 10) (rot opcode : BitVec 4) (rd rs : BitVec 5) : Word :=
  p.bits ++ 0#1 ++ c ++ rot ++ opcode ++ rd ++ rs

/-- Format A-S, M-S (R64, R67). -/
def encodeShifted (p : Pred) (amt : BitVec 5) (shf : ShiftKind) (rt : BitVec 5) (opcode : BitVec 4) (rd rs : BitVec 5) : Word :=
  p.bits ++ 0b101#3 ++ amt ++ shf.bits ++ rt ++ opcode ++ rd ++ rs

/-- Format M-R (R68). -/
def encodeRegShift (p : Pred) (shf : ShiftKind) (rt : BitVec 5) (opcode : BitVec 4) (rd rs : BitVec 5) : Word :=
  p.bits ++ 0b10000001#8 ++ shf.bits ++ rt ++ opcode ++ rd ++ rs

/-- Format A-L, M-L: the instruction word and LIM in the next slot (R65, R69, R81). -/
def encodeLong (p : Pred) (opcode : BitVec 4) (rd rs : BitVec 5) (lim : Word) : List Word :=
  [p.bits ++ 0b100000000000000#15 ++ opcode ++ rd ++ rs, lim]

/-- Format B-P (R73): `l` is 1 for BL. -/
def encodeBranchPc (p : Pred) (l : BitVec 1) (off : BitVec 25) : Word :=
  p.bits ++ 0b110#3 ++ l ++ branchCell off

/-- Format B-R (R74): `l` is 1 for BL. -/
def encodeBranchReg (p : Pred) (l : BitVec 1) (off : BitVec 20) (rs : BitVec 5) : Word :=
  p.bits ++ 0b111#3 ++ l ++ off ++ rs

/-- Format LD (R75). -/
def encodeLoad (p : Pred) (off : BitVec 12) (width : BitVec 2) (rd rs : BitVec 5) : Word :=
  p.bits ++ 0b1001#4 ++ off ++ 0#1 ++ width ++ rd ++ rs

/-- Format ST with M = 0 (R76): the offset is split into OFFSETHIGH and OFFSETLOW. -/
def encodeStore (p : Pred) (off : BitVec 11) (width : BitVec 2) (rt rs : BitVec 5) : Word :=
  p.bits ++ 0b1001#4 ++ off.extractLsb' 5 6 ++ rt ++ 0b01#2 ++ width ++ off.extractLsb' 0 5 ++ rs

/-- Format O (R77): SUBOP and the twenty bits below it. -/
def encodeOther (p : Pred) (subop : BitVec 4) (low : BitVec 20) : Word := p.bits ++ 0b10001#5 ++ subop ++ low

/-- The words of an instruction: one, or two with a long immediate. -/
def encode : Instr → List Word
  | .addI p c rot rd rs => [encodeShort p c rot 0b0000 rd rs]
  | .addS p amt shf rt rd rs => [encodeShifted p amt shf rt 0b0000 rd rs]
  | .addL p rd rs lim => encodeLong p 0b0000 rd rs lim
  | .andI p c rot rd rs => [encodeShort p c rot 0b0001 rd rs]
  | .andS p amt shf rt rd rs => [encodeShifted p amt shf rt 0b0001 rd rs]
  | .andL p rd rs lim => encodeLong p 0b0001 rd rs lim
  | .norI p c rot rd rs => [encodeShort p c rot 0b0010 rd rs]
  | .norS p amt shf rt rd rs => [encodeShifted p amt shf rt 0b0010 rd rs]
  | .norL p rd rs lim => encodeLong p 0b0010 rd rs lim
  | .orI p c rot rd rs => [encodeShort p c rot 0b0011 rd rs]
  | .orS p amt shf rt rd rs => [encodeShifted p amt shf rt 0b0011 rd rs]
  | .orL p rd rs lim => encodeLong p 0b0011 rd rs lim
  | .subI p c rot rd rs => [encodeShort p c rot 0b0100 rd rs]
  | .subS p amt shf rt rd rs => [encodeShifted p amt shf rt 0b0100 rd rs]
  | .subL p rd rs lim => encodeLong p 0b0100 rd rs lim
  | .rsbI p c rot rd rs => [encodeShort p c rot 0b0101 rd rs]
  | .rsbS p amt shf rt rd rs => [encodeShifted p amt shf rt 0b0101 rd rs]
  | .rsbL p rd rs lim => encodeLong p 0b0101 rd rs lim
  | .xorI p c rot rd rs => [encodeShort p c rot 0b0110 rd rs]
  | .xorS p amt shf rt rd rs => [encodeShifted p amt shf rt 0b0110 rd rs]
  | .xorL p rd rs lim => encodeLong p 0b0110 rd rs lim
  | .cmpltuI p c rot pd rs => [encodeShort p c rot 0b0111 (0b000#3 ++ pd) rs]
  | .cmpltuS p amt shf rt pd rs => [encodeShifted p amt shf rt 0b0111 (0b000#3 ++ pd) rs]
  | .cmpltuL p pd rs lim => encodeLong p 0b0111 (0b000#3 ++ pd) rs lim
  | .cmpleuI p c rot pd rs => [encodeShort p c rot 0b0111 (0b001#3 ++ pd) rs]
  | .cmpleuS p amt shf rt pd rs => [encodeShifted p amt shf rt 0b0111 (0b001#3 ++ pd) rs]
  | .cmpleuL p pd rs lim => encodeLong p 0b0111 (0b001#3 ++ pd) rs lim
  | .cmpeqI p c rot pd rs => [encodeShort p c rot 0b0111 (0b010#3 ++ pd) rs]
  | .cmpeqS p amt shf rt pd rs => [encodeShifted p amt shf rt 0b0111 (0b010#3 ++ pd) rs]
  | .cmpeqL p pd rs lim => encodeLong p 0b0111 (0b010#3 ++ pd) rs lim
  | .cmpltsI p c rot pd rs => [encodeShort p c rot 0b0111 (0b100#3 ++ pd) rs]
  | .cmpltsS p amt shf rt pd rs => [encodeShifted p amt shf rt 0b0111 (0b100#3 ++ pd) rs]
  | .cmpltsL p pd rs lim => encodeLong p 0b0111 (0b100#3 ++ pd) rs lim
  | .cmplesI p c rot pd rs => [encodeShort p c rot 0b0111 (0b101#3 ++ pd) rs]
  | .cmplesS p amt shf rt pd rs => [encodeShifted p amt shf rt 0b0111 (0b101#3 ++ pd) rs]
  | .cmplesL p pd rs lim => encodeLong p 0b0111 (0b101#3 ++ pd) rs lim
  | .cmpbsI p c rot pd rs => [encodeShort p c rot 0b0111 (0b110#3 ++ pd) rs]
  | .cmpbsS p amt shf rt pd rs => [encodeShifted p amt shf rt 0b0111 (0b110#3 ++ pd) rs]
  | .cmpbsL p pd rs lim => encodeLong p 0b0111 (0b110#3 ++ pd) rs lim
  | .cmpbcI p c rot pd rs => [encodeShort p c rot 0b0111 (0b111#3 ++ pd) rs]
  | .cmpbcS p amt shf rt pd rs => [encodeShifted p amt shf rt 0b0111 (0b111#3 ++ pd) rs]
  | .cmpbcL p pd rs lim => encodeLong p 0b0111 (0b111#3 ++ pd) rs lim
  | .movI p c rot rd => [encodeShort p (c.extractLsb' 0 10) rot 0b1000 rd (c.extractLsb' 10 5)]
  | .movS p amt shf rd rs => [encodeShifted p amt shf 0 0b1000 rd rs]
  | .movR p shf rt rd rs => [encodeRegShift p shf rt 0b1000 rd rs]
  | .movL p rd lim => encodeLong p 0b1000 rd 0 lim
  | .mvnI p c rot rd => [encodeShort p (c.extractLsb' 0 10) rot 0b1001 rd (c.extractLsb' 10 5)]
  | .mvnS p amt shf rd rs => [encodeShifted p amt shf 0 0b1001 rd rs]
  | .mvnR p shf rt rd rs => [encodeRegShift p shf rt 0b1001 rd rs]
  | .mvnL p rd lim => encodeLong p 0b1001 rd 0 lim
  | .sxbI p c rot rd => [encodeShort p (c.extractLsb' 0 10) rot 0b1010 rd (c.extractLsb' 10 5)]
  | .sxbS p amt shf rd rs => [encodeShifted p amt shf 0 0b1010 rd rs]
  | .sxbR p shf rt rd rs => [encodeRegShift p shf rt 0b1010 rd rs]
  | .sxbL p rd lim => encodeLong p 0b1010 rd 0 lim
  | .sxhI p c rot rd => [encodeShort p (c.extractLsb' 0 10) rot 0b1011 rd (c.extractLsb' 10 5)]
  | .sxhS p amt shf rd rs => [encodeShifted p amt shf 0 0b1011 rd rs]
  | .sxhR p shf rt rd rs => [encodeRegShift p shf rt 0b1011 rd rs]
  | .sxhL p rd lim => encodeLong p 0b1011 rd 0 lim
  | .bP p off => [encodeBranchPc p 0 off]
  | .bR p off rs => [encodeBranchReg p 0 off rs]
  | .blP p off => [encodeBranchPc p 1 off]
  | .blR p off rs => [encodeBranchReg p 1 off rs]
  | .lb p off rd rs => [encodeLoad p off 0b00 rd rs]
  | .lh p off rd rs => [encodeLoad p off 0b01 rd rs]
  | .lw p off rd rs => [encodeLoad p off 0b10 rd rs]
  | .ll p off rd rs => [encodeLoad p off 0b11 rd rs]
  | .sb p off rt rs => [encodeStore p off 0b00 rt rs]
  | .sh p off rt rs => [encodeStore p off 0b01 rt rs]
  | .sw p off rt rs => [encodeStore p off 0b10 rt rs]
  | .sc p off rt rs => [encodeStore p off 0b11 rt rs]
  | .brk p => [encodeOther p 0b0001 0]
  | .syscall p => [encodeOther p 0b0010 0]
  | .fence p => [encodeOther p 0b0011 0]
  | .eret p => [encodeOther p 0b0100 0]
  | .flush p target rs => [encodeOther p 0b0101 (0#8 ++ target.bits ++ 0#5 ++ rs)]
  | .mfc p rd cprs => [encodeOther p 0b0110 (0#10 ++ rd ++ cprs)]
  | .mtc p cprd rs => [encodeOther p 0b0111 (0#10 ++ cprd ++ rs)]
  | .mult p rt rd rs => [encodeOther p 0b1000 (0#1 ++ rt ++ 0#4 ++ rd ++ rs)]
  | .mults p rt rd rs => [encodeOther p 0b1000 (1#1 ++ rt ++ 0#4 ++ rd ++ rs)]
  | .div p rt rd rs => [encodeOther p 0b1001 (0#1 ++ rt ++ 0#4 ++ rd ++ rs)]
  | .mfhi p rd => [encodeOther p encMfhi (0#10 ++ rd ++ 0#5)]
  | .mthi p rs => [encodeOther p encMthi (0#15 ++ rs)]

/-- The word the spec writes NOP (R85): never executed, legal in every slot. -/
def nopWord : Word := 0xE0000000

/-- The instruction of `nopWord`: ADD R0, R0, #0 under inverted P3 (R85). -/
def nopInstr : Instr := .addI ⟨3, true⟩ 0 0 0 0

end Sys2Proof
end

