-- ==== Sys2Proof/Machine/State.lean ====
section
/-! DEFINITION. Everything the spec gives the machine, as plain data, and the machine right after reset. -/

namespace Sys2Proof.Machine

/-- The two modes (R17). -/
inductive Mode where
  | kernel | user
  deriving DecidableEq, Repr

/-- The kinds of access TRANSLATE tells apart (R38). -/
inductive Access where
  | fetch | load | store
  deriving DecidableEq, Repr

/-- What a trap is taken for: the four exceptions by name (R220) and the interrupt (R225). -/
inductive Cause where
  /-- An interrupt dispatched before the packet (R225). -/
  | interrupt
  /-- PageFault at a virtual address (R222). -/
  | pageFault (va : Word)
  /-- IllegalInstruction (R221). -/
  | illegalInstruction
  /-- Syscall (R223). -/
  | syscall
  /-- Break (R224). -/
  | brk
  deriving DecidableEq, Repr

/-- One thing an executed instruction does, as the step collects it (R90). `load` changes nothing: it is the byte range
that R42 compares with a packet-mate's store. Memory and cache addresses are physical. -/
inductive Effect where
  | reg (r : RegNum) (v : Word)
  | pred (n : PredNum) (b : Bool)
  | hi (v : Word)
  | link (b : Bool)
  | mode (m : Mode)
  | epc (v : Word)
  | cpr (n : CprNum) (v : Word)
  | load (pa : Word) (n : Nat)
  | store (pa : Word) (bytes : List Byte)
  | flush (target : FlushTarget) (pa : Word)
  | jump (target : Word)
  | trap (c : Cause)
  deriving DecidableEq, Repr

/-- How far the cache maintenance of a stored byte has come (R45): stored, or stored and then FLUSH DATA. A byte whose
FLUSH INST followed is not marked any more. -/
inductive Stage where
  | stored | dataFlushed
  deriving DecidableEq, Repr

/-- Where TRANSLATE differs from the identity (R38, log 6): in one mode, for one kind of access, one virtual page goes to a
frame, or faults. -/
structure PageEntry where
  mode : Mode
  access : Access
  vpn : BitVec 20
  frame : Option (BitVec 20)
  deriving DecidableEq, Repr

/-- The parameters of R2 that the environment supplies. No instruction writes them. -/
structure Params where
  /-- EXC_HANDLER_ADDR divided by 16 (R227). -/
  excHandler : BitVec 28
  /-- CPR_EPC (R19). -/
  cprEpc : CprNum
  /-- CPR_MAP: bit n says that coprocessor register n exists (R18). -/
  cprMap : BitVec 32
  /-- TRANSLATE: the first entry for a mode, access kind and page decides; where there is none, the identity (R38). -/
  pages : List PageEntry
  /-- MEM_MAP: the physical addresses from the first number up to, not with, the second have no memory (R33). -/
  memHoles : List (Nat × Nat)
  deriving DecidableEq, Repr

/-- Memory as its listed bytes, by physical address. -/
abbrev Memory := List Host.Cell

/-- The bytes whose cache maintenance is not finished, by physical address. -/
abbrev Marks := List (Nat × Stage)

/-- Why the machine stops. -/
inductive Fault where
  /-- An access to a physical address outside MEM_MAP, by a fetch, a load or a store (R33, U13). Safe: the spec says the
  access has no meaning and the machine is stuck. -/
  | unbackedAddress (pa : Word)
  deriving DecidableEq, Repr

/-- Why the model declines an input. -/
inductive Refusal where
  /-- An instruction without a meaning yet, by its mnemonic. Raised by exec's refused arms only, of which there is none.
  Safe. -/
  | notModelled (mnemonic : String)
  /-- Two instructions of one packet write the same place, or touch a common byte that one of them stores (R42, R92, U1 to
  U4). Raised by a packet. Safe: the spec gives no winner. -/
  | writeConflict
  /-- A fetch of a byte stored in this run and not FLUSH DATA then FLUSH INST since (R45, U12). Raised by a step. Safe. -/
  | staleFetch
  /-- A store word with its M bit set (R76, U7). Raised by a step. Safe: the spec gives M no meaning. -/
  | storeMBit
  /-- ERET in kernel mode with an Error PC that is not a multiple of 16 (R203, U9). Raised by ERET. Safe. -/
  | eretTarget
  /-- MFC or MTC in kernel mode naming a register outside CPR_EPC and CPR_MAP (R205, R206, U8). Raised by MFC and MTC. Safe. -/
  | coprocessorRegister (n : CprNum)
  deriving DecidableEq, Repr

/-- The whole state: what the spec names (R10 to R20, R45), the environment's parameters (R2), and the model's own two last
fields. -/
structure State where
  /-- R0 to R31 (R10). -/
  regs : Vector Word 32
  /-- The address of the packet being executed (R12). -/
  pc : Word
  /-- P0 (R13). -/
  p0 : Bool
  /-- P1 (R13). -/
  p1 : Bool
  /-- P2 (R13). P3 has no storage (R14). -/
  p2 : Bool
  /-- The multiply/divide overflow register (R15). -/
  hi : Word
  /-- The link bit (R16). -/
  link : Bool
  /-- Kernel or user mode (R17). -/
  mode : Mode
  /-- The Error PC control register (R19). -/
  epc : Word
  /-- The other coprocessor registers, by number (R18). -/
  cpr : Vector Word 32
  /-- Memory (R20). -/
  mem : Memory
  /-- The stored bytes that may not be fetched yet (R45). -/
  marks : Marks
  /-- The environment's parameters (R2). -/
  params : Params
  /-- INTERRUPTS: whether an interrupt is dispatched before each coming step; none past the list's end (R225). -/
  irqs : List Bool
  /-- The model's own: how many steps have completed (log 35). -/
  tick : Nat
  /-- The model's own: what the last step collected, or the trap it took (R90, R220, log 35). -/
  collected : List Effect
  deriving DecidableEq, Repr

/-- The parameters at reset: the OPEN ones that have no body, the identity for TRANSLATE (D26), all addresses backed
(log 7). -/
def Params.reset : Params where
  excHandler := Config.excHandler
  cprEpc := Config.cprEpc
  cprMap := Config.cprMap
  pages := []
  memHoles := []

/-- The machine right after reset (R22, R260 to R262): kernel mode, pc at RESET_PC; what the spec leaves unspecified is
zero (log 1, log 2, log 3). -/
def State.reset : State where
  regs := Vector.replicate 32 0
  pc := Config.resetPc
  p0 := false
  p1 := false
  p2 := false
  hi := 0
  link := false
  mode := .kernel
  epc := 0
  cpr := Vector.replicate 32 0
  mem := []
  marks := []
  params := Params.reset
  irqs := []
  tick := 0
  collected := []

end Sys2Proof.Machine
end

