-- ==== Sys2Proof/Machine/Ops.lean ====
section
/-! DEFINITION. The named operations over registers, memory and the marks of unflushed stores; translation; taking an
exception and returning from one; and committing what a packet collected. -/

namespace Sys2Proof.Machine

/-! ## Registers -/

/-- Read general register `r` (R5). -/
def State.reg (s : State) (r : RegNum) : Word := s.regs[r.toNat]'r.isLt

/-- Write general register `r` (R5). -/
def State.setReg (s : State) (r : RegNum) (v : Word) : State := { s with regs := s.regs.set r.toNat v r.isLt }

/-- Read coprocessor register `n`, Error PC apart (R18). -/
def State.cprAt (s : State) (n : CprNum) : Word := s.cpr[n.toNat]'n.isLt

/-- Write coprocessor register `n`, Error PC apart (R18). -/
def State.setCpr (s : State) (n : CprNum) (v : Word) : State := { s with cpr := s.cpr.set n.toNat v n.isLt }

/-- Read predicate register `n`; P3 always reads 1 (R14). -/
def State.pred (s : State) (n : PredNum) : Bool :=
  match n.toNat with
  | 0 => s.p0
  | 1 => s.p1
  | 2 => s.p2
  | _ => true

/-- Write predicate register `n`; a write to P3 is discarded (R14). -/
def State.setPred (s : State) (n : PredNum) (b : Bool) : State :=
  match n.toNat with
  | 0 => { s with p0 := b }
  | 1 => { s with p1 := b }
  | 2 => { s with p2 := b }
  | _ => s

/-- The PRED field holds: the selected predicate, inverted where the field says so, is 1 (R61). -/
def State.holds (s : State) (p : Pred) : Bool := s.pred p.sel != p.inv

/-! ## Lists by address, in one canonical form: addresses strictly rising -/

/-- What a list holds at address `a`. -/
def assocGet {α : Type} : List (Nat × α) → Nat → Option α
  | [], _ => none
  | (k, v) :: m, a => if k = a then some v else assocGet m a

/-- Make a list hold `o` at address `a`, keeping the addresses strictly rising. -/
def assocSet {α : Type} : List (Nat × α) → Nat → Option α → List (Nat × α)
  | [], a, o => (o.map fun v => (a, v)).toList
  | (k, v) :: m, a, o =>
    if a < k then (o.map fun v => (a, v)).toList ++ (k, v) :: m
    else if a = k then (o.map fun v => (a, v)).toList ++ m
    else (k, v) :: assocSet m a o

/-! ## Memory -/

/-- What a byte of memory that is not listed reads as: DESIGN CHOICE 0 (log 3). -/
def unlistedByte : Byte := 0

/-- The byte at physical address `a` (R20). -/
def Memory.read (m : Memory) (a : Nat) : Byte := (assocGet m a).getD unlistedByte

/-- Write the byte at physical address `a` (R20); a byte equal to what an unlisted address reads as is not listed. -/
def Memory.write (m : Memory) (a : Nat) (b : Byte) : Memory :=
  assocSet m a (if b = unlistedByte then none else some b)

/-- The canonical form: addresses strictly rising and inside the address space, no listed byte equal to what an unlisted
address reads as. -/
abbrev Memory.wf (m : Memory) : Prop :=
  m.Pairwise (fun x y => x.1 < y.1) ∧ ∀ c ∈ m, c.1 < 2 ^ 32 ∧ c.2 ≠ unlistedByte

/-- Write bytes at rising physical addresses from `pa` on. -/
def Memory.writeBytes (m : Memory) : Word → List Byte → Memory
  | _, [] => m
  | pa, b :: bs => Memory.writeBytes (m.write pa.toNat b) (pa + 1) bs

/-- Read `n` bytes at rising physical addresses from `pa` on. -/
def Memory.readBytes (m : Memory) : Word → Nat → List Byte
  | _, 0 => []
  | pa, n + 1 => m.read pa.toNat :: Memory.readBytes m (pa + 1) n

/-- The byte orders that DATA_ENDIAN can name (R2). -/
inductive Endian where
  | little | big
  deriving DecidableEq, Repr

/-- DATA_ENDIAN: the byte order of data accesses (R2, R32, D1; log 9). That of a fetch is R31's, see `wordOfBytes`. -/
def dataEndian : Endian := .little

/-- The value of bytes whose first is bits 7:0 (R32). -/
def littleEndian : List Byte → Word
  | [] => 0
  | b :: bs => (littleEndian bs <<< 8) ||| b.setWidth 32

/-- The low `n` bytes of a value, bits 7:0 first (R32). -/
def littleEndianBytes : Nat → Word → List Byte
  | 0, _ => []
  | n + 1, v => v.setWidth 8 :: littleEndianBytes n (v >>> 8)

/-- The value of bytes at rising addresses, in the data byte order (R32, D1; log 9). -/
def dataValue (bs : List Byte) : Word :=
  match dataEndian with
  | .little => littleEndian bs
  | .big => littleEndian bs.reverse

/-- The low `n` bytes of a value as they stand at rising addresses, in the data byte order (R32, D1; log 9). -/
def bytesOf (n : Nat) (v : Word) : List Byte :=
  match dataEndian with
  | .little => littleEndianBytes n v
  | .big => (littleEndianBytes n v).reverse

/-- The `n` bytes at physical address `pa` as a value, zero-extended to a word (R32, R33, R36). -/
def Memory.load (m : Memory) (pa : Word) (n : Nat) : Word := dataValue (m.readBytes pa n)

/-! ## The marks of stored bytes (R45) -/

/-- The canonical form of the marks: addresses strictly rising and inside the address space. -/
abbrev Marks.wf (m : Marks) : Prop := m.Pairwise (fun x y => x.1 < y.1) ∧ ∀ c ∈ m, c.1 < 2 ^ 32

/-- Mark `n` bytes from physical address `pa` on as stored (R45). -/
def Marks.stored (m : Marks) : Word → Nat → Marks
  | _, 0 => m
  | pa, n + 1 => Marks.stored (assocSet m pa.toNat (some .stored)) (pa + 1) n

/-- Unmark `n` bytes from physical address `pa` on. -/
def Marks.clear (m : Marks) : Word → Nat → Marks
  | _, 0 => m
  | pa, n + 1 => Marks.clear (assocSet m pa.toNat none) (pa + 1) n

/-- One of `n` bytes from physical address `pa` on is marked: it may not be fetched (R45). -/
def Marks.anyMarked (m : Marks) : Word → Nat → Bool
  | _, 0 => false
  | pa, n + 1 => (assocGet m pa.toNat).isSome || Marks.anyMarked m (pa + 1) n

/-- The mark of one byte after a FLUSH of its word: FLUSH DATA moves a stored byte on, FLUSH INST then makes it fetchable;
the TLB targets change nothing (R45, R46, R204). -/
def flushedMark : FlushTarget → Option Stage → Option Stage
  | .data, some .stored => some .dataFlushed
  | .inst, some .dataFlushed => none
  | _, o => o

/-- FLUSH the `n` bytes from physical address `pa` on. -/
def Marks.flushBytes (m : Marks) (target : FlushTarget) : Word → Nat → Marks
  | _, 0 => m
  | pa, n + 1 =>
    Marks.flushBytes (assocSet m pa.toNat (flushedMark target (assocGet m pa.toNat))) target (pa + 1) n

/-- FLUSH the line of physical address `pa`. The line length is not in the spec: a FLUSH is counted for the four bytes of
the addressed word only (R45 "every modified word address"; log 26). -/
def Marks.flush (m : Marks) (target : FlushTarget) (pa : Word) : Marks := m.flushBytes target (pa &&& 0xFFFFFFFC) 4

/-! ## Translation and the address map -/

/-- TRANSLATE in the current mode: the physical address of a virtual address, none for PageFault. The low 12 bits are
unchanged (R38). -/
def State.translate (s : State) (k : Access) (va : Word) : Option Word :=
  match s.params.pages.find? fun e => e.mode == s.mode && e.access == k && e.vpn == va.extractLsb' 12 20 with
  | none => some va
  | some e => e.frame.map fun f => f ++ va.extractLsb' 0 12

/-- MEM_MAP backs all `n` bytes from physical address `pa` on (R33). -/
def State.backed (s : State) (pa : Word) (n : Nat) : Bool :=
  s.params.memHoles.all fun h => h.2 ≤ pa.toNat || pa.toNat + n ≤ h.1

/-- Where an access ends up. -/
inductive Reached where
  | memory (pa : Word)
  | pageFault
  | unbacked (pa : Word)
  deriving DecidableEq, Repr

/-- Translate an access of `n` bytes at virtual address `va` and look it up in the address map (R33). -/
def State.reach (s : State) (k : Access) (va : Word) (n : Nat) : Reached :=
  match s.translate k va with
  | none => .pageFault
  | some pa => if s.backed pa n then .memory pa else .unbacked pa

/-! ## Taking an exception, and returning from one -/

/-- EXC_HANDLER_ADDR, a multiple of 16 (R227). -/
def Params.handlerAddr (p : Params) : Word := p.excHandler ++ 0#4

/-- EPC_VALUE: what Error PC holds after trap entry, for every cause the packet's address (R227, D15). -/
def State.epcValue (s : State) : Cause → Word
  | .interrupt => s.pc
  | .pageFault _ => s.pc
  | .illegalInstruction => s.pc
  | .syscall => s.pc
  | .brk => s.pc

/-- Trap entry, for every exception and interrupt (R227): Error PC, the mode, the link bit and the pc change, nothing
else; the model reports the cause in `collected`. -/
def State.enterTrap (s : State) (c : Cause) : State :=
  { s with
    epc := s.epcValue c
    mode := .kernel
    link := false
    pc := s.params.handlerAddr
    tick := s.tick + 1
    collected := [.trap c] }

/-- What the return from an exception writes (R203, R229): control to Error PC, user mode, the link bit cleared. -/
def State.returnEffects (s : State) : List Effect := [.jump s.epc, .mode .user, .link false]

/-! ## Committing a packet -/

/-- Commit one collected effect (R90). -/
def State.apply (s : State) : Effect → State
  | .reg r v => s.setReg r v
  | .pred n b => s.setPred n b
  | .hi v => { s with hi := v }
  | .link b => { s with link := b }
  | .mode m => { s with mode := m }
  | .epc v => { s with epc := v }
  | .cpr n v => s.setCpr n v
  | .load _ _ => s
  | .store pa bytes => { s with mem := s.mem.writeBytes pa bytes, marks := s.marks.stored pa bytes.length }
  | .flush target pa => { s with marks := s.marks.flush target pa }
  | .jump target => { s with pc := target }
  | .trap _ => s

/-- The state after a packet that collected `es`, before any of them is committed: the pc at the next packet (R12, R93),
the step counted, `es` reported. -/
def State.advance (s : State) (es : List Effect) : State :=
  { s with pc := s.pc + 16, tick := s.tick + 1, collected := es }

/-- Commit all effects of a packet (R90). -/
def State.commit (s : State) (es : List Effect) : State := es.foldl State.apply (s.advance es)

/-- The outcome of an instruction that is executed only if its predicate holds; otherwise nothing but the pc changes
(R61). -/
def State.whenHolds (s : State) (p : Pred) (executed : Host.Outcome State Fault Refusal) :
    Host.Outcome State Fault Refusal :=
  if s.holds p then executed else .next (s.commit [])

/-- The outcome of a data access of `n` bytes at virtual address `va`: a page fault traps (R222), an address outside the
map stops the machine (R33), and else what `done` collects, given the physical address, is committed. -/
def State.accessData (s : State) (k : Access) (va : Word) (n : Nat) (done : Word → List Effect) :
    Host.Outcome State Fault Refusal :=
  match s.reach k va n with
  | .pageFault => .next (s.enterTrap (.pageFault va))
  | .unbacked pa => .fault (.unbackedAddress pa)
  | .memory pa => .next (s.commit (done pa))

/-! ## Write conflicts inside a packet -/

/-- Two byte ranges have a common byte. -/
def overlap (a : Word) (n : Nat) (b : Word) (m : Nat) : Bool := a.toNat < b.toNat + m && b.toNat < a.toNat + n

/-- Two effects of different instructions of one packet conflict (R42, R92): the same general register, the same predicate
but P3, `hi`, `link`, or a common byte that one of them stores. -/
def clash : Effect → Effect → Bool
  | .reg a _, .reg b _ => a == b
  | .pred a _, .pred b _ => a == b && a != 3
  | .hi _, .hi _ => true
  | .link _, .link _ => true
  | .store a bs, .store b cs => overlap a bs.length b cs.length
  | .store a bs, .load b n => overlap a bs.length b n
  | .load a n, .store b cs => overlap a n b cs.length
  | _, _ => false

/-- No two of the effects conflict (R92). -/
def conflictFree : List Effect → Bool
  | [] => true
  | e :: es => es.all (fun f => !clash e f) && conflictFree es

end Sys2Proof.Machine
end

