-- ==== Sys2Proof/Machine/Operands.lean ====
section
/-! DEFINITION. The operand forms: immediates, shifts, effective addresses and branch targets. -/

namespace Sys2Proof.Machine

/-- SHORT_IMM: the constant zero-extended and rotated right by twice the ROTATE field (R78, D6; log 10). The constant has
10 bits in format A-I and 15 in format M-I. -/
def shortImm {n : Nat} (c : BitVec n) (rot : BitVec 4) : Word := (c.setWidth 32).rotateRight (2 * rot.toNat)

/-- Shift a value by 0 to 31 places (R80). -/
def shift (v : Word) (k : ShiftKind) (n : Nat) : Word :=
  match k with
  | .lsl => v <<< n
  | .lsr => v >>> n
  | .asr => v.sshiftRight n
  | .ror => v.rotateRight n

/-- ShiftReg: as `shift` for an amount up to 31; from 32 on a free value (R80, R140, D8; log 12). -/
def shiftReg (tick : Nat) (rd : RegNum) (v : Word) (k : ShiftKind) (m : Word) : Word :=
  if m.toNat ≤ 31 then shift v k m.toNat else Config.regShiftWide tick rd k.bits v m

/-- OP2 of format A-S and OP1 of format M-S: a register shifted by an immediate (R64, R67). -/
def State.shifted (s : State) (r : RegNum) (k : ShiftKind) (amt : BitVec 5) : Word := shift (s.reg r) k amt.toNat

/-- OP1 of format M-R: register `rs` shifted by register `rt`, for a result in `rd` (R68). -/
def State.shiftedByReg (s : State) (rd rs : RegNum) (k : ShiftKind) (rt : RegNum) : Word :=
  shiftReg s.tick rd (s.reg rs) k (s.reg rt)

/-- The effective address of a load or store: base plus sign-extended byte offset, modulo 2^32 (R170, R48). -/
def State.effAddr {n : Nat} (s : State) (rs : RegNum) (off : BitVec n) : Word := s.reg rs + off.signExtend 32

/-- The address an access of 2 bytes uses: bit 0 cleared (R34). -/
def align2 (ea : Word) : Word := ea &&& 0xFFFFFFFE

/-- The address an access of 4 bytes uses: bits 1:0 cleared (R34). -/
def align4 (ea : Word) : Word := ea &&& 0xFFFFFFFC

/-- The branch target from a base address and an offset counted in packets, rounded down to a multiple of 16 (R160). -/
def branchTarget {n : Nat} (base : Word) (off : BitVec n) : Word := (base + (off.signExtend 32 <<< 4)) &&& 0xFFFFFFF0

end Sys2Proof.Machine
end

