-- ==== Sys2Proof/Machine/Flags.lean ====
section
/-! DEFINITION. The one-bit results: what each compare writes into its predicate register. There is no other condition state
(R13). -/

namespace Sys2Proof.Machine

/-- CMPLTU: unsigned less than (R121). -/
def isLtu (a b : Word) : Bool := a.toNat < b.toNat

/-- CMPLEU: unsigned less than or equal (R122). -/
def isLeu (a b : Word) : Bool := a.toNat ≤ b.toNat

/-- CMPEQ: all 32 bits equal (R123). -/
def isEq (a b : Word) : Bool := a == b

/-- CMPLTS: signed less than (R124). -/
def isLts (a b : Word) : Bool := a.toInt < b.toInt

/-- CMPLES: signed less than or equal (R125). -/
def isLes (a b : Word) : Bool := a.toInt ≤ b.toInt

/-- CMPBS: some bit that `b` selects is set in `a` (R126). -/
def anyBitSet (a b : Word) : Bool := a &&& b != 0

/-- CMPBC: some bit that `b` selects is clear in `a`, the formula of R127 (D36; log 33). -/
def anyBitClear (a b : Word) : Bool := ~~~a &&& b != 0

end Sys2Proof.Machine
end

