-- ==== Sys2Proof/Machine/Alu.lean ====
section
/-! DEFINITION. The seven two-source ALU instructions in their three formats (R100 to R108): what each computes is said once,
and each row of the opcode table hands it RS and its second operand. -/

namespace Sys2Proof.Machine

/-- An ALU instruction that writes `v` into `rd` and nothing else: no flag, no exception (R100, R140). -/
def State.aluResult (s : State) (p : Pred) (rd : RegNum) (v : Word) : Host.Outcome State Fault Refusal :=
  s.whenHolds p (.next (s.commit [.reg rd v]))

/-- ADD, Addition: the sum modulo 2^32 of RS and OP2 (R101). -/
def addValue (a b : Word) : Word := a + b

/-- AND, Bitwise And: bitwise AND of RS and OP2 (R102). -/
def andValue (a b : Word) : Word := a &&& b

/-- NOR, Bitwise Logical NOR: bitwise NOR of RS and OP2 (R103). -/
def norValue (a b : Word) : Word := ~~~(a ||| b)

/-- OR, Bitwise Logical OR: bitwise OR of RS and OP2 (R104). -/
def orValue (a b : Word) : Word := a ||| b

/-- SUB, Subtraction: the difference modulo 2^32 of RS and OP2 (R105). -/
def subValue (a b : Word) : Word := a - b

/-- RSB, Reverse Subtraction: the reverse difference modulo 2^32 of RS and OP2 (R106). -/
def rsbValue (a b : Word) : Word := b - a

/-- XOR, Bitwise Exclusive OR: bitwise XOR of RS and OP2 (R107). -/
def xorValue (a b : Word) : Word := a ^^^ b

/-- ADD with a short immediate (R101). -/
def execAddI (p : Pred) (c : BitVec 10) (rot : BitVec 4) (rd rs : RegNum) (s : State) : Host.Outcome State Fault Refusal :=
  s.aluResult p rd (addValue (s.reg rs) (shortImm c rot))

/-- ADD with a shifted register (R101). -/
def execAddS (p : Pred) (amt : BitVec 5) (shf : ShiftKind) (rt rd rs : RegNum) (s : State) : Host.Outcome State Fault Refusal :=
  s.aluResult p rd (addValue (s.reg rs) (s.shifted rt shf amt))

/-- ADD with a long immediate (R101). -/
def execAddL (p : Pred) (rd rs : RegNum) (lim : Word) (s : State) : Host.Outcome State Fault Refusal :=
  s.aluResult p rd (addValue (s.reg rs) lim)

/-- AND with a short immediate (R102). -/
def execAndI (p : Pred) (c : BitVec 10) (rot : BitVec 4) (rd rs : RegNum) (s : State) : Host.Outcome State Fault Refusal :=
  s.aluResult p rd (andValue (s.reg rs) (shortImm c rot))

/-- AND with a shifted register (R102). -/
def execAndS (p : Pred) (amt : BitVec 5) (shf : ShiftKind) (rt rd rs : RegNum) (s : State) : Host.Outcome State Fault Refusal :=
  s.aluResult p rd (andValue (s.reg rs) (s.shifted rt shf amt))

/-- AND with a long immediate (R102). -/
def execAndL (p : Pred) (rd rs : RegNum) (lim : Word) (s : State) : Host.Outcome State Fault Refusal :=
  s.aluResult p rd (andValue (s.reg rs) lim)

/-- NOR with a short immediate (R103). -/
def execNorI (p : Pred) (c : BitVec 10) (rot : BitVec 4) (rd rs : RegNum) (s : State) : Host.Outcome State Fault Refusal :=
  s.aluResult p rd (norValue (s.reg rs) (shortImm c rot))

/-- NOR with a shifted register (R103). -/
def execNorS (p : Pred) (amt : BitVec 5) (shf : ShiftKind) (rt rd rs : RegNum) (s : State) : Host.Outcome State Fault Refusal :=
  s.aluResult p rd (norValue (s.reg rs) (s.shifted rt shf amt))

/-- NOR with a long immediate (R103). -/
def execNorL (p : Pred) (rd rs : RegNum) (lim : Word) (s : State) : Host.Outcome State Fault Refusal :=
  s.aluResult p rd (norValue (s.reg rs) lim)

/-- OR with a short immediate (R104). -/
def execOrI (p : Pred) (c : BitVec 10) (rot : BitVec 4) (rd rs : RegNum) (s : State) : Host.Outcome State Fault Refusal :=
  s.aluResult p rd (orValue (s.reg rs) (shortImm c rot))

/-- OR with a shifted register (R104). -/
def execOrS (p : Pred) (amt : BitVec 5) (shf : ShiftKind) (rt rd rs : RegNum) (s : State) : Host.Outcome State Fault Refusal :=
  s.aluResult p rd (orValue (s.reg rs) (s.shifted rt shf amt))

/-- OR with a long immediate (R104). -/
def execOrL (p : Pred) (rd rs : RegNum) (lim : Word) (s : State) : Host.Outcome State Fault Refusal :=
  s.aluResult p rd (orValue (s.reg rs) lim)

/-- SUB with a short immediate (R105). -/
def execSubI (p : Pred) (c : BitVec 10) (rot : BitVec 4) (rd rs : RegNum) (s : State) : Host.Outcome State Fault Refusal :=
  s.aluResult p rd (subValue (s.reg rs) (shortImm c rot))

/-- SUB with a shifted register (R105). -/
def execSubS (p : Pred) (amt : BitVec 5) (shf : ShiftKind) (rt rd rs : RegNum) (s : State) : Host.Outcome State Fault Refusal :=
  s.aluResult p rd (subValue (s.reg rs) (s.shifted rt shf amt))

/-- SUB with a long immediate (R105). -/
def execSubL (p : Pred) (rd rs : RegNum) (lim : Word) (s : State) : Host.Outcome State Fault Refusal :=
  s.aluResult p rd (subValue (s.reg rs) lim)

/-- RSB with a short immediate (R106). -/
def execRsbI (p : Pred) (c : BitVec 10) (rot : BitVec 4) (rd rs : RegNum) (s : State) : Host.Outcome State Fault Refusal :=
  s.aluResult p rd (rsbValue (s.reg rs) (shortImm c rot))

/-- RSB with a shifted register (R106). -/
def execRsbS (p : Pred) (amt : BitVec 5) (shf : ShiftKind) (rt rd rs : RegNum) (s : State) : Host.Outcome State Fault Refusal :=
  s.aluResult p rd (rsbValue (s.reg rs) (s.shifted rt shf amt))

/-- RSB with a long immediate (R106). -/
def execRsbL (p : Pred) (rd rs : RegNum) (lim : Word) (s : State) : Host.Outcome State Fault Refusal :=
  s.aluResult p rd (rsbValue (s.reg rs) lim)

/-- XOR with a short immediate (R107). -/
def execXorI (p : Pred) (c : BitVec 10) (rot : BitVec 4) (rd rs : RegNum) (s : State) : Host.Outcome State Fault Refusal :=
  s.aluResult p rd (xorValue (s.reg rs) (shortImm c rot))

/-- XOR with a shifted register (R107). -/
def execXorS (p : Pred) (amt : BitVec 5) (shf : ShiftKind) (rt rd rs : RegNum) (s : State) : Host.Outcome State Fault Refusal :=
  s.aluResult p rd (xorValue (s.reg rs) (s.shifted rt shf amt))

/-- XOR with a long immediate (R107). -/
def execXorL (p : Pred) (rd rs : RegNum) (lim : Word) (s : State) : Host.Outcome State Fault Refusal :=
  s.aluResult p rd (xorValue (s.reg rs) lim)

end Sys2Proof.Machine
end

