-- ==== Sys2Proof/Machine/Compare.lean ====
section
/-! DEFINITION. The seven compares in their three formats (R120 to R127): each writes one predicate register. -/

namespace Sys2Proof.Machine

/-- A compare that writes `b` into P[PD] and nothing else (R120). A write to P3 is discarded where it is committed (R14). -/
def State.compareResult (s : State) (p : Pred) (pd : PredNum) (b : Bool) : Host.Outcome State Fault Refusal :=
  s.whenHolds p (.next (s.commit [.pred pd b]))

/-- CMPLTU with a short immediate (R121). -/
def execCmpltuI (p : Pred) (c : BitVec 10) (rot : BitVec 4) (pd : PredNum) (rs : RegNum) (s : State) : Host.Outcome State Fault Refusal :=
  s.compareResult p pd (isLtu (s.reg rs) (shortImm c rot))

/-- CMPLTU with a shifted register (R121). -/
def execCmpltuS (p : Pred) (amt : BitVec 5) (shf : ShiftKind) (rt : RegNum) (pd : PredNum) (rs : RegNum) (s : State) : Host.Outcome State Fault Refusal :=
  s.compareResult p pd (isLtu (s.reg rs) (s.shifted rt shf amt))

/-- CMPLTU with a long immediate (R121). -/
def execCmpltuL (p : Pred) (pd : PredNum) (rs : RegNum) (lim : Word) (s : State) : Host.Outcome State Fault Refusal :=
  s.compareResult p pd (isLtu (s.reg rs) lim)

/-- CMPLEU with a short immediate (R122). -/
def execCmpleuI (p : Pred) (c : BitVec 10) (rot : BitVec 4) (pd : PredNum) (rs : RegNum) (s : State) : Host.Outcome State Fault Refusal :=
  s.compareResult p pd (isLeu (s.reg rs) (shortImm c rot))

/-- CMPLEU with a shifted register (R122). -/
def execCmpleuS (p : Pred) (amt : BitVec 5) (shf : ShiftKind) (rt : RegNum) (pd : PredNum) (rs : RegNum) (s : State) : Host.Outcome State Fault Refusal :=
  s.compareResult p pd (isLeu (s.reg rs) (s.shifted rt shf amt))

/-- CMPLEU with a long immediate (R122). -/
def execCmpleuL (p : Pred) (pd : PredNum) (rs : RegNum) (lim : Word) (s : State) : Host.Outcome State Fault Refusal :=
  s.compareResult p pd (isLeu (s.reg rs) lim)

/-- CMPEQ with a short immediate (R123). -/
def execCmpeqI (p : Pred) (c : BitVec 10) (rot : BitVec 4) (pd : PredNum) (rs : RegNum) (s : State) : Host.Outcome State Fault Refusal :=
  s.compareResult p pd (isEq (s.reg rs) (shortImm c rot))

/-- CMPEQ with a shifted register (R123). -/
def execCmpeqS (p : Pred) (amt : BitVec 5) (shf : ShiftKind) (rt : RegNum) (pd : PredNum) (rs : RegNum) (s : State) : Host.Outcome State Fault Refusal :=
  s.compareResult p pd (isEq (s.reg rs) (s.shifted rt shf amt))

/-- CMPEQ with a long immediate (R123). -/
def execCmpeqL (p : Pred) (pd : PredNum) (rs : RegNum) (lim : Word) (s : State) : Host.Outcome State Fault Refusal :=
  s.compareResult p pd (isEq (s.reg rs) lim)

/-- CMPLTS with a short immediate (R124). -/
def execCmpltsI (p : Pred) (c : BitVec 10) (rot : BitVec 4) (pd : PredNum) (rs : RegNum) (s : State) : Host.Outcome State Fault Refusal :=
  s.compareResult p pd (isLts (s.reg rs) (shortImm c rot))

/-- CMPLTS with a shifted register (R124). -/
def execCmpltsS (p : Pred) (amt : BitVec 5) (shf : ShiftKind) (rt : RegNum) (pd : PredNum) (rs : RegNum) (s : State) : Host.Outcome State Fault Refusal :=
  s.compareResult p pd (isLts (s.reg rs) (s.shifted rt shf amt))

/-- CMPLTS with a long immediate (R124). -/
def execCmpltsL (p : Pred) (pd : PredNum) (rs : RegNum) (lim : Word) (s : State) : Host.Outcome State Fault Refusal :=
  s.compareResult p pd (isLts (s.reg rs) lim)

/-- CMPLES with a short immediate (R125). -/
def execCmplesI (p : Pred) (c : BitVec 10) (rot : BitVec 4) (pd : PredNum) (rs : RegNum) (s : State) : Host.Outcome State Fault Refusal :=
  s.compareResult p pd (isLes (s.reg rs) (shortImm c rot))

/-- CMPLES with a shifted register (R125). -/
def execCmplesS (p : Pred) (amt : BitVec 5) (shf : ShiftKind) (rt : RegNum) (pd : PredNum) (rs : RegNum) (s : State) : Host.Outcome State Fault Refusal :=
  s.compareResult p pd (isLes (s.reg rs) (s.shifted rt shf amt))

/-- CMPLES with a long immediate (R125). -/
def execCmplesL (p : Pred) (pd : PredNum) (rs : RegNum) (lim : Word) (s : State) : Host.Outcome State Fault Refusal :=
  s.compareResult p pd (isLes (s.reg rs) lim)

/-- CMPBS with a short immediate (R126). -/
def execCmpbsI (p : Pred) (c : BitVec 10) (rot : BitVec 4) (pd : PredNum) (rs : RegNum) (s : State) : Host.Outcome State Fault Refusal :=
  s.compareResult p pd (anyBitSet (s.reg rs) (shortImm c rot))

/-- CMPBS with a shifted register (R126). -/
def execCmpbsS (p : Pred) (amt : BitVec 5) (shf : ShiftKind) (rt : RegNum) (pd : PredNum) (rs : RegNum) (s : State) : Host.Outcome State Fault Refusal :=
  s.compareResult p pd (anyBitSet (s.reg rs) (s.shifted rt shf amt))

/-- CMPBS with a long immediate (R126). -/
def execCmpbsL (p : Pred) (pd : PredNum) (rs : RegNum) (lim : Word) (s : State) : Host.Outcome State Fault Refusal :=
  s.compareResult p pd (anyBitSet (s.reg rs) lim)

/-- CMPBC with a short immediate (R127). -/
def execCmpbcI (p : Pred) (c : BitVec 10) (rot : BitVec 4) (pd : PredNum) (rs : RegNum) (s : State) : Host.Outcome State Fault Refusal :=
  s.compareResult p pd (anyBitClear (s.reg rs) (shortImm c rot))

/-- CMPBC with a shifted register (R127). -/
def execCmpbcS (p : Pred) (amt : BitVec 5) (shf : ShiftKind) (rt : RegNum) (pd : PredNum) (rs : RegNum) (s : State) : Host.Outcome State Fault Refusal :=
  s.compareResult p pd (anyBitClear (s.reg rs) (s.shifted rt shf amt))

/-- CMPBC with a long immediate (R127). -/
def execCmpbcL (p : Pred) (pd : PredNum) (rs : RegNum) (lim : Word) (s : State) : Host.Outcome State Fault Refusal :=
  s.compareResult p pd (anyBitClear (s.reg rs) lim)

end Sys2Proof.Machine
end

