-- ==== Sys2Proof/Machine/Move.lean ====
section
/-! DEFINITION. The four one-source ALU instructions in their four formats (R140 to R144): the shift comes first, the
operation second. -/

namespace Sys2Proof.Machine

/-- MOV: the operand itself (R141). -/
def movValue (a : Word) : Word := a

/-- MVN: the operand inverted (R142). -/
def mvnValue (a : Word) : Word := ~~~a

/-- SXB: the low byte sign-extended (R143). -/
def sxbValue (a : Word) : Word := (a.setWidth 8).signExtend 32

/-- SXH: the low two bytes sign-extended (R144). -/
def sxhValue (a : Word) : Word := (a.setWidth 16).signExtend 32

/-- MOV with a short immediate (R141). -/
def execMovI (p : Pred) (c : BitVec 15) (rot : BitVec 4) (rd : RegNum) (s : State) : Host.Outcome State Fault Refusal :=
  s.aluResult p rd (movValue (shortImm c rot))

/-- MOV with a shifted register (R141). -/
def execMovS (p : Pred) (amt : BitVec 5) (shf : ShiftKind) (rd rs : RegNum) (s : State) : Host.Outcome State Fault Refusal :=
  s.aluResult p rd (movValue (s.shifted rs shf amt))

/-- MOV with a register shifted by a register (R141). -/
def execMovR (p : Pred) (shf : ShiftKind) (rt rd rs : RegNum) (s : State) : Host.Outcome State Fault Refusal :=
  s.aluResult p rd (movValue (s.shiftedByReg rd rs shf rt))

/-- MOV with a long immediate (R141). -/
def execMovL (p : Pred) (rd : RegNum) (lim : Word) (s : State) : Host.Outcome State Fault Refusal :=
  s.aluResult p rd (movValue lim)

/-- MVN with a short immediate (R142). -/
def execMvnI (p : Pred) (c : BitVec 15) (rot : BitVec 4) (rd : RegNum) (s : State) : Host.Outcome State Fault Refusal :=
  s.aluResult p rd (mvnValue (shortImm c rot))

/-- MVN with a shifted register (R142). -/
def execMvnS (p : Pred) (amt : BitVec 5) (shf : ShiftKind) (rd rs : RegNum) (s : State) : Host.Outcome State Fault Refusal :=
  s.aluResult p rd (mvnValue (s.shifted rs shf amt))

/-- MVN with a register shifted by a register (R142). -/
def execMvnR (p : Pred) (shf : ShiftKind) (rt rd rs : RegNum) (s : State) : Host.Outcome State Fault Refusal :=
  s.aluResult p rd (mvnValue (s.shiftedByReg rd rs shf rt))

/-- MVN with a long immediate (R142). -/
def execMvnL (p : Pred) (rd : RegNum) (lim : Word) (s : State) : Host.Outcome State Fault Refusal :=
  s.aluResult p rd (mvnValue lim)

/-- SXB with a short immediate (R143). -/
def execSxbI (p : Pred) (c : BitVec 15) (rot : BitVec 4) (rd : RegNum) (s : State) : Host.Outcome State Fault Refusal :=
  s.aluResult p rd (sxbValue (shortImm c rot))

/-- SXB with a shifted register (R143). -/
def execSxbS (p : Pred) (amt : BitVec 5) (shf : ShiftKind) (rd rs : RegNum) (s : State) : Host.Outcome State Fault Refusal :=
  s.aluResult p rd (sxbValue (s.shifted rs shf amt))

/-- SXB with a register shifted by a register (R143). -/
def execSxbR (p : Pred) (shf : ShiftKind) (rt rd rs : RegNum) (s : State) : Host.Outcome State Fault Refusal :=
  s.aluResult p rd (sxbValue (s.shiftedByReg rd rs shf rt))

/-- SXB with a long immediate (R143). -/
def execSxbL (p : Pred) (rd : RegNum) (lim : Word) (s : State) : Host.Outcome State Fault Refusal :=
  s.aluResult p rd (sxbValue lim)

/-- SXH with a short immediate (R144). -/
def execSxhI (p : Pred) (c : BitVec 15) (rot : BitVec 4) (rd : RegNum) (s : State) : Host.Outcome State Fault Refusal :=
  s.aluResult p rd (sxhValue (shortImm c rot))

/-- SXH with a shifted register (R144). -/
def execSxhS (p : Pred) (amt : BitVec 5) (shf : ShiftKind) (rd rs : RegNum) (s : State) : Host.Outcome State Fault Refusal :=
  s.aluResult p rd (sxhValue (s.shifted rs shf amt))

/-- SXH with a register shifted by a register (R144). -/
def execSxhR (p : Pred) (shf : ShiftKind) (rt rd rs : RegNum) (s : State) : Host.Outcome State Fault Refusal :=
  s.aluResult p rd (sxhValue (s.shiftedByReg rd rs shf rt))

/-- SXH with a long immediate (R144). -/
def execSxhL (p : Pred) (rd : RegNum) (lim : Word) (s : State) : Host.Outcome State Fault Refusal :=
  s.aluResult p rd (sxhValue lim)

end Sys2Proof.Machine
end

