-- ==== Sys2Proof/Machine/Branch.lean ====
section
/-! DEFINITION. B and BL (R160 to R164). Both are slot 0 instructions, so their address is the packet's, `pc`. -/

namespace Sys2Proof.Machine

/-- B: control to the target when the packet commits (R161). -/
def State.branchTo (s : State) (p : Pred) (target : Word) : Host.Outcome State Fault Refusal :=
  s.whenHolds p (.next (s.commit [.jump target]))

/-- BL: as B, and R31 gets the address of the BL's own packet (R162). -/
def State.branchLink (s : State) (p : Pred) (target : Word) : Host.Outcome State Fault Refusal :=
  s.whenHolds p (.next (s.commit [.reg 31 s.pc, .jump target]))

/-- B, pc-relative (R161, R73). -/
def execBP (p : Pred) (off : BitVec 25) (s : State) : Host.Outcome State Fault Refusal :=
  s.branchTo p (branchTarget s.pc off)

/-- B from a base register (R161, R74). -/
def execBR (p : Pred) (off : BitVec 20) (rs : RegNum) (s : State) : Host.Outcome State Fault Refusal :=
  s.branchTo p (branchTarget (s.reg rs) off)

/-- BL, pc-relative (R162, R73). -/
def execBlP (p : Pred) (off : BitVec 25) (s : State) : Host.Outcome State Fault Refusal :=
  s.branchLink p (branchTarget s.pc off)

/-- BL from a base register (R162, R74). -/
def execBlR (p : Pred) (off : BitVec 20) (rs : RegNum) (s : State) : Host.Outcome State Fault Refusal :=
  s.branchLink p (branchTarget (s.reg rs) off)

end Sys2Proof.Machine
end

