-- ==== Sys2Proof/Machine/LoadStore.lean ====
section
/-! DEFINITION. Loads and stores (R170 to R178). The low address bits that the width does not allow are dropped (R34). -/

namespace Sys2Proof.Machine

/-- A load of `n` bytes at virtual address `va` into `rd`, zero-extended; `more` is what it does besides (R171 to R174). -/
def State.loadInto (s : State) (p : Pred) (rd : RegNum) (va : Word) (n : Nat) (more : List Effect) :
    Host.Outcome State Fault Refusal :=
  s.whenHolds p (s.accessData .load va n fun pa => [.load pa n, .reg rd (s.mem.load pa n)] ++ more)

/-- A store of the low `n` bytes of `v` at virtual address `va`; `more` is what it does besides (R175 to R178). -/
def State.storeAt (s : State) (p : Pred) (v : Word) (va : Word) (n : Nat) (more : List Effect) :
    Host.Outcome State Fault Refusal :=
  s.whenHolds p (s.accessData .store va n fun pa => [.store pa (bytesOf n v)] ++ more)

/-- LB: one byte (R171). -/
def execLb (p : Pred) (off : BitVec 12) (rd rs : RegNum) (s : State) : Host.Outcome State Fault Refusal :=
  s.loadInto p rd (s.effAddr rs off) 1 []

/-- LH: two bytes, bit 0 of the address cleared (R172). -/
def execLh (p : Pred) (off : BitVec 12) (rd rs : RegNum) (s : State) : Host.Outcome State Fault Refusal :=
  s.loadInto p rd (align2 (s.effAddr rs off)) 2 []

/-- LW: a word, bits 1:0 of the address cleared (R173). -/
def execLw (p : Pred) (off : BitVec 12) (rd rs : RegNum) (s : State) : Host.Outcome State Fault Refusal :=
  s.loadInto p rd (align4 (s.effAddr rs off)) 4 []

/-- LL: as LW, and the link bit is set (R174). -/
def execLl (p : Pred) (off : BitVec 12) (rd rs : RegNum) (s : State) : Host.Outcome State Fault Refusal :=
  s.loadInto p rd (align4 (s.effAddr rs off)) 4 [.link true]

/-- SB: the low byte (R175). -/
def execSb (p : Pred) (off : BitVec 11) (rt rs : RegNum) (s : State) : Host.Outcome State Fault Refusal :=
  s.storeAt p (s.reg rt) (s.effAddr rs off) 1 []

/-- SH: the low two bytes, bit 0 of the address cleared (R176). -/
def execSh (p : Pred) (off : BitVec 11) (rt rs : RegNum) (s : State) : Host.Outcome State Fault Refusal :=
  s.storeAt p (s.reg rt) (align2 (s.effAddr rs off)) 2 []

/-- SW: a word, bits 1:0 of the address cleared (R177). -/
def execSw (p : Pred) (off : BitVec 11) (rt rs : RegNum) (s : State) : Host.Outcome State Fault Refusal :=
  s.storeAt p (s.reg rt) (align4 (s.effAddr rs off)) 4 []

/-- SC: with the link bit set, store the word and write 1 to P0; else write 0 to P0 with no access, so no page fault. The
link bit is cleared either way (R178). -/
def execSc (p : Pred) (off : BitVec 11) (rt rs : RegNum) (s : State) : Host.Outcome State Fault Refusal :=
  if s.link then s.storeAt p (s.reg rt) (align4 (s.effAddr rs off)) 4 [.pred 0 true, .link false]
  else s.whenHolds p (.next (s.commit [.pred 0 false, .link false]))

end Sys2Proof.Machine
end

