-- ==== Sys2Proof/Machine/MulDiv.lean ====
section
/-! DEFINITION. Multiply, divide and the overflow register `hi` (R190 to R194). -/

namespace Sys2Proof.Machine

/-- The 64-bit product of two words read as unsigned (R190). -/
def unsignedProduct (a b : Word) : BitVec 64 := BitVec.ofNat 64 (a.toNat * b.toNat)

/-- The 64-bit product of two words read as two's complement (R191). -/
def signedProduct (a b : Word) : BitVec 64 := BitVec.ofInt 64 (a.toInt * b.toInt)

/-- A multiplication: the low word of the product into `rd`, the high word into `hi` (R190). -/
def State.product (s : State) (p : Pred) (rd : RegNum) (prod : BitVec 64) : Host.Outcome State Fault Refusal :=
  s.whenHolds p (.next (s.commit [.reg rd (prod.extractLsb' 0 32), .hi (prod.extractLsb' 32 32)]))

/-- MULT (R190). -/
def execMult (p : Pred) (rt rd rs : RegNum) (s : State) : Host.Outcome State Fault Refusal :=
  s.product p rd (unsignedProduct (s.reg rs) (s.reg rt))

/-- MULTS (R191). -/
def execMults (p : Pred) (rt rd rs : RegNum) (s : State) : Host.Outcome State Fault Refusal :=
  s.product p rd (signedProduct (s.reg rs) (s.reg rt))

/-- DIV_SIGNED (R2, R192, D13; log 17): the spec's default is unsigned division. -/
def divSigned : Bool := false

/-- The spec states no result: division by 0, and in the signed reading -2^31 by -1 (R192, U6). -/
def divOpen (n d : Word) : Bool := d == 0 || (divSigned && n == 0x80000000 && d == 0xFFFFFFFF)

/-- The quotient of DIV, a free value where the spec states none (R192). -/
def State.quotient (s : State) (n d : Word) : Word :=
  if divOpen n d then Config.divByZeroQuotient s.tick n
  else if divSigned then BitVec.ofInt 32 (n.toInt.tdiv d.toInt)
  else BitVec.ofNat 32 (n.toNat / d.toNat)

/-- The remainder of DIV, a free value where the spec states none (R192). -/
def State.remainder (s : State) (n d : Word) : Word :=
  if divOpen n d then Config.divByZeroRemainder s.tick n
  else if divSigned then BitVec.ofInt 32 (n.toInt.tmod d.toInt)
  else BitVec.ofNat 32 (n.toNat % d.toNat)

/-- DIV: the quotient into `rd`, the remainder into `hi`, no exception (R192). -/
def execDiv (p : Pred) (rt rd rs : RegNum) (s : State) : Host.Outcome State Fault Refusal :=
  s.whenHolds p (.next (s.commit
    [.reg rd (s.quotient (s.reg rs) (s.reg rt)), .hi (s.remainder (s.reg rs) (s.reg rt))]))

/-- MFHI (R193). -/
def execMfhi (p : Pred) (rd : RegNum) (s : State) : Host.Outcome State Fault Refusal :=
  s.whenHolds p (.next (s.commit [.reg rd s.hi]))

/-- MTHI (R194). -/
def execMthi (p : Pred) (rs : RegNum) (s : State) : Host.Outcome State Fault Refusal :=
  s.whenHolds p (.next (s.commit [.hi (s.reg rs)]))

end Sys2Proof.Machine
end

