-- ==== Sys2Proof/Machine/System.lean ====
section
/-! DEFINITION. The system instructions (R200 to R206). -/

namespace Sys2Proof.Machine

/-- An instruction that may only be used in kernel mode: in user mode, when its predicate holds, it raises
IllegalInstruction (R203, R205, R206, R221, D17; log 21). -/
def State.kernelOnly (s : State) (p : Pred) (executed : Host.Outcome State Fault Refusal) :
    Host.Outcome State Fault Refusal :=
  s.whenHolds p (match s.mode with
    | .user => .next (s.enterTrap .illegalInstruction)
    | .kernel => executed)

/-- BREAK raises Break (R200, R224). -/
def execBrk (p : Pred) (s : State) : Host.Outcome State Fault Refusal :=
  s.whenHolds p (.next (s.enterTrap .brk))

/-- SYSCALL raises Syscall (R201, R223). -/
def execSyscall (p : Pred) (s : State) : Host.Outcome State Fault Refusal :=
  s.whenHolds p (.next (s.enterTrap .syscall))

/-- FENCE: every access is ordered already, so no effect (R202, R43). -/
def execFence (p : Pred) (s : State) : Host.Outcome State Fault Refusal :=
  s.whenHolds p (.next (s.commit []))

/-- ERET: the return from an exception; an Error PC that is not a multiple of 16 is refused (R203, D27). -/
def execEret (p : Pred) (s : State) : Host.Outcome State Fault Refusal :=
  s.kernelOnly p (if s.epc.extractLsb' 0 4 = 0 then .next (s.commit s.returnEffects) else .refused .eretTarget)

/-- The kind of access whose page fault a cache FLUSH takes; the TLB targets take none (R204, R39). -/
def flushAccess : FlushTarget → Option Access
  | .data => some .load
  | .inst => some .fetch
  | .dtlb => none
  | .itlb => none

/-- FLUSH, in both modes: of a cache, the line of the address in RS, or the page fault of that address; of a TLB, no effect on
any state the model holds (R204, R46, D35). -/
def execFlush (p : Pred) (target : FlushTarget) (rs : RegNum) (s : State) : Host.Outcome State Fault Refusal :=
  s.whenHolds p (match flushAccess target with
    | none => .next (s.commit [])
    | some k =>
      match s.translate k (s.reg rs) with
      | none => .next (s.enterTrap (.pageFault (s.reg rs)))
      | some pa => .next (s.commit [.flush target pa]))

/-- Coprocessor register `n` is in CPR_MAP (R18). -/
def Params.hasCpr (c : Params) (n : CprNum) : Bool := c.cprMap.getLsbD n.toNat

/-- MFC (R205): Error PC at the number CPR_EPC, a register of CPR_MAP, else refused. -/
def execMfc (p : Pred) (rd : RegNum) (cprs : CprNum) (s : State) : Host.Outcome State Fault Refusal :=
  s.kernelOnly p
    (if cprs = s.params.cprEpc then .next (s.commit [.reg rd s.epc])
    else if s.params.hasCpr cprs then .next (s.commit [.reg rd (s.cprAt cprs)])
    else .refused (.coprocessorRegister cprs))

/-- MTC (R206): Error PC at the number CPR_EPC, a register of CPR_MAP, else refused. -/
def execMtc (p : Pred) (cprd : CprNum) (rs : RegNum) (s : State) : Host.Outcome State Fault Refusal :=
  s.kernelOnly p
    (if cprd = s.params.cprEpc then .next (s.commit [.epc (s.reg rs)])
    else if s.params.hasCpr cprd then .next (s.commit [.cpr cprd (s.reg rs)])
    else .refused (.coprocessorRegister cprd))

end Sys2Proof.Machine
end

