-- ==== Sys2Proof/Machine/Dispatch.lean ====
section
/-! DEFINITION. One arm per constructor: each is one direct call of that instruction's meaning. -/

namespace Sys2Proof.Machine

def exec (i : Instr) (s : State) : Host.Outcome State Fault Refusal :=
  match i with
  | .addI p c rot rd rs => Sys2Proof.Machine.execAddI p c rot rd rs s
  | .addS p amt shf rt rd rs => Sys2Proof.Machine.execAddS p amt shf rt rd rs s
  | .addL p rd rs lim => Sys2Proof.Machine.execAddL p rd rs lim s
  | .andI p c rot rd rs => Sys2Proof.Machine.execAndI p c rot rd rs s
  | .andS p amt shf rt rd rs => Sys2Proof.Machine.execAndS p amt shf rt rd rs s
  | .andL p rd rs lim => Sys2Proof.Machine.execAndL p rd rs lim s
  | .norI p c rot rd rs => Sys2Proof.Machine.execNorI p c rot rd rs s
  | .norS p amt shf rt rd rs => Sys2Proof.Machine.execNorS p amt shf rt rd rs s
  | .norL p rd rs lim => Sys2Proof.Machine.execNorL p rd rs lim s
  | .orI p c rot rd rs => Sys2Proof.Machine.execOrI p c rot rd rs s
  | .orS p amt shf rt rd rs => Sys2Proof.Machine.execOrS p amt shf rt rd rs s
  | .orL p rd rs lim => Sys2Proof.Machine.execOrL p rd rs lim s
  | .subI p c rot rd rs => Sys2Proof.Machine.execSubI p c rot rd rs s
  | .subS p amt shf rt rd rs => Sys2Proof.Machine.execSubS p amt shf rt rd rs s
  | .subL p rd rs lim => Sys2Proof.Machine.execSubL p rd rs lim s
  | .rsbI p c rot rd rs => Sys2Proof.Machine.execRsbI p c rot rd rs s
  | .rsbS p amt shf rt rd rs => Sys2Proof.Machine.execRsbS p amt shf rt rd rs s
  | .rsbL p rd rs lim => Sys2Proof.Machine.execRsbL p rd rs lim s
  | .xorI p c rot rd rs => Sys2Proof.Machine.execXorI p c rot rd rs s
  | .xorS p amt shf rt rd rs => Sys2Proof.Machine.execXorS p amt shf rt rd rs s
  | .xorL p rd rs lim => Sys2Proof.Machine.execXorL p rd rs lim s
  | .cmpltuI p c rot pd rs => Sys2Proof.Machine.execCmpltuI p c rot pd rs s
  | .cmpltuS p amt shf rt pd rs => Sys2Proof.Machine.execCmpltuS p amt shf rt pd rs s
  | .cmpltuL p pd rs lim => Sys2Proof.Machine.execCmpltuL p pd rs lim s
  | .cmpleuI p c rot pd rs => Sys2Proof.Machine.execCmpleuI p c rot pd rs s
  | .cmpleuS p amt shf rt pd rs => Sys2Proof.Machine.execCmpleuS p amt shf rt pd rs s
  | .cmpleuL p pd rs lim => Sys2Proof.Machine.execCmpleuL p pd rs lim s
  | .cmpeqI p c rot pd rs => Sys2Proof.Machine.execCmpeqI p c rot pd rs s
  | .cmpeqS p amt shf rt pd rs => Sys2Proof.Machine.execCmpeqS p amt shf rt pd rs s
  | .cmpeqL p pd rs lim => Sys2Proof.Machine.execCmpeqL p pd rs lim s
  | .cmpltsI p c rot pd rs => Sys2Proof.Machine.execCmpltsI p c rot pd rs s
  | .cmpltsS p amt shf rt pd rs => Sys2Proof.Machine.execCmpltsS p amt shf rt pd rs s
  | .cmpltsL p pd rs lim => Sys2Proof.Machine.execCmpltsL p pd rs lim s
  | .cmplesI p c rot pd rs => Sys2Proof.Machine.execCmplesI p c rot pd rs s
  | .cmplesS p amt shf rt pd rs => Sys2Proof.Machine.execCmplesS p amt shf rt pd rs s
  | .cmplesL p pd rs lim => Sys2Proof.Machine.execCmplesL p pd rs lim s
  | .cmpbsI p c rot pd rs => Sys2Proof.Machine.execCmpbsI p c rot pd rs s
  | .cmpbsS p amt shf rt pd rs => Sys2Proof.Machine.execCmpbsS p amt shf rt pd rs s
  | .cmpbsL p pd rs lim => Sys2Proof.Machine.execCmpbsL p pd rs lim s
  | .cmpbcI p c rot pd rs => Sys2Proof.Machine.execCmpbcI p c rot pd rs s
  | .cmpbcS p amt shf rt pd rs => Sys2Proof.Machine.execCmpbcS p amt shf rt pd rs s
  | .cmpbcL p pd rs lim => Sys2Proof.Machine.execCmpbcL p pd rs lim s
  | .movI p c rot rd => Sys2Proof.Machine.execMovI p c rot rd s
  | .movS p amt shf rd rs => Sys2Proof.Machine.execMovS p amt shf rd rs s
  | .movR p shf rt rd rs => Sys2Proof.Machine.execMovR p shf rt rd rs s
  | .movL p rd lim => Sys2Proof.Machine.execMovL p rd lim s
  | .mvnI p c rot rd => Sys2Proof.Machine.execMvnI p c rot rd s
  | .mvnS p amt shf rd rs => Sys2Proof.Machine.execMvnS p amt shf rd rs s
  | .mvnR p shf rt rd rs => Sys2Proof.Machine.execMvnR p shf rt rd rs s
  | .mvnL p rd lim => Sys2Proof.Machine.execMvnL p rd lim s
  | .sxbI p c rot rd => Sys2Proof.Machine.execSxbI p c rot rd s
  | .sxbS p amt shf rd rs => Sys2Proof.Machine.execSxbS p amt shf rd rs s
  | .sxbR p shf rt rd rs => Sys2Proof.Machine.execSxbR p shf rt rd rs s
  | .sxbL p rd lim => Sys2Proof.Machine.execSxbL p rd lim s
  | .sxhI p c rot rd => Sys2Proof.Machine.execSxhI p c rot rd s
  | .sxhS p amt shf rd rs => Sys2Proof.Machine.execSxhS p amt shf rd rs s
  | .sxhR p shf rt rd rs => Sys2Proof.Machine.execSxhR p shf rt rd rs s
  | .sxhL p rd lim => Sys2Proof.Machine.execSxhL p rd lim s
  | .bP p off => Sys2Proof.Machine.execBP p off s
  | .bR p off rs => Sys2Proof.Machine.execBR p off rs s
  | .blP p off => Sys2Proof.Machine.execBlP p off s
  | .blR p off rs => Sys2Proof.Machine.execBlR p off rs s
  | .lb p off rd rs => Sys2Proof.Machine.execLb p off rd rs s
  | .lh p off rd rs => Sys2Proof.Machine.execLh p off rd rs s
  | .lw p off rd rs => Sys2Proof.Machine.execLw p off rd rs s
  | .ll p off rd rs => Sys2Proof.Machine.execLl p off rd rs s
  | .sb p off rt rs => Sys2Proof.Machine.execSb p off rt rs s
  | .sh p off rt rs => Sys2Proof.Machine.execSh p off rt rs s
  | .sw p off rt rs => Sys2Proof.Machine.execSw p off rt rs s
  | .sc p off rt rs => Sys2Proof.Machine.execSc p off rt rs s
  | .brk p => Sys2Proof.Machine.execBrk p s
  | .syscall p => Sys2Proof.Machine.execSyscall p s
  | .fence p => Sys2Proof.Machine.execFence p s
  | .eret p => Sys2Proof.Machine.execEret p s
  | .flush p target rs => Sys2Proof.Machine.execFlush p target rs s
  | .mfc p rd cprs => Sys2Proof.Machine.execMfc p rd cprs s
  | .mtc p cprd rs => Sys2Proof.Machine.execMtc p cprd rs s
  | .mult p rt rd rs => Sys2Proof.Machine.execMult p rt rd rs s
  | .mults p rt rd rs => Sys2Proof.Machine.execMults p rt rd rs s
  | .div p rt rd rs => Sys2Proof.Machine.execDiv p rt rd rs s
  | .mfhi p rd => Sys2Proof.Machine.execMfhi p rd s
  | .mthi p rs => Sys2Proof.Machine.execMthi p rs s

end Sys2Proof.Machine
end

