-- ==== Sys2Proof/Machine/Packet.lean ====
section
/-! DEFINITION. Running a packet: fetch, decode, evaluate every slot on the state before the packet, then take the selected
trap or commit all writes together (R86, R90, R226, R228); and placing an instruction where the next step fetches. -/

namespace Sys2Proof.Machine

/-! ## Evaluating the slots -/

/-- What an instruction collected: `exec` reports it in its next state; one that stops collected nothing. -/
def collectedBy : Host.Outcome State Fault Refusal → List Effect
  | .next t => t.collected
  | .fault _ => []
  | .refused _ => []

/-- An instruction's outcome is a stop of the model. -/
def isStop : Host.Outcome State Fault Refusal → Bool
  | .next _ => false
  | .fault _ => true
  | .refused _ => true

/-- The cause of the first trap among the effects: slots collect in order, so the lowest slot's (R226). -/
def firstTrap : List Effect → Option Cause
  | [] => none
  | .trap c :: _ => some c
  | _ :: es => firstTrap es

/-- Run the instructions of one packet. Each is executed alone on the state before the packet, which gives what it collects
(R90, D2). If one raises an exception, the lowest slot's trap is taken and nothing is committed (R226, R228; log 20); else
the lowest slot's stop stops the machine; else a write conflict is refused (R92); else everything is committed together. -/
def runPacket (is : List Instr) (s : State) : Host.Outcome State Fault Refusal :=
  let outcomes := is.map fun i => exec i s
  let es := outcomes.flatMap collectedBy
  match firstTrap es with
  | some c => .next (s.enterTrap c)
  | none =>
    match outcomes.find? isStop with
    | some stop => stop
    | none => if conflictFree es then .next (s.commit es) else .refused .writeConflict

/-! ## Fetching and the step -/

/-- What fetching a packet gives. -/
inductive Fetched where
  | words (ws : List Word)
  | pageFault
  | unbacked (pa : Word)
  | stale
  deriving DecidableEq, Repr

/-- The instruction word at physical address `pa`, little-endian whatever the data byte order (R31). -/
def Memory.fetchWord (m : Memory) (pa : Word) : Word :=
  wordOfBytes (m.read pa.toNat) (m.read (pa + 1).toNat) (m.read (pa + 2).toNat) (m.read (pa + 3).toNat)

/-- Fetch the four words of the packet at the pc (R31, R33, R60); a byte whose store is not flushed may not be fetched
(R45). -/
def State.fetch (s : State) : Fetched :=
  match s.reach .fetch s.pc 16 with
  | .pageFault => .pageFault
  | .unbacked pa => .unbacked pa
  | .memory pa =>
    if s.marks.anyMarked pa 16 then .stale
    else .words [s.mem.fetchWord pa, s.mem.fetchWord (pa + 4), s.mem.fetchWord (pa + 8), s.mem.fetchWord (pa + 12)]

/-- Decode and run four fetched words: an illegal packet raises IllegalInstruction before any of its instructions has effect
(R86, R221); a store word with M set is refused (R76). -/
def runWords (ws : List Word) (s : State) : Host.Outcome State Fault Refusal :=
  match decodePacket ws with
  | .ok is => runPacket is s
  | .error .storeM => .refused .storeMBit
  | .error _ => .next (s.enterTrap .illegalInstruction)

/-- One step (R90): an interrupt dispatched now is taken before the fetch (R225); else the packet at the pc is fetched,
decoded and run. -/
def stepPacket (s : State) : Host.Outcome State Fault Refusal :=
  let s' := { s with irqs := s.irqs.tail }
  if s.irqs.headD false then .next (s'.enterTrap .interrupt)
  else
    match s'.fetch with
    | .pageFault => .next (s'.enterTrap (.pageFault s.pc))
    | .unbacked pa => .fault (.unbackedAddress pa)
    | .stale => .refused .staleFetch
    | .words ws => runWords ws s'

/-! ## Placing an instruction for the next step -/

/-- The packet that runs one instruction alone: its word or words in the first slots, NOP in the others (R85). -/
def packetOf (nbits w : Nat) : List Word :=
  let ws := tableWords nbits w
  if isLongWord ws.1 then [ws.1, ws.2, nopWord, nopWord] else [ws.1, nopWord, nopWord, nopWord]

/-- The fetch of the packet at the pc reaches memory: where it would page-fault, an entry that maps the page to itself is
put first; holes over the sixteen bytes are filled. -/
def State.mapPc (s : State) : State :=
  let pages :=
    match s.translate .fetch s.pc with
    | some _ => s.params.pages
    | none => ⟨s.mode, .fetch, s.pc.extractLsb' 12 20, some (s.pc.extractLsb' 12 20)⟩ :: s.params.pages
  let s' := { s with params := { s.params with pages := pages } }
  let pa := (s'.translate .fetch s.pc).getD s.pc
  let holes := s.params.memHoles.filter fun h => h.2 ≤ pa.toNat || pa.toNat + 16 ≤ h.1
  { s' with params := { s'.params with memHoles := holes } }

/-- No interrupt is dispatched before the next step. -/
def quietNext : List Bool → List Bool
  | true :: l => false :: l
  | l => l

/-- Store four words where the next step fetches its packet, as if the environment had loaded them (log 34): the sixteen
bytes carry no mark of a store. -/
def State.placePacket (s : State) (ws : List Word) : State :=
  let s' := s.mapPc
  let pa := (s'.translate .fetch s.pc).getD s.pc
  { s' with
    mem := s.mem.writeBytes pa (ws.flatMap bytesOfWord)
    marks := s.marks.clear pa 16
    irqs := quietNext s.irqs }

end Sys2Proof.Machine
end

