-- ==== Sys2Proof/Machine/Step.lean ====
section
/-! DEFINITION. The step of the machine, and the host's way to place one instruction before it. -/

namespace Sys2Proof.Machine

/-- One step executes one packet (R90). -/
def step (s : State) : Host.Outcome State Fault Refusal := stepPacket s

/-- `s` with the instruction whose `nbits` bits are `w` stored where `step` fetches, NOP in the packet's other slots
(log 34). -/
def State.withFetchWord (s : State) (nbits w : Nat) : State := s.placePacket (packetOf nbits w)

end Sys2Proof.Machine
end

