-- ==== Sys2Proof/Safety.lean ====
section
/-! DEFINITION. What a legal state is: the facts that hold at reset and that every step keeps; and what a safe run is. -/

namespace Sys2Proof.Machine

/-- A legal state: the pc is a multiple of 16 (R12), memory and the marks of unflushed stores are in canonical form. -/
structure State.Legal (s : State) : Prop where
  pcAligned : s.pc.extractLsb' 0 4 = 0
  memWf : s.mem.wf
  marksWf : s.marks.wf

/-- `k` steps from `s` all answer a next state. -/
def State.safeFor (s : State) : Nat → Bool
  | 0 => true
  | k + 1 =>
    match step s with
    | .next t => t.safeFor k
    | .fault _ => false
    | .refused _ => false

end Sys2Proof.Machine
end

