-- ==== Sys2Proof/Certificates/Slice0/Obligations.lean ====
section
/-! DEFINITION. The statements about the machine, for the provers; and the next states they name, written out in full. -/

open Sys2Proof Sys2Proof.Machine

namespace Sys2Proof.Machine

/-! ## Next states, written out. What a record update does not name is unchanged. -/

/-- The packet after `s` is reached and nothing else happens; `es` is what the model reports. -/
def State.passed (s : State) (es : List Effect) : State :=
  { s with pc := s.pc + 16, tick := s.tick + 1, collected := es }

/-- Only general register `rd` is written. -/
def State.wroteReg (s : State) (rd : RegNum) (v : Word) (es : List Effect) : State :=
  { s with
    regs := s.regs.set rd.toNat v rd.isLt
    pc := s.pc + 16
    tick := s.tick + 1
    collected := es }

/-- Only predicate register `pd` is written, and nothing where it is P3. -/
def State.wrotePred (s : State) (pd : PredNum) (b : Bool) : State :=
  { s with
    p0 := if pd = 0 then b else s.p0
    p1 := if pd = 1 then b else s.p1
    p2 := if pd = 2 then b else s.p2
    pc := s.pc + 16
    tick := s.tick + 1
    collected := [.pred pd b] }

/-- Only general register `rd` and `hi` are written. -/
def State.wroteRegHi (s : State) (rd : RegNum) (v h : Word) : State :=
  { s with
    regs := s.regs.set rd.toNat v rd.isLt
    hi := h
    pc := s.pc + 16
    tick := s.tick + 1
    collected := [.reg rd v, .hi h] }

/-- A trap was taken from `s` (R227): Error PC holds the packet's address, kernel mode, link bit 0, the pc at the handler. -/
def State.trapped (s : State) (c : Cause) : State :=
  { s with
    epc := s.pc
    mode := .kernel
    link := false
    pc := s.params.excHandler ++ 0#4
    tick := s.tick + 1
    collected := [.trap c] }

/-- The low `n` bytes of `v` were stored from physical address `pa` on, little-endian, and marked; every other byte reads as
before and keeps its mark. -/
def Stored (s t : State) (pa : Word) (n : Nat) (v : Word) : Prop :=
  (∀ k, k < n → t.mem.read (pa.toNat + k) = v.extractLsb' (8 * k) 8) ∧
  (∀ a, a < pa.toNat ∨ pa.toNat + n ≤ a → t.mem.read a = s.mem.read a) ∧
  (∀ k, k < n → assocGet t.marks (pa.toNat + k) = some .stored) ∧
  (∀ a, a < pa.toNat ∨ pa.toNat + n ≤ a → assocGet t.marks a = assocGet s.marks a)

/-- What a step answers, with the coprocessor registers and Error PC forgotten. -/
def publicPart : Host.Outcome State Fault Refusal → Host.Outcome State Fault Refusal
  | .next t => .next { t with epc := 0, cpr := Vector.replicate 32 0 }
  | .fault f => .fault f
  | .refused r => .refused r

/-- The instructions of the packet that the next step runs: the fetched words, decoded. -/
def StepRuns (s : State) (is : List Instr) : Prop :=
  ∃ ws, State.fetch { s with irqs := s.irqs.tail } = .words ws ∧ decodePacket ws = .ok is

/-- Two effects of different instructions write the same place, or touch a common byte that one of them stores (R42, R92). -/
def SamePlace (e f : Effect) : Prop :=
  (∃ r v v', e = .reg r v ∧ f = .reg r v') ∨
  (∃ n b b', n ≠ 3 ∧ e = .pred n b ∧ f = .pred n b') ∨
  (∃ v v', e = .hi v ∧ f = .hi v') ∨
  (∃ b b', e = .link b ∧ f = .link b') ∨
  (∃ pa pb bs cs a, e = .store pa bs ∧ f = .store pb cs ∧
    pa.toNat ≤ a ∧ a < pa.toNat + bs.length ∧ pb.toNat ≤ a ∧ a < pb.toNat + cs.length) ∨
  (∃ pa pb bs n a, e = .store pa bs ∧ f = .load pb n ∧
    pa.toNat ≤ a ∧ a < pa.toNat + bs.length ∧ pb.toNat ≤ a ∧ a < pb.toNat + n) ∨
  (∃ pa pb n cs a, e = .load pa n ∧ f = .store pb cs ∧
    pa.toNat ≤ a ∧ a < pa.toNat + n ∧ pb.toNat ≤ a ∧ a < pb.toNat + cs.length)

/-- An instruction alone on `s` collects `es` and raises no exception. -/
def CollectsAlone (i : Instr) (s : State) (es : List Effect) : Prop :=
  exec i s = .next (s.commit es) ∧ ∀ c, Effect.trap c ∉ es

/-- The 21 forms of the seven compares with one set of operands. -/
def compareForms (p : Pred) (c : BitVec 10) (rot : BitVec 4) (amt : BitVec 5) (shf : ShiftKind) (rt : RegNum)
    (pd : PredNum) (rs : RegNum) (lim : Word) : List Instr :=
  [.cmpltuI p c rot pd rs, .cmpltuS p amt shf rt pd rs, .cmpltuL p pd rs lim,
   .cmpleuI p c rot pd rs, .cmpleuS p amt shf rt pd rs, .cmpleuL p pd rs lim,
   .cmpeqI p c rot pd rs, .cmpeqS p amt shf rt pd rs, .cmpeqL p pd rs lim,
   .cmpltsI p c rot pd rs, .cmpltsS p amt shf rt pd rs, .cmpltsL p pd rs lim,
   .cmplesI p c rot pd rs, .cmplesS p amt shf rt pd rs, .cmplesL p pd rs lim,
   .cmpbsI p c rot pd rs, .cmpbsS p amt shf rt pd rs, .cmpbsL p pd rs lim,
   .cmpbcI p c rot pd rs, .cmpbcS p amt shf rt pd rs, .cmpbcL p pd rs lim]

end Sys2Proof.Machine

/-- R22, R262: reset. Kernel mode is the spec's decision D23 (log 24), no interrupt D22 (log 8), the identity D26 (log 6). -/
def Obligations.ResetIsLegalInKernelMode : Prop :=
  State.reset.Legal ∧ State.reset.mode = .kernel ∧ State.reset.pred 3 = true ∧ State.reset.irqs = [] ∧
    ∀ m k va, State.translate { State.reset with mode := m } k va = some va

/-- R14: P3 is always 1, and writes to it are ignored. -/
def Obligations.PredicateThreeIsPinnedToOne : Prop :=
  (∀ s : State, s.pred 3 = true) ∧
  (∀ (s : State) (b : Bool), s.setPred 3 b = s) ∧
  (∀ s : State, s.holds ⟨3, false⟩ = true) ∧
  (∀ (i : Instr) (s : State), i.pred = ⟨3, true⟩ → exec i s = .next (s.passed [])) ∧
  (∀ p c rot amt shf rt rs lim (s : State), s.holds p = true →
    ∀ i ∈ compareForms p c rot amt shf rt 3 rs lim, ∃ b, exec i s = .next (s.passed [.pred 3 b]))

/-- R61: an instruction that does not execute writes no state, performs no memory access and raises no exception. -/
def Obligations.FalsePredicateHasNoEffect : Prop :=
  (∀ (p : Pred) (s : State), s.holds p = true ↔ (s.pred p.sel = true ∧ p.inv = false) ∨ (s.pred p.sel = false ∧ p.inv = true)) ∧
  ∀ (i : Instr) (s : State), s.holds i.pred = false → exec i s = .next (s.passed [])

/-- R101, R105, R106. That overflow raises nothing is the spec's decision D14 (log 18). -/
def Obligations.ArithmeticWritesTheWrappedResult : Prop :=
  ∀ (s : State) p c rot amt shf rt rd rs (lim : Word), s.holds p = true →
    (let v := s.reg rs + (shortImm c rot); exec (.addI p c rot rd rs) s = .next (s.wroteReg rd v [.reg rd v])) ∧
    (let v := s.reg rs + (shift (s.reg rt) shf amt.toNat); exec (.addS p amt shf rt rd rs) s = .next (s.wroteReg rd v [.reg rd v])) ∧
    (let v := s.reg rs + lim; exec (.addL p rd rs lim) s = .next (s.wroteReg rd v [.reg rd v])) ∧
    (let v := s.reg rs - (shortImm c rot); exec (.subI p c rot rd rs) s = .next (s.wroteReg rd v [.reg rd v])) ∧
    (let v := s.reg rs - (shift (s.reg rt) shf amt.toNat); exec (.subS p amt shf rt rd rs) s = .next (s.wroteReg rd v [.reg rd v])) ∧
    (let v := s.reg rs - lim; exec (.subL p rd rs lim) s = .next (s.wroteReg rd v [.reg rd v])) ∧
    (let v := (shortImm c rot) - s.reg rs; exec (.rsbI p c rot rd rs) s = .next (s.wroteReg rd v [.reg rd v])) ∧
    (let v := (shift (s.reg rt) shf amt.toNat) - s.reg rs; exec (.rsbS p amt shf rt rd rs) s = .next (s.wroteReg rd v [.reg rd v])) ∧
    (let v := lim - s.reg rs; exec (.rsbL p rd rs lim) s = .next (s.wroteReg rd v [.reg rd v]))

/-- R102, R103, R104, R107. -/
def Obligations.LogicWritesTheBitwiseResult : Prop :=
  ∀ (s : State) p c rot amt shf rt rd rs (lim : Word), s.holds p = true →
    (let v := s.reg rs &&& (shortImm c rot); exec (.andI p c rot rd rs) s = .next (s.wroteReg rd v [.reg rd v])) ∧
    (let v := s.reg rs &&& (shift (s.reg rt) shf amt.toNat); exec (.andS p amt shf rt rd rs) s = .next (s.wroteReg rd v [.reg rd v])) ∧
    (let v := s.reg rs &&& lim; exec (.andL p rd rs lim) s = .next (s.wroteReg rd v [.reg rd v])) ∧
    (let v := ~~~(s.reg rs ||| (shortImm c rot)); exec (.norI p c rot rd rs) s = .next (s.wroteReg rd v [.reg rd v])) ∧
    (let v := ~~~(s.reg rs ||| (shift (s.reg rt) shf amt.toNat)); exec (.norS p amt shf rt rd rs) s = .next (s.wroteReg rd v [.reg rd v])) ∧
    (let v := ~~~(s.reg rs ||| lim); exec (.norL p rd rs lim) s = .next (s.wroteReg rd v [.reg rd v])) ∧
    (let v := s.reg rs ||| (shortImm c rot); exec (.orI p c rot rd rs) s = .next (s.wroteReg rd v [.reg rd v])) ∧
    (let v := s.reg rs ||| (shift (s.reg rt) shf amt.toNat); exec (.orS p amt shf rt rd rs) s = .next (s.wroteReg rd v [.reg rd v])) ∧
    (let v := s.reg rs ||| lim; exec (.orL p rd rs lim) s = .next (s.wroteReg rd v [.reg rd v])) ∧
    (let v := s.reg rs ^^^ (shortImm c rot); exec (.xorI p c rot rd rs) s = .next (s.wroteReg rd v [.reg rd v])) ∧
    (let v := s.reg rs ^^^ (shift (s.reg rt) shf amt.toNat); exec (.xorS p amt shf rt rd rs) s = .next (s.wroteReg rd v [.reg rd v])) ∧
    (let v := s.reg rs ^^^ lim; exec (.xorL p rd rs lim) s = .next (s.wroteReg rd v [.reg rd v]))

/-- R121, R122, R123. -/
def Obligations.UnsignedComparesWriteThePredicate : Prop :=
  ∀ (s : State) p c rot amt shf rt pd rs (lim : Word), s.holds p = true →
    (exec (.cmpltuI p c rot pd rs) s = .next (s.wrotePred pd (decide ((s.reg rs).toNat < BitVec.toNat (shortImm c rot))))) ∧
    (exec (.cmpltuS p amt shf rt pd rs) s = .next (s.wrotePred pd (decide ((s.reg rs).toNat < BitVec.toNat (shift (s.reg rt) shf amt.toNat))))) ∧
    (exec (.cmpltuL p pd rs lim) s = .next (s.wrotePred pd (decide ((s.reg rs).toNat < BitVec.toNat lim)))) ∧
    (exec (.cmpleuI p c rot pd rs) s = .next (s.wrotePred pd (decide ((s.reg rs).toNat ≤ BitVec.toNat (shortImm c rot))))) ∧
    (exec (.cmpleuS p amt shf rt pd rs) s = .next (s.wrotePred pd (decide ((s.reg rs).toNat ≤ BitVec.toNat (shift (s.reg rt) shf amt.toNat))))) ∧
    (exec (.cmpleuL p pd rs lim) s = .next (s.wrotePred pd (decide ((s.reg rs).toNat ≤ BitVec.toNat lim)))) ∧
    (exec (.cmpeqI p c rot pd rs) s = .next (s.wrotePred pd (decide (s.reg rs = (shortImm c rot))))) ∧
    (exec (.cmpeqS p amt shf rt pd rs) s = .next (s.wrotePred pd (decide (s.reg rs = (shift (s.reg rt) shf amt.toNat))))) ∧
    (exec (.cmpeqL p pd rs lim) s = .next (s.wrotePred pd (decide (s.reg rs = lim))))

/-- R124, R125. -/
def Obligations.SignedComparesWriteThePredicate : Prop :=
  ∀ (s : State) p c rot amt shf rt pd rs (lim : Word), s.holds p = true →
    (exec (.cmpltsI p c rot pd rs) s = .next (s.wrotePred pd (decide ((s.reg rs).toInt < BitVec.toInt (shortImm c rot))))) ∧
    (exec (.cmpltsS p amt shf rt pd rs) s = .next (s.wrotePred pd (decide ((s.reg rs).toInt < BitVec.toInt (shift (s.reg rt) shf amt.toNat))))) ∧
    (exec (.cmpltsL p pd rs lim) s = .next (s.wrotePred pd (decide ((s.reg rs).toInt < BitVec.toInt lim)))) ∧
    (exec (.cmplesI p c rot pd rs) s = .next (s.wrotePred pd (decide ((s.reg rs).toInt ≤ BitVec.toInt (shortImm c rot))))) ∧
    (exec (.cmplesS p amt shf rt pd rs) s = .next (s.wrotePred pd (decide ((s.reg rs).toInt ≤ BitVec.toInt (shift (s.reg rt) shf amt.toNat))))) ∧
    (exec (.cmplesL p pd rs lim) s = .next (s.wrotePred pd (decide ((s.reg rs).toInt ≤ BitVec.toInt lim))))

/-- R126: the unary OR of the bits in (Rs & OP2). -/
def Obligations.CmpbsTestsForASetBit : Prop :=
  ∀ (s : State) p c rot amt shf rt pd rs (lim : Word), s.holds p = true →
    ∃ bI bS bL : Bool,
    ((bI = true ↔ ∃ k, (s.reg rs).getLsbD k = true ∧ (shortImm c rot).getLsbD k = true) ∧ exec (.cmpbsI p c rot pd rs) s = .next (s.wrotePred pd bI)) ∧
    ((bS = true ↔ ∃ k, (s.reg rs).getLsbD k = true ∧ (shift (s.reg rt) shf amt.toNat).getLsbD k = true) ∧
      exec (.cmpbsS p amt shf rt pd rs) s = .next (s.wrotePred pd bS)) ∧
    ((bL = true ↔ ∃ k, (s.reg rs).getLsbD k = true ∧ lim.getLsbD k = true) ∧ exec (.cmpbsL p pd rs lim) s = .next (s.wrotePred pd bL))

/-- R127, the formula, by the spec's decision D36 (C3, log 33). -/
def Obligations.CmpbcTestsForAClearBit : Prop :=
  ∀ (s : State) p c rot amt shf rt pd rs (lim : Word), s.holds p = true →
    ∃ bI bS bL : Bool,
    ((bI = true ↔ ∃ k, (s.reg rs).getLsbD k = false ∧ (shortImm c rot).getLsbD k = true) ∧ exec (.cmpbcI p c rot pd rs) s = .next (s.wrotePred pd bI)) ∧
    ((bS = true ↔ ∃ k, (s.reg rs).getLsbD k = false ∧ (shift (s.reg rt) shf amt.toNat).getLsbD k = true) ∧
      exec (.cmpbcS p amt shf rt pd rs) s = .next (s.wrotePred pd bS)) ∧
    ((bL = true ↔ ∃ k, (s.reg rs).getLsbD k = false ∧ lim.getLsbD k = true) ∧ exec (.cmpbcL p pd rs lim) s = .next (s.wrotePred pd bL))

/-- R141, R142, on the operand of R140. A register amount of 32 or more gives the model's free value for REG_SHIFT_WIDE, OPEN in
the spec (R80, D8): its arguments are the model's choice (log 12, DESIGN CHOICE). -/
def Obligations.MovesWriteTheOperand : Prop :=
  ∀ (s : State) p (c : BitVec 15) rot amt shf rt rd rs (lim : Word), s.holds p = true →
    (let v := ((shortImm c rot) : Word); exec (.movI p c rot rd) s = .next (s.wroteReg rd v [.reg rd v])) ∧
    (let v := ((shift (s.reg rs) shf amt.toNat) : Word); exec (.movS p amt shf rd rs) s = .next (s.wroteReg rd v [.reg rd v])) ∧
    (let v := ((if (s.reg rt).toNat ≤ 31 then shift (s.reg rs) shf (s.reg rt).toNat
      else Config.regShiftWide s.tick rd shf.bits (s.reg rs) (s.reg rt)) : Word); exec (.movR p shf rt rd rs) s = .next (s.wroteReg rd v [.reg rd v])) ∧
    (let v := (lim : Word); exec (.movL p rd lim) s = .next (s.wroteReg rd v [.reg rd v])) ∧
    (let v := ~~~((shortImm c rot) : Word); exec (.mvnI p c rot rd) s = .next (s.wroteReg rd v [.reg rd v])) ∧
    (let v := ~~~((shift (s.reg rs) shf amt.toNat) : Word); exec (.mvnS p amt shf rd rs) s = .next (s.wroteReg rd v [.reg rd v])) ∧
    (let v := ~~~((if (s.reg rt).toNat ≤ 31 then shift (s.reg rs) shf (s.reg rt).toNat
      else Config.regShiftWide s.tick rd shf.bits (s.reg rs) (s.reg rt)) : Word); exec (.mvnR p shf rt rd rs) s = .next (s.wroteReg rd v [.reg rd v])) ∧
    (let v := ~~~(lim : Word); exec (.mvnL p rd lim) s = .next (s.wroteReg rd v [.reg rd v]))

/-- R143, R144, on the operand of R140. A register amount of 32 or more gives the model's free value for REG_SHIFT_WIDE, OPEN in
the spec (R80, D8): its arguments are the model's choice (log 12, DESIGN CHOICE). -/
def Obligations.SignExtensionsKeepTheSignedValue : Prop :=
  ∀ (s : State) p (c : BitVec 15) rot amt shf rt rd rs (lim : Word), s.holds p = true →
    ∀ oR : Word, oR = (if (s.reg rt).toNat ≤ 31 then shift (s.reg rs) shf (s.reg rt).toNat
      else Config.regShiftWide s.tick rd shf.bits (s.reg rs) (s.reg rt)) →
    (∃ v : Word, v.toInt = (BitVec.setWidth 8 (shortImm c rot)).toInt ∧ exec (.sxbI p c rot rd) s = .next (s.wroteReg rd v [.reg rd v])) ∧
    (∃ v : Word, v.toInt = (BitVec.setWidth 8 (shift (s.reg rs) shf amt.toNat)).toInt ∧ exec (.sxbS p amt shf rd rs) s = .next (s.wroteReg rd v [.reg rd v])) ∧
    (∃ v : Word, v.toInt = (BitVec.setWidth 8 oR).toInt ∧ exec (.sxbR p shf rt rd rs) s = .next (s.wroteReg rd v [.reg rd v])) ∧
    (∃ v : Word, v.toInt = (BitVec.setWidth 8 lim).toInt ∧ exec (.sxbL p rd lim) s = .next (s.wroteReg rd v [.reg rd v])) ∧
    (∃ v : Word, v.toInt = (BitVec.setWidth 16 (shortImm c rot)).toInt ∧ exec (.sxhI p c rot rd) s = .next (s.wroteReg rd v [.reg rd v])) ∧
    (∃ v : Word, v.toInt = (BitVec.setWidth 16 (shift (s.reg rs) shf amt.toNat)).toInt ∧ exec (.sxhS p amt shf rd rs) s = .next (s.wroteReg rd v [.reg rd v])) ∧
    (∃ v : Word, v.toInt = (BitVec.setWidth 16 oR).toInt ∧ exec (.sxhR p shf rt rd rs) s = .next (s.wroteReg rd v [.reg rd v])) ∧
    (∃ v : Word, v.toInt = (BitVec.setWidth 16 lim).toInt ∧ exec (.sxhL p rd lim) s = .next (s.wroteReg rd v [.reg rd v]))

/-- R160, R161. The wrap-around is the spec's decision D28 (log 28). -/
def Obligations.BranchOnlyMovesThePc : Prop :=
  ∀ (s : State) p (off : BitVec 25) (off' : BitVec 20) rs, s.holds p = true →
    (let a := (s.pc + (off.signExtend 32 <<< 4)) &&& 0xFFFFFFF0;
      exec (.bP p off) s = .next { s with pc := a, tick := s.tick + 1, collected := [.jump a] }) ∧
    (let a := (s.reg rs + (off'.signExtend 32 <<< 4)) &&& 0xFFFFFFF0;
      exec (.bR p off' rs) s = .next { s with pc := a, tick := s.tick + 1, collected := [.jump a] })

/-- R162; the wrap-around of the target is the spec's decision D28 (log 28). -/
def Obligations.BranchWithLinkSavesItsOwnAddress : Prop :=
  ∀ (s : State) p (off : BitVec 25) (off' : BitVec 20) rs, s.holds p = true →
    (let a := (s.pc + (off.signExtend 32 <<< 4)) &&& 0xFFFFFFF0;
      exec (.blP p off) s = .next
        { s with regs := s.regs.set 31 s.pc, pc := a, tick := s.tick + 1, collected := [.reg 31 s.pc, .jump a] }) ∧
    (let a := (s.reg rs + (off'.signExtend 32 <<< 4)) &&& 0xFFFFFFF0;
      exec (.blR p off' rs) s = .next
        { s with regs := s.regs.set 31 s.pc, pc := a, tick := s.tick + 1, collected := [.reg 31 s.pc, .jump a] })

/-- R160; the wrap-around is the spec's decision D28 (log 28). -/
def Obligations.BranchTargetCountsPackets : Prop :=
  (∀ (base : Word) (off : BitVec 20),
    (branchTarget base off).toNat = 16 * (((base.toNat : Int) + 16 * off.toInt) % 2 ^ 32 / 16).toNat) ∧
  (∀ (base : Word) (off : BitVec 25),
    (branchTarget base off).toNat = 16 * (((base.toNat : Int) + 16 * off.toInt) % 2 ^ 32 / 16).toNat) ∧
  (∀ (base : Word) (off : BitVec 20), base.toNat % 16 = 0 → branchTarget base off = base + BitVec.ofInt 32 (16 * off.toInt)) ∧
  (∀ (base : Word) (off : BitVec 25), base.toNat % 16 = 0 → branchTarget base off = base + BitVec.ofInt 32 (16 * off.toInt))

/-- R171. -/
def Obligations.LoadByteZeroExtends : Prop :=
  ∀ (s : State) p (off : BitVec 12) rd rs pa, s.holds p = true →
    s.translate .load (s.reg rs + off.signExtend 32) = some pa → s.backed pa 1 = true →
    let v : Word := 0#24 ++ s.mem.read pa.toNat
    exec (.lb p off rd rs) s = .next (s.wroteReg rd v [.load pa 1, .reg rd v])

/-- R172, R173, R174 with R34. The byte order is the spec's decision D1 (log 9). -/
def Obligations.WideLoadsReadLittleEndian : Prop :=
  ∀ (s : State) p (off : BitVec 12) rd rs pa, s.holds p = true →
    (s.translate .load ((s.reg rs + off.signExtend 32) &&& 0xFFFFFFFE) = some pa → s.backed pa 2 = true →
      let v : Word := 0#16 ++ s.mem.read (pa.toNat + 1) ++ s.mem.read pa.toNat
      exec (.lh p off rd rs) s = .next (s.wroteReg rd v [.load pa 2, .reg rd v])) ∧
    (s.translate .load ((s.reg rs + off.signExtend 32) &&& 0xFFFFFFFC) = some pa → s.backed pa 4 = true →
      let v : Word := s.mem.read (pa.toNat + 3) ++ s.mem.read (pa.toNat + 2) ++ s.mem.read (pa.toNat + 1) ++ s.mem.read pa.toNat
      exec (.lw p off rd rs) s = .next (s.wroteReg rd v [.load pa 4, .reg rd v]) ∧
      exec (.ll p off rd rs) s = .next { s.wroteReg rd v [.load pa 4, .reg rd v, .link true] with link := true })

/-- R175. The mark is the bookkeeping of R45 (log 26). -/
def Obligations.StoreByteWritesOneByte : Prop :=
  ∀ (s : State) p (off : BitVec 11) rt rs pa, s.Legal → s.holds p = true →
    s.translate .store (s.reg rs + off.signExtend 32) = some pa → s.backed pa 1 = true →
    ∃ t, exec (.sb p off rt rs) s = .next t ∧ Stored s t pa 1 (s.reg rt) ∧
      t = { s.passed t.collected with mem := t.mem, marks := t.marks }

/-- R176, R177 with R34. The byte order is the spec's decision D1 (R32, log 9). The marks are the model's own bookkeeping for
R45 (log 26, DESIGN CHOICE). -/
def Obligations.WideStoresWriteTheAlignedBytes : Prop :=
  ∀ (s : State) p (off : BitVec 11) rt rs pa, s.Legal → s.holds p = true →
    (s.translate .store ((s.reg rs + off.signExtend 32) &&& 0xFFFFFFFE) = some pa → s.backed pa 2 = true →
      ∃ t, exec (.sh p off rt rs) s = .next t ∧ Stored s t pa 2 (s.reg rt) ∧
        t = { s.passed t.collected with mem := t.mem, marks := t.marks }) ∧
    (s.translate .store ((s.reg rs + off.signExtend 32) &&& 0xFFFFFFFC) = some pa → s.backed pa 4 = true →
      ∃ t, exec (.sw p off rt rs) s = .next t ∧ Stored s t pa 4 (s.reg rt) ∧
        t = { s.passed t.collected with mem := t.mem, marks := t.marks })

/-- R178 with R34. That a failing SC takes no page fault is the spec's decision D26 (log 38). The byte order is its decision D1
(R32, log 9). The marks are the model's own bookkeeping for R45 (log 26, DESIGN CHOICE). -/
def Obligations.StoreConditionalNeedsTheLinkBit : Prop :=
  ∀ (s : State) p (off : BitVec 11) rt rs, s.holds p = true →
    (∀ pa, s.Legal → s.link = true →
      s.translate .store ((s.reg rs + off.signExtend 32) &&& 0xFFFFFFFC) = some pa → s.backed pa 4 = true →
      ∃ t, exec (.sc p off rt rs) s = .next t ∧ Stored s t pa 4 (s.reg rt) ∧
        t = { s.passed t.collected with mem := t.mem, marks := t.marks, p0 := true, link := false }) ∧
    (s.link = false →
      exec (.sc p off rt rs) s = .next { s.passed [.pred 0 false, .link false] with p0 := false, link := false })

/-- R222, R227; trap entry is the spec's decision D15 (log 19). -/
def Obligations.DataPageFaultsTrap : Prop :=
  ∀ (s : State) p (off : BitVec 12) (off' : BitVec 11) rd rt rs, s.holds p = true →
    let ld : Word := s.reg rs + off.signExtend 32
    let st : Word := s.reg rs + off'.signExtend 32
    (s.translate .load ld = none → exec (.lb p off rd rs) s = .next (s.trapped (.pageFault ld))) ∧
    (s.translate .load (ld &&& 0xFFFFFFFE) = none →
      exec (.lh p off rd rs) s = .next (s.trapped (.pageFault (ld &&& 0xFFFFFFFE)))) ∧
    (s.translate .load (ld &&& 0xFFFFFFFC) = none →
      exec (.lw p off rd rs) s = .next (s.trapped (.pageFault (ld &&& 0xFFFFFFFC))) ∧
      exec (.ll p off rd rs) s = .next (s.trapped (.pageFault (ld &&& 0xFFFFFFFC)))) ∧
    (s.translate .store st = none → exec (.sb p off' rt rs) s = .next (s.trapped (.pageFault st))) ∧
    (s.translate .store (st &&& 0xFFFFFFFE) = none →
      exec (.sh p off' rt rs) s = .next (s.trapped (.pageFault (st &&& 0xFFFFFFFE)))) ∧
    (s.translate .store (st &&& 0xFFFFFFFC) = none →
      exec (.sw p off' rt rs) s = .next (s.trapped (.pageFault (st &&& 0xFFFFFFFC))) ∧
      (s.link = true → exec (.sc p off' rt rs) s = .next (s.trapped (.pageFault (st &&& 0xFFFFFFFC)))))

/-- R33, U13: the stop is the spec's (log 7). -/
def Obligations.UnbackedDataAccessStops : Prop :=
  ∀ (s : State) p (off : BitVec 12) (off' : BitVec 11) rd rt rs pa, s.holds p = true →
    let ld : Word := s.reg rs + off.signExtend 32
    let st : Word := s.reg rs + off'.signExtend 32
    (s.translate .load ld = some pa → s.backed pa 1 = false → exec (.lb p off rd rs) s = .fault (.unbackedAddress pa)) ∧
    (s.translate .load (ld &&& 0xFFFFFFFE) = some pa → s.backed pa 2 = false →
      exec (.lh p off rd rs) s = .fault (.unbackedAddress pa)) ∧
    (s.translate .load (ld &&& 0xFFFFFFFC) = some pa → s.backed pa 4 = false →
      exec (.lw p off rd rs) s = .fault (.unbackedAddress pa) ∧ exec (.ll p off rd rs) s = .fault (.unbackedAddress pa)) ∧
    (s.translate .store st = some pa → s.backed pa 1 = false → exec (.sb p off' rt rs) s = .fault (.unbackedAddress pa)) ∧
    (s.translate .store (st &&& 0xFFFFFFFE) = some pa → s.backed pa 2 = false →
      exec (.sh p off' rt rs) s = .fault (.unbackedAddress pa)) ∧
    (s.translate .store (st &&& 0xFFFFFFFC) = some pa → s.backed pa 4 = false →
      exec (.sw p off' rt rs) s = .fault (.unbackedAddress pa) ∧
      (s.link = true → exec (.sc p off' rt rs) s = .fault (.unbackedAddress pa)))

/-- R190. -/
def Obligations.UnsignedProductFillsRdAndHi : Prop :=
  ∀ (s : State) p rt rd rs, s.holds p = true →
    ∃ v h : Word, v.toNat + 2 ^ 32 * h.toNat = (s.reg rs).toNat * (s.reg rt).toNat ∧
      exec (.mult p rt rd rs) s = .next (s.wroteRegHi rd v h)

/-- R191. -/
def Obligations.SignedProductFillsRdAndHi : Prop :=
  ∀ (s : State) p rt rd rs, s.holds p = true →
    ∃ v h : Word, (v.toNat : Int) + 2 ^ 32 * h.toInt = (s.reg rs).toInt * (s.reg rt).toInt ∧
      exec (.mults p rt rd rs) s = .next (s.wroteRegHi rd v h)

/-- R192; unsigned division is the spec's decision D13 (log 17). -/
def Obligations.DivisionGivesQuotientAndRemainder : Prop :=
  ∀ (s : State) p rt rd rs, s.holds p = true →
    ∃ q r : Word, exec (.div p rt rd rs) s = .next (s.wroteRegHi rd q r) ∧
      (s.reg rt ≠ 0 → (s.reg rs).toNat = (s.reg rt).toNat * q.toNat + r.toNat ∧ r.toNat < (s.reg rt).toNat)

/-- R193, R194. -/
def Obligations.HiMovesToAndFromRegisters : Prop :=
  ∀ (s : State) p rd rs, s.holds p = true →
    exec (.mfhi p rd) s = .next (s.wroteReg rd s.hi [.reg rd s.hi]) ∧
    exec (.mthi p rs) s = .next { s.passed [.hi (s.reg rs)] with hi := s.reg rs }

/-- R200, R201, R227; by the spec's decisions D15, D19 (logs 19, 23). -/
def Obligations.BreakAndSyscallTakeTheirTraps : Prop :=
  ∀ (s : State) p, s.holds p = true →
    exec (.brk p) s = .next (s.trapped .brk) ∧ exec (.syscall p) s = .next (s.trapped .syscall)

/-- R202, R204; FENCE by the spec's decision D20 (log 23). -/
def Obligations.FenceAndTlbFlushOnlyPass : Prop :=
  ∀ (s : State) p rs, s.holds p = true →
    exec (.fence p) s = .next (s.passed []) ∧
    exec (.flush p .dtlb rs) s = .next (s.passed []) ∧
    exec (.flush p .itlb rs) s = .next (s.passed [])

/-- R204 with the bookkeeping of R45. The addressed word as the line is the model's choice (log 26). -/
def Obligations.CacheFlushOnlyMovesMarks : Prop :=
  ∀ (s : State) p rs, s.holds p = true →
    (s.translate .load (s.reg rs) = none → exec (.flush p .data rs) s = .next (s.trapped (.pageFault (s.reg rs)))) ∧
    (s.translate .fetch (s.reg rs) = none → exec (.flush p .inst rs) s = .next (s.trapped (.pageFault (s.reg rs)))) ∧
    (∀ pa, s.Legal → s.translate .load (s.reg rs) = some pa →
      ∃ t, exec (.flush p .data rs) s = .next t ∧ t = { s.passed t.collected with marks := t.marks } ∧
        ∀ a, assocGet t.marks a =
          if a / 4 = pa.toNat / 4 ∧ assocGet s.marks a = some .stored then some .dataFlushed else assocGet s.marks a) ∧
    (∀ pa, s.Legal → s.translate .fetch (s.reg rs) = some pa →
      ∃ t, exec (.flush p .inst rs) s = .next t ∧ t = { s.passed t.collected with marks := t.marks } ∧
        ∀ a, assocGet t.marks a =
          if a / 4 = pa.toNat / 4 ∧ assocGet s.marks a = some .dataFlushed then none else assocGet s.marks a)

/-- R203, R229; by the spec's decisions D27, D34 (logs 27, 32). -/
def Obligations.EretReturnsToUserMode : Prop :=
  ∀ (s : State) p, s.holds p = true → s.mode = .kernel →
    (s.epc.toNat % 16 = 0 → exec (.eret p) s = .next
      { s with pc := s.epc, mode := .user, link := false, tick := s.tick + 1,
               collected := [.jump s.epc, .mode .user, .link false] }) ∧
    (s.epc.toNat % 16 ≠ 0 → exec (.eret p) s = .refused .eretTarget)

/-- R205, R206; the refusal is the spec's decision D21 (log 5). -/
def Obligations.CoprocessorMovesUseTheNamedRegister : Prop :=
  ∀ (s : State) p rd rs (n : CprNum), s.holds p = true → s.mode = .kernel →
    (n = s.params.cprEpc →
      exec (.mfc p rd n) s = .next (s.wroteReg rd s.epc [.reg rd s.epc]) ∧
      exec (.mtc p n rs) s = .next { s.passed [.epc (s.reg rs)] with epc := s.reg rs }) ∧
    (n ≠ s.params.cprEpc → s.params.cprMap.getLsbD n.toNat = true →
      exec (.mfc p rd n) s = .next (s.wroteReg rd (s.cpr[n.toNat]'n.isLt) [.reg rd (s.cpr[n.toNat]'n.isLt)]) ∧
      exec (.mtc p n rs) s = .next
        { s.passed [.cpr n (s.reg rs)] with cpr := s.cpr.set n.toNat (s.reg rs) n.isLt }) ∧
    (n ≠ s.params.cprEpc → s.params.cprMap.getLsbD n.toNat = false →
      exec (.mfc p rd n) s = .refused (.coprocessorRegister n) ∧ exec (.mtc p n rs) s = .refused (.coprocessorRegister n))

/-- R221, R232; by the spec's decision D17 (log 21). -/
def Obligations.PrivilegedInstructionsTrapInUserMode : Prop :=
  ∀ (s : State) p rd rs n, s.holds p = true → s.mode = .user →
    exec (.eret p) s = .next (s.trapped .illegalInstruction) ∧
    exec (.mfc p rd n) s = .next (s.trapped .illegalInstruction) ∧
    exec (.mtc p n rs) s = .next (s.trapped .illegalInstruction)

/-- R90: the step runs the fetched and decoded packet. -/
def Obligations.StepRunsTheDecodedInstruction : Prop :=
  ∀ (s : State) (i : Instr) (n : Nat), s.irqs.headD false = false → StepRuns s (i :: List.replicate n nopInstr) →
    step s = exec i { s with irqs := s.irqs.tail }

/-- R90, by the spec's decision D2 (log 36). -/
def Obligations.PacketCommitsWhatEachSlotCollects : Prop :=
  ∀ (is : List Instr) (s : State) (es : Instr → List Effect), (∀ i ∈ is, CollectsAlone i s (es i)) →
    conflictFree (is.flatMap es) = true →
    runPacket is s = .next (s.commit (is.flatMap es)) ∧
    ∀ u : State, u.irqs.headD false = false → s = { u with irqs := u.irqs.tail } → StepRuns u is →
      step u = .next (s.commit (is.flatMap es))

/-- R90: the packet { MOV R1, R2 ; MOV R2, R1 } swaps the two registers (decision D2, log 36). -/
def Obligations.PacketMatesSwapRegisters : Prop :=
  ∀ (s : State) p q (a b : RegNum), a ≠ b → s.holds p = true → s.holds q = true →
    ∃ t, runPacket [.movS p 0 .lsl a b, .movS q 0 .lsl b a] s = .next t ∧ t.reg a = s.reg b ∧ t.reg b = s.reg a ∧
      (∀ r, r ≠ a → r ≠ b → t.reg r = s.reg r) ∧ t = { s.passed t.collected with regs := t.regs }

/-- R226, R228, by the spec's decision D16. That the exception is taken although another slot stops with a fault or a refusal is
the model's choice: the spec does not rank an exception against a stop (log 20, DEDUCED). -/
def Obligations.TrappingPacketCommitsNothing : Prop :=
  ∀ (lower : List Instr) (i : Instr) (higher : List Instr) (s : State) (c : Cause),
    exec i s = .next (s.enterTrap c) →
    (∀ j ∈ lower, ∀ c', .trap c' ∉ collectedBy (exec j s)) →
    runPacket (lower ++ i :: higher) s = .next (s.trapped c)

/-- R42, R92: the refusal is the spec's (D3, log 29). -/
def Obligations.WriteConflictsAreRefused : Prop :=
  ∀ (is js ks : List Instr) (i j : Instr) (s : State) (es : Instr → List Effect),
    (∀ k ∈ is ++ i :: js ++ j :: ks, CollectsAlone k s (es k)) →
    (∃ e ∈ es i, ∃ f ∈ es j, SamePlace e f) →
    runPacket (is ++ i :: js ++ j :: ks) s = .refused .writeConflict

/-- R225, R226 (1). -/
def Obligations.ADispatchedInterruptIsTakenFirst : Prop :=
  ∀ s : State, s.irqs.headD false = true → step s = .next (State.trapped { s with irqs := s.irqs.tail } .interrupt)

/-- R221, R222, R45, R33, R76. -/
def Obligations.BadFetchesAndPacketsDoNotRun : Prop :=
  ∀ s : State, s.irqs.headD false = false →
    let s' := { s with irqs := s.irqs.tail }
    (s.translate .fetch s.pc = none → step s = .next (s'.trapped (.pageFault s.pc))) ∧
    (∀ ws e, s'.fetch = .words ws → decodePacket ws = .error e → e ≠ .storeM →
      step s = .next (s'.trapped .illegalInstruction)) ∧
    (∀ ws, s'.fetch = .words ws → decodePacket ws = .error .storeM → step s = .refused .storeMBit) ∧
    (∀ pa, s.translate .fetch s.pc = some pa → s.backed pa 16 = true → s.marks.anyMarked pa 16 = true →
      step s = .refused .staleFetch) ∧
    (∀ pa, s.translate .fetch s.pc = some pa → s.backed pa 16 = false → step s = .fault (.unbackedAddress pa))

/-- R61 to R77: the encoding loses no operand. -/
def Obligations.DecodeInvertsEncode : Prop :=
  (∀ i : Instr, decodeBytes ((encode i).flatMap bytesOfWord) = some (i, [])) ∧
  ∀ (i : Instr) (w lim : Word), encode i = [w] → decodeWord w lim = .ok i

/-- R86: packet decode. -/
def Obligations.PacketDecodeInvertsEncode : Prop :=
  ∀ is : List Instr, wellFormedPacket is = true →
    (is.flatMap encode).length = 4 ∧ decodePacket (is.flatMap encode) = .ok is

/-- R82, R86: the slot rules. -/
def Obligations.DecodedPacketsAreWellFormed : Prop :=
  ∀ (w0 w1 w2 w3 : Word) (is : List Instr), decodePacket [w0, w1, w2, w3] = .ok is → wellFormedPacket is = true

/-- R81, R86: a long immediate in the last slot. -/
def Obligations.LongImmediateInTheLastSlotIsIllegal : Prop :=
  ∀ (w0 w1 w2 w3 : Word) (is : List Instr) (i : Instr), decodePacket [w0, w1, w2, nopWord] = .ok (is ++ [nopInstr]) →
    decodeWord w3 0 = .ok i → i.slots = 2 → decodePacket [w0, w1, w2, w3] = .error .longInLastSlot

/-- R63 to R77, by the words of the rules' own examples. The SHF codes of NOR R8,R9,R10 LSR #31 and MOV R2,R3 ASR R4 are the
spec's default from general knowledge (R79, D7; log 11, PRESUMED); the TYPE code of FLUSH is R204's. -/
def Obligations.SpecWordsDecode : Prop :=
  decodeWord 0xC0140022 0 = .ok (.addI ⟨3, false⟩ 5 0 1 2) ∧
  decodeWord 0xD7EA8909 0 = .ok (.norS ⟨3, false⟩ 31 .lsr 10 8 9) ∧
  decodeWord 0xC0041FE8 0 = .ok (.cmpbcI ⟨3, false⟩ 1 0 3 8) ∧
  decodeWord 0xD0312043 0 = .ok (.movR ⟨3, false⟩ .asr 4 2 3) ∧
  decodeWord 0xDDFFFFC5 0 = .ok (.bR ⟨3, false⟩ 0xFFFFE 5) ∧
  decodeWord 0xD3FFC464 0 = .ok (.lh ⟨3, false⟩ 0xFFE 3 4) ∧
  decodeWord 0xD208D484 0 = .ok (.sh ⟨3, false⟩ 36 3 4) ∧
  decodeWord 0xD1888061 0 = .ok (.mults ⟨3, false⟩ 2 3 1) ∧
  decodeWord 0xD1400000 0 = .ok (.eret ⟨3, false⟩) ∧
  decodeWord 0xD1500C01 0 = .ok (.flush ⟨3, false⟩ .itlb 1) ∧
  decodeBytes [0xA0, 0x20, 0x00, 0xD0, 0xEF, 0xBE, 0xAD, 0xDE] = some (.movL ⟨3, false⟩ 5 0xDEADBEEF, [])

/-- R12, R35: the pc is always a multiple of 16. -/
def Obligations.StepKeepsTheStateLegal : Prop :=
  ∀ s t : State, s.Legal → step s = .next t → t.Legal

/-- R18, R231, R232: what user mode may not do. -/
def Obligations.UserModeStepsKeepPrivilegedState : Prop :=
  ∀ s t : State, s.mode = .user → step s = .next t →
    t.cpr = s.cpr ∧ t.params = s.params ∧
    ((t.mode = .user ∧ t.epc = s.epc) ∨ ∃ c, t = State.trapped { s with irqs := s.irqs.tail } c)

/-- R231: kernel is left by ERET only; user by a trap only. -/
def Obligations.ModesChangeOnlyByTrapAndEret : Prop :=
  ∀ s t : State, step s = .next t →
    (s.mode = .kernel → t.mode = .user →
      (∃ is p, StepRuns s is ∧ Instr.eret p ∈ is ∧ s.holds p = true) ∧ t.pc = s.epc ∧ t.link = false) ∧
    (s.mode = .user → t.mode = .kernel →
      ∃ c, t = State.trapped { s with irqs := s.irqs.tail } c)

/-- R23: the coprocessor registers are state a user-mode program cannot reach. -/
def Obligations.UserStepsCannotReadPrivilegedState : Prop :=
  ∀ (s : State) (e : Word) (c : Vector Word 32), s.mode = .user →
    publicPart (step { s with epc := e, cpr := c }) = publicPart (step s)

/-- R15: the writers of hi. -/
def Obligations.HiIsWrittenByFourInstructions : Prop :=
  ∀ s t : State, step s = .next t → t.hi ≠ s.hi →
    ∃ is i, StepRuns s is ∧ i ∈ is ∧ s.holds i.pred = true ∧
      ((∃ p rt rd rs, i = .mult p rt rd rs ∨ i = .mults p rt rd rs ∨ i = .div p rt rd rs) ∨ ∃ p rs, i = .mthi p rs)

/-- R16: nothing else changes the link bit. -/
def Obligations.LinkBitChangesOnlyAsStated : Prop :=
  ∀ s t : State, step s = .next t →
    (s.link = false → t.link = true →
      ∃ is p off rd rs, StepRuns s is ∧ Instr.ll p off rd rs ∈ is ∧ s.holds p = true) ∧
    (s.link = true → t.link = false →
      (∃ c, t = State.trapped { s with irqs := s.irqs.tail } c) ∨
      ∃ is i, StepRuns s is ∧ i ∈ is ∧ s.holds i.pred = true ∧ ((∃ p off rt rs, i = .sc p off rt rs) ∨ ∃ p, i = .eret p))

/-- R30: no instruction other than the stores writes memory; R45 for the mark (log 26). -/
def Obligations.MemoryChangesOnlyByStores : Prop :=
  ∀ (s t : State) (a : Nat), step s = .next t → t.mem.read a ≠ s.mem.read a →
    assocGet t.marks a = some .stored ∧
    ∃ is i, StepRuns s is ∧ i ∈ is ∧ s.holds i.pred = true ∧
      ∃ p off rt rs, i = .sb p off rt rs ∨ i = .sh p off rt rs ∨ i = .sw p off rt rs ∨ i = .sc p off rt rs

/-- R2: the parameters are fixed; the form is the model's (logs 4 to 8, 35). -/
def Obligations.NoStepChangesTheParameters : Prop :=
  ∀ s t : State, step s = .next t → t.params = s.params ∧ t.irqs = s.irqs.tail ∧ t.tick = s.tick + 1

/-- R10: no register is hardwired. -/
def Obligations.RegistersReadWhatWasWritten : Prop :=
  ∀ (s : State) (r r' : RegNum) (v : Word), (s.setReg r v).reg r' = if r' = r then v else s.reg r'

/-- R32, R41, by the spec's decision D1 (log 9). -/
def Obligations.LoadsReadTheLatestStore : Prop :=
  ∀ (m : Memory) (pa v : Word) (n : Nat), m.wf → (n = 1 ∨ n = 2 ∨ n = 4) → pa.toNat + n ≤ 2 ^ 32 →
    (m.writeBytes pa (bytesOf n v)).load pa n = BitVec.setWidth 32 (BitVec.setWidth (8 * n) v) ∧
    ∀ k : Nat, k < n → (m.writeBytes pa (bytesOf n v)).load (pa + BitVec.ofNat 32 k) 1 = 0#24 ++ v.extractLsb' (8 * k) 8

/-- R45, by the spec's decision D25 (log 26). -/
def Obligations.StoredCodeNeedsDataThenInstFlush : Prop :=
  ∀ (m : Marks) (pa : Word) (n : Nat), m.wf → 0 < n → pa.toNat % 4 + n ≤ 4 →
    let m' := m.stored pa n
    let word : Word := pa &&& 0xFFFFFFFC
    m'.anyMarked word 4 = true ∧
    (m'.flush .inst pa).anyMarked word 4 = true ∧
    (m'.flush .data pa).anyMarked word 4 = true ∧
    ((m'.flush .inst pa).flush .data pa).anyMarked word 4 = true ∧
    ((m'.flush .data pa).flush .inst pa).anyMarked word 4 = false

/-- R78, the default D6 (log 10). -/
def Obligations.ShortImmediateIsARotatedConstant : Prop :=
  (∀ (c : BitVec 10) (rot : BitVec 4) (k : Nat), k < 32 →
    (shortImm c rot).getLsbD k = (c.setWidth 32).getLsbD ((k + 2 * rot.toNat) % 32)) ∧
  (∀ (c : BitVec 15) (rot : BitVec 4) (k : Nat), k < 32 →
    (shortImm c rot).getLsbD k = (c.setWidth 32).getLsbD ((k + 2 * rot.toNat) % 32)) ∧
  (∀ c : BitVec 10, (shortImm c 0).toNat = c.toNat) ∧ ∀ c : BitVec 15, (shortImm c 0).toNat = c.toNat

/-- R80. -/
def Obligations.ShiftsMoveBitsAsNamed : Prop :=
  (∀ (v : Word) (n : Nat), n < 32 → (shift v .lsl n).toNat = v.toNat * 2 ^ n % 2 ^ 32) ∧
  (∀ (v : Word) (n : Nat), n < 32 → (shift v .lsr n).toNat = v.toNat / 2 ^ n) ∧
  (∀ (v : Word) (n : Nat), n < 32 → (shift v .asr n).toInt = v.toInt / 2 ^ n) ∧
  (∀ (v : Word) (n k : Nat), n < 32 → k < 32 → (shift v .ror n).getLsbD k = v.getLsbD ((k + n) % 32)) ∧
  (∀ (v : Word) (kind : ShiftKind), shift v kind 0 = v) ∧
  ∀ (tick : Nat) (rd : RegNum) (v m : Word) (kind : ShiftKind), m.toNat < 32 →
    shiftReg tick rd v kind m = shift v kind m.toNat

/-- The host's way to place an instruction is the model's own (log 34, DESIGN CHOICE): what it changes, where, and that the next step
runs exactly that instruction. -/
def Obligations.PlacedInstructionRunsNext : Prop :=
  ∀ (s : State) (w : Nat) (i : Instr), s.Legal → decodeTableWord 32 w = some i →
    let u := s.withFetchWord 32 w
    let pa := (s.mapPc.translate .fetch s.pc).getD s.pc
    step u = exec i { u with irqs := u.irqs.tail } ∧
    u = { s with mem := u.mem, marks := u.marks, params := u.params, irqs := u.irqs } ∧
    u.params = { s.params with pages := u.params.pages, memHoles := u.params.memHoles } ∧
    u.translate .fetch s.pc = some pa ∧
    u.mem.readBytes pa 16 = (packetOf 32 w).flatMap bytesOfWord ∧
    (∀ k : Nat, k < 16 → assocGet u.marks (pa.toNat + k) = none) ∧
    (∀ a : Nat, a < pa.toNat ∨ pa.toNat + 16 ≤ a →
      u.mem.read a = s.mem.read a ∧ assocGet u.marks a = assocGet s.marks a) ∧
    u.params.pages = (match s.translate .fetch s.pc with
      | some _ => s.params.pages
      | none => PageEntry.mk s.mode .fetch (s.pc.extractLsb' 12 20) (some (s.pc.extractLsb' 12 20)) :: s.params.pages) ∧
    u.params.memHoles = s.params.memHoles.filter (fun h => h.2 ≤ pa.toNat || pa.toNat + 16 ≤ h.1) ∧
    u.irqs = if s.irqs.headD false then false :: s.irqs.tail else s.irqs
end

