-- ==== Sys2Proof/Laws/Encoding.lean ====
section
/-! SUPPORT. What each format's encoder writes, as a number: the fields at their places (R61 to R77); and how a field of a word
is read from that number. -/

namespace Sys2Proof

/-- Concatenation as a number. -/
theorem toNat_append_eq {n m : Nat} (x : BitVec n) (y : BitVec m) : (x ++ y).toNat = x.toNat * 2 ^ m + y.toNat := by
  rw [BitVec.toNat_append, ← Nat.shiftLeft_add_eq_or_of_lt y.isLt, Nat.shiftLeft_eq]

/-- A field of a word as a number. -/
theorem toNat_field (w : Word) (lo n : Nat) : (field w lo n).toNat = w.toNat / 2 ^ lo % 2 ^ n := by
  rw [field, BitVec.extractLsb'_toNat, Nat.shiftRight_eq_div_pow]

/-- A field is known by its number. -/
theorem field_eq_of {w : Word} {lo n : Nat} {v : BitVec n} (h : w.toNat / 2 ^ lo % 2 ^ n = v.toNat) : field w lo n = v :=
  BitVec.eq_of_toNat_eq ((toNat_field w lo n).trans h)

/-- The PRED field reads back (R61). -/
theorem Pred.ofBits_bits (p : Pred) : Pred.ofBits p.bits = p := by
  obtain ⟨sel, inv⟩ := p
  match sel, inv with
  | 0#2, false | 0#2, true | 1#2, false | 1#2, true | 2#2, false | 2#2, true | 3#2, false | 3#2, true => rfl

/-- The SHF field reads back (R79). -/
theorem ShiftKind.ofBits_bits (k : ShiftKind) : ShiftKind.ofBits k.bits = k := by cases k <;> rfl

/-- The TYPE field reads back (R204). -/
theorem FlushTarget.ofBits_bits (k : FlushTarget) : FlushTarget.ofBits k.bits = k := by cases k <;> rfl

/-- At the spec's default of BRANCH_PCREL_OFFSET_BITS the whole cell 24:0 is OFFSET (R73, D9; log 13). -/
theorem branchOffset_eq (w : Word) : branchOffset w = field w 0 25 := BitVec.sshiftRight_zero

/-- At the spec's default of BRANCH_PCREL_OFFSET_BITS OFFSET fills the cell 24:0 (R73, D9; log 13). -/
theorem branchCell_eq (off : BitVec 25) : branchCell off = off := by simp [branchCell, branchPcrelOffsetBits]

/-- At the spec's default of STORE_M the bit decides (R76, D11; log 15). -/
theorem storeM_stops (w : Word) : (storeMMustBeZero && field w 13 1 == 1) = (field w 13 1 == 1) := rfl

/-- A word is its four bytes (R31). -/
theorem wordOfBytes_fields (w : Word) : wordOfBytes (field w 0 8) (field w 8 8) (field w 16 8) (field w 24 8) = w := by
  apply BitVec.eq_of_toNat_eq
  have h : (wordOfBytes (field w 0 8) (field w 8 8) (field w 16 8) (field w 24 8)).toNat =
      (((field w 24 8).toNat * 2 ^ 8 + (field w 16 8).toNat) * 2 ^ 8 + (field w 8 8).toNat) * 2 ^ 8 + (field w 0 8).toNat :=
    (toNat_append_eq _ _).trans (by rw [toNat_append_eq, toNat_append_eq])
  rw [h, toNat_field, toNat_field, toNat_field, toNat_field]
  have := w.isLt
  omega

/-- The number that format Short writes. -/
theorem toNat_encodeShort (p : Pred) (c : BitVec 10) (rot opcode : BitVec 4) (rd rs : BitVec 5) :
    (encodeShort p c rot opcode rd rs : Word).toNat = p.bits.toNat * 2 ^ 29 + c.toNat * 2 ^ 18 + rot.toNat * 2 ^ 14 + opcode.toNat * 2 ^ 10 + rd.toNat * 2 ^ 5 + rs.toNat := by
  refine (toNat_append_eq _ _).trans ?_
  simp only [toNat_append_eq, BitVec.toNat_ofNat]
  omega

/-- The number that format Shifted writes. -/
theorem toNat_encodeShifted (p : Pred) (amt : BitVec 5) (shf : ShiftKind) (rt : BitVec 5) (opcode : BitVec 4) (rd rs : BitVec 5) :
    (encodeShifted p amt shf rt opcode rd rs : Word).toNat = p.bits.toNat * 2 ^ 29 + 5 * 2 ^ 26 + amt.toNat * 2 ^ 21 + shf.bits.toNat * 2 ^ 19 + rt.toNat * 2 ^ 14 + opcode.toNat * 2 ^ 10 + rd.toNat * 2 ^ 5 + rs.toNat := by
  refine (toNat_append_eq _ _).trans ?_
  simp only [toNat_append_eq, BitVec.toNat_ofNat]
  omega

/-- The number that format RegShift writes. -/
theorem toNat_encodeRegShift (p : Pred) (shf : ShiftKind) (rt : BitVec 5) (opcode : BitVec 4) (rd rs : BitVec 5) :
    (encodeRegShift p shf rt opcode rd rs : Word).toNat = p.bits.toNat * 2 ^ 29 + 129 * 2 ^ 21 + shf.bits.toNat * 2 ^ 19 + rt.toNat * 2 ^ 14 + opcode.toNat * 2 ^ 10 + rd.toNat * 2 ^ 5 + rs.toNat := by
  refine (toNat_append_eq _ _).trans ?_
  simp only [toNat_append_eq, BitVec.toNat_ofNat]
  omega

/-- The number that format Long writes. -/
theorem toNat_encodeLong (p : Pred) (opcode : BitVec 4) (rd rs : BitVec 5) :
    (p.bits ++ 0b100000000000000#15 ++ opcode ++ rd ++ rs : Word).toNat = p.bits.toNat * 2 ^ 29 + 16384 * 2 ^ 14 + opcode.toNat * 2 ^ 10 + rd.toNat * 2 ^ 5 + rs.toNat := by
  refine (toNat_append_eq _ _).trans ?_
  simp only [toNat_append_eq, BitVec.toNat_ofNat]
  omega

/-- The number that format BranchPc writes. -/
theorem toNat_encodeBranchPc (p : Pred) (l : BitVec 1) (off : BitVec 25) :
    (encodeBranchPc p l off : Word).toNat = p.bits.toNat * 2 ^ 29 + 6 * 2 ^ 26 + l.toNat * 2 ^ 25 + off.toNat := by
  rw [encodeBranchPc, branchCell_eq]
  refine (toNat_append_eq _ _).trans ?_
  simp only [toNat_append_eq, BitVec.toNat_ofNat]
  omega

/-- The number that format BranchReg writes. -/
theorem toNat_encodeBranchReg (p : Pred) (l : BitVec 1) (off : BitVec 20) (rs : BitVec 5) :
    (encodeBranchReg p l off rs : Word).toNat = p.bits.toNat * 2 ^ 29 + 7 * 2 ^ 26 + l.toNat * 2 ^ 25 + off.toNat * 2 ^ 5 + rs.toNat := by
  refine (toNat_append_eq _ _).trans ?_
  simp only [toNat_append_eq, BitVec.toNat_ofNat]
  omega

/-- The number that format Load writes. -/
theorem toNat_encodeLoad (p : Pred) (off : BitVec 12) (width : BitVec 2) (rd rs : BitVec 5) :
    (encodeLoad p off width rd rs : Word).toNat = p.bits.toNat * 2 ^ 29 + 9 * 2 ^ 25 + off.toNat * 2 ^ 13 + width.toNat * 2 ^ 10 + rd.toNat * 2 ^ 5 + rs.toNat := by
  refine (toNat_append_eq _ _).trans ?_
  simp only [toNat_append_eq, BitVec.toNat_ofNat]
  omega

/-- The number that format Store writes. -/
theorem toNat_encodeStore (p : Pred) (off : BitVec 11) (width : BitVec 2) (rt rs : BitVec 5) :
    (encodeStore p off width rt rs : Word).toNat = p.bits.toNat * 2 ^ 29 + 9 * 2 ^ 25 + (off.extractLsb' 5 6).toNat * 2 ^ 19 + rt.toNat * 2 ^ 14 + 1 * 2 ^ 12 + width.toNat * 2 ^ 10 + (off.extractLsb' 0 5).toNat * 2 ^ 5 + rs.toNat := by
  refine (toNat_append_eq _ _).trans ?_
  simp only [toNat_append_eq, BitVec.toNat_ofNat]
  omega

/-- The number that format Other writes. -/
theorem toNat_encodeOther (p : Pred) (subop : BitVec 4) (low : BitVec 20) :
    (encodeOther p subop low : Word).toNat = p.bits.toNat * 2 ^ 29 + 17 * 2 ^ 24 + subop.toNat * 2 ^ 20 + low.toNat := by
  refine (toNat_append_eq _ _).trans ?_
  simp only [toNat_append_eq, BitVec.toNat_ofNat]
  omega

end Sys2Proof
end

