-- ==== Sys2Proof/Laws/State.lean ====
section
/-! SUPPORT. One lemma per field per update of the state, so that no proof unfolds a record update. -/

namespace Sys2Proof.Machine

variable (s : State)

/-! ### Writing a general register -/

@[simp] theorem setReg_regs (r : RegNum) (v : Word) : (s.setReg r v).regs = s.regs.set r.toNat v r.isLt := rfl
@[simp] theorem setReg_pc (r : RegNum) (v : Word) : (s.setReg r v).pc = s.pc := rfl
@[simp] theorem setReg_p0 (r : RegNum) (v : Word) : (s.setReg r v).p0 = s.p0 := rfl
@[simp] theorem setReg_p1 (r : RegNum) (v : Word) : (s.setReg r v).p1 = s.p1 := rfl
@[simp] theorem setReg_p2 (r : RegNum) (v : Word) : (s.setReg r v).p2 = s.p2 := rfl
@[simp] theorem setReg_hi (r : RegNum) (v : Word) : (s.setReg r v).hi = s.hi := rfl
@[simp] theorem setReg_link (r : RegNum) (v : Word) : (s.setReg r v).link = s.link := rfl
@[simp] theorem setReg_mode (r : RegNum) (v : Word) : (s.setReg r v).mode = s.mode := rfl
@[simp] theorem setReg_epc (r : RegNum) (v : Word) : (s.setReg r v).epc = s.epc := rfl
@[simp] theorem setReg_cpr (r : RegNum) (v : Word) : (s.setReg r v).cpr = s.cpr := rfl
@[simp] theorem setReg_mem (r : RegNum) (v : Word) : (s.setReg r v).mem = s.mem := rfl
@[simp] theorem setReg_marks (r : RegNum) (v : Word) : (s.setReg r v).marks = s.marks := rfl
@[simp] theorem setReg_params (r : RegNum) (v : Word) : (s.setReg r v).params = s.params := rfl
@[simp] theorem setReg_irqs (r : RegNum) (v : Word) : (s.setReg r v).irqs = s.irqs := rfl
@[simp] theorem setReg_tick (r : RegNum) (v : Word) : (s.setReg r v).tick = s.tick := rfl
@[simp] theorem setReg_collected (r : RegNum) (v : Word) : (s.setReg r v).collected = s.collected := rfl

/-! ### Writing a coprocessor register -/

@[simp] theorem setCpr_regs (n : CprNum) (v : Word) : (s.setCpr n v).regs = s.regs := rfl
@[simp] theorem setCpr_pc (n : CprNum) (v : Word) : (s.setCpr n v).pc = s.pc := rfl
@[simp] theorem setCpr_p0 (n : CprNum) (v : Word) : (s.setCpr n v).p0 = s.p0 := rfl
@[simp] theorem setCpr_p1 (n : CprNum) (v : Word) : (s.setCpr n v).p1 = s.p1 := rfl
@[simp] theorem setCpr_p2 (n : CprNum) (v : Word) : (s.setCpr n v).p2 = s.p2 := rfl
@[simp] theorem setCpr_hi (n : CprNum) (v : Word) : (s.setCpr n v).hi = s.hi := rfl
@[simp] theorem setCpr_link (n : CprNum) (v : Word) : (s.setCpr n v).link = s.link := rfl
@[simp] theorem setCpr_mode (n : CprNum) (v : Word) : (s.setCpr n v).mode = s.mode := rfl
@[simp] theorem setCpr_epc (n : CprNum) (v : Word) : (s.setCpr n v).epc = s.epc := rfl
@[simp] theorem setCpr_cpr (n : CprNum) (v : Word) : (s.setCpr n v).cpr = s.cpr.set n.toNat v n.isLt := rfl
@[simp] theorem setCpr_mem (n : CprNum) (v : Word) : (s.setCpr n v).mem = s.mem := rfl
@[simp] theorem setCpr_marks (n : CprNum) (v : Word) : (s.setCpr n v).marks = s.marks := rfl
@[simp] theorem setCpr_params (n : CprNum) (v : Word) : (s.setCpr n v).params = s.params := rfl
@[simp] theorem setCpr_irqs (n : CprNum) (v : Word) : (s.setCpr n v).irqs = s.irqs := rfl
@[simp] theorem setCpr_tick (n : CprNum) (v : Word) : (s.setCpr n v).tick = s.tick := rfl
@[simp] theorem setCpr_collected (n : CprNum) (v : Word) : (s.setCpr n v).collected = s.collected := rfl

/-! ### Writing a predicate register -/

@[simp] theorem setPred_regs (n : PredNum) (b : Bool) : (s.setPred n b).regs = s.regs := by
  unfold State.setPred; match n with | 0#2 => rfl | 1#2 => rfl | 2#2 => rfl | 3#2 => rfl
@[simp] theorem setPred_pc (n : PredNum) (b : Bool) : (s.setPred n b).pc = s.pc := by
  unfold State.setPred; match n with | 0#2 => rfl | 1#2 => rfl | 2#2 => rfl | 3#2 => rfl
@[simp] theorem setPred_p0 (n : PredNum) (b : Bool) : (s.setPred n b).p0 = if n = 0 then b else s.p0 := by
  unfold State.setPred; match n with | 0#2 => rfl | 1#2 => rfl | 2#2 => rfl | 3#2 => rfl
@[simp] theorem setPred_p1 (n : PredNum) (b : Bool) : (s.setPred n b).p1 = if n = 1 then b else s.p1 := by
  unfold State.setPred; match n with | 0#2 => rfl | 1#2 => rfl | 2#2 => rfl | 3#2 => rfl
@[simp] theorem setPred_p2 (n : PredNum) (b : Bool) : (s.setPred n b).p2 = if n = 2 then b else s.p2 := by
  unfold State.setPred; match n with | 0#2 => rfl | 1#2 => rfl | 2#2 => rfl | 3#2 => rfl
@[simp] theorem setPred_hi (n : PredNum) (b : Bool) : (s.setPred n b).hi = s.hi := by
  unfold State.setPred; match n with | 0#2 => rfl | 1#2 => rfl | 2#2 => rfl | 3#2 => rfl
@[simp] theorem setPred_link (n : PredNum) (b : Bool) : (s.setPred n b).link = s.link := by
  unfold State.setPred; match n with | 0#2 => rfl | 1#2 => rfl | 2#2 => rfl | 3#2 => rfl
@[simp] theorem setPred_mode (n : PredNum) (b : Bool) : (s.setPred n b).mode = s.mode := by
  unfold State.setPred; match n with | 0#2 => rfl | 1#2 => rfl | 2#2 => rfl | 3#2 => rfl
@[simp] theorem setPred_epc (n : PredNum) (b : Bool) : (s.setPred n b).epc = s.epc := by
  unfold State.setPred; match n with | 0#2 => rfl | 1#2 => rfl | 2#2 => rfl | 3#2 => rfl
@[simp] theorem setPred_cpr (n : PredNum) (b : Bool) : (s.setPred n b).cpr = s.cpr := by
  unfold State.setPred; match n with | 0#2 => rfl | 1#2 => rfl | 2#2 => rfl | 3#2 => rfl
@[simp] theorem setPred_mem (n : PredNum) (b : Bool) : (s.setPred n b).mem = s.mem := by
  unfold State.setPred; match n with | 0#2 => rfl | 1#2 => rfl | 2#2 => rfl | 3#2 => rfl
@[simp] theorem setPred_marks (n : PredNum) (b : Bool) : (s.setPred n b).marks = s.marks := by
  unfold State.setPred; match n with | 0#2 => rfl | 1#2 => rfl | 2#2 => rfl | 3#2 => rfl
@[simp] theorem setPred_params (n : PredNum) (b : Bool) : (s.setPred n b).params = s.params := by
  unfold State.setPred; match n with | 0#2 => rfl | 1#2 => rfl | 2#2 => rfl | 3#2 => rfl
@[simp] theorem setPred_irqs (n : PredNum) (b : Bool) : (s.setPred n b).irqs = s.irqs := by
  unfold State.setPred; match n with | 0#2 => rfl | 1#2 => rfl | 2#2 => rfl | 3#2 => rfl
@[simp] theorem setPred_tick (n : PredNum) (b : Bool) : (s.setPred n b).tick = s.tick := by
  unfold State.setPred; match n with | 0#2 => rfl | 1#2 => rfl | 2#2 => rfl | 3#2 => rfl
@[simp] theorem setPred_collected (n : PredNum) (b : Bool) : (s.setPred n b).collected = s.collected := by
  unfold State.setPred; match n with | 0#2 => rfl | 1#2 => rfl | 2#2 => rfl | 3#2 => rfl

/-! ### Trap entry -/

@[simp] theorem enterTrap_regs (c : Cause) : (s.enterTrap c).regs = s.regs := rfl
@[simp] theorem enterTrap_pc (c : Cause) : (s.enterTrap c).pc = s.params.handlerAddr := rfl
@[simp] theorem enterTrap_p0 (c : Cause) : (s.enterTrap c).p0 = s.p0 := rfl
@[simp] theorem enterTrap_p1 (c : Cause) : (s.enterTrap c).p1 = s.p1 := rfl
@[simp] theorem enterTrap_p2 (c : Cause) : (s.enterTrap c).p2 = s.p2 := rfl
@[simp] theorem enterTrap_hi (c : Cause) : (s.enterTrap c).hi = s.hi := rfl
@[simp] theorem enterTrap_link (c : Cause) : (s.enterTrap c).link = false := rfl
@[simp] theorem enterTrap_mode (c : Cause) : (s.enterTrap c).mode = .kernel := rfl
@[simp] theorem enterTrap_epc (c : Cause) : (s.enterTrap c).epc = s.epcValue c := rfl
@[simp] theorem enterTrap_cpr (c : Cause) : (s.enterTrap c).cpr = s.cpr := rfl
@[simp] theorem enterTrap_mem (c : Cause) : (s.enterTrap c).mem = s.mem := rfl
@[simp] theorem enterTrap_marks (c : Cause) : (s.enterTrap c).marks = s.marks := rfl
@[simp] theorem enterTrap_params (c : Cause) : (s.enterTrap c).params = s.params := rfl
@[simp] theorem enterTrap_irqs (c : Cause) : (s.enterTrap c).irqs = s.irqs := rfl
@[simp] theorem enterTrap_tick (c : Cause) : (s.enterTrap c).tick = s.tick + 1 := rfl
@[simp] theorem enterTrap_collected (c : Cause) : (s.enterTrap c).collected = [.trap c] := rfl

/-! ### Advancing past a packet -/

@[simp] theorem advance_regs (es : List Effect) : (s.advance es).regs = s.regs := rfl
@[simp] theorem advance_pc (es : List Effect) : (s.advance es).pc = s.pc + 16 := rfl
@[simp] theorem advance_p0 (es : List Effect) : (s.advance es).p0 = s.p0 := rfl
@[simp] theorem advance_p1 (es : List Effect) : (s.advance es).p1 = s.p1 := rfl
@[simp] theorem advance_p2 (es : List Effect) : (s.advance es).p2 = s.p2 := rfl
@[simp] theorem advance_hi (es : List Effect) : (s.advance es).hi = s.hi := rfl
@[simp] theorem advance_link (es : List Effect) : (s.advance es).link = s.link := rfl
@[simp] theorem advance_mode (es : List Effect) : (s.advance es).mode = s.mode := rfl
@[simp] theorem advance_epc (es : List Effect) : (s.advance es).epc = s.epc := rfl
@[simp] theorem advance_cpr (es : List Effect) : (s.advance es).cpr = s.cpr := rfl
@[simp] theorem advance_mem (es : List Effect) : (s.advance es).mem = s.mem := rfl
@[simp] theorem advance_marks (es : List Effect) : (s.advance es).marks = s.marks := rfl
@[simp] theorem advance_params (es : List Effect) : (s.advance es).params = s.params := rfl
@[simp] theorem advance_irqs (es : List Effect) : (s.advance es).irqs = s.irqs := rfl
@[simp] theorem advance_tick (es : List Effect) : (s.advance es).tick = s.tick + 1 := rfl
@[simp] theorem advance_collected (es : List Effect) : (s.advance es).collected = es := rfl

/-! ### The value trap entry saves -/

@[simp] theorem epcValue_eq (c : Cause) : s.epcValue c = s.pc := by cases c <;> rfl

/-! ### Committing one effect -/

@[simp] theorem apply_reg (r : RegNum) (v : Word) : s.apply (.reg r v) = s.setReg r v := rfl
@[simp] theorem apply_pred (n : PredNum) (b : Bool) : s.apply (.pred n b) = s.setPred n b := rfl
@[simp] theorem apply_hi (v : Word) : s.apply (.hi v) = { s with hi := v } := rfl
@[simp] theorem apply_link (b : Bool) : s.apply (.link b) = { s with link := b } := rfl
@[simp] theorem apply_mode (m : Mode) : s.apply (.mode m) = { s with mode := m } := rfl
@[simp] theorem apply_epc (v : Word) : s.apply (.epc v) = { s with epc := v } := rfl
@[simp] theorem apply_cpr (n : CprNum) (v : Word) : s.apply (.cpr n v) = s.setCpr n v := rfl
@[simp] theorem apply_load (pa : Word) (n : Nat) : s.apply (.load pa n) = s := rfl
@[simp] theorem apply_store (pa : Word) (bs : List Byte) : s.apply (.store pa bs) =
    { s with mem := s.mem.writeBytes pa bs, marks := s.marks.stored pa bs.length } := rfl
@[simp] theorem apply_flush (k : FlushTarget) (pa : Word) :
    s.apply (.flush k pa) = { s with marks := s.marks.flush k pa } := rfl
@[simp] theorem apply_jump (target : Word) : s.apply (.jump target) = { s with pc := target } := rfl
@[simp] theorem apply_trap (c : Cause) : s.apply (.trap c) = s := rfl

/-- Committing changes neither the parameters nor the interrupts, the step count or the report. -/
@[simp] theorem apply_params (e : Effect) : (s.apply e).params = s.params := by cases e <;> simp
@[simp] theorem apply_irqs (e : Effect) : (s.apply e).irqs = s.irqs := by cases e <;> simp
@[simp] theorem apply_tick (e : Effect) : (s.apply e).tick = s.tick := by cases e <;> simp
@[simp] theorem apply_collected (e : Effect) : (s.apply e).collected = s.collected := by cases e <;> simp

end Sys2Proof.Machine
end

