-- ==== Sys2Proof/Laws/Memory.lean ====
section
/-! SUPPORT. The laws of lists by address, of memory and of the marks: read after write, what a write leaves alone, and that
every operation keeps the canonical form. -/

namespace Sys2Proof.Machine

/-! ## Lists by address -/

section Assoc

variable {α : Type} {m : List (Nat × α)} {a b : Nat} {o : Option α}

theorem assocGet_cons (k : Nat) (v : α) (m : List (Nat × α)) (b : Nat) :
    assocGet ((k, v) :: m) b = if k = b then some v else assocGet m b := rfl

/-- Setting address `a` leaves every other address alone, in any list. -/
theorem assocGet_assocSet_of_ne (h : b ≠ a) : assocGet (assocSet m a o) b = assocGet m b := by
  have front : ∀ l : List (Nat × α), assocGet ((o.map fun v => (a, v)).toList ++ l) b = assocGet l b := by
    intro l; cases o <;> simp [assocGet, Ne.symm h]
  induction m with
  | nil => simpa [assocSet] using front []
  | cons c m ih =>
    obtain ⟨k, v⟩ := c
    simp only [assocSet]
    split
    · exact front _
    · split
      · next hk => subst hk; rw [front, assocGet_cons, if_neg (Ne.symm h)]
      · simp only [assocGet_cons, ih]

/-- A list whose addresses all lie above `a` holds nothing at `a`. -/
theorem assocGet_eq_none_of_lt (h : ∀ c ∈ m, a < c.1) : assocGet m a = none := by
  induction m with
  | nil => rfl
  | cons c m ih =>
    have := h c (by simp)
    rw [assocGet_cons, if_neg (by omega), ih fun c hc => h c (by simp [hc])]

/-- Reading the address just set gives what was set, in the canonical form. -/
theorem assocGet_assocSet_self (h : m.Pairwise fun x y => x.1 < y.1) : assocGet (assocSet m a o) a = o := by
  have front : ∀ l : List (Nat × α), (∀ c ∈ l, a < c.1) →
      assocGet ((o.map fun v => (a, v)).toList ++ l) a = o := by
    intro l hl; cases o <;> simp [assocGet, assocGet_eq_none_of_lt hl]
  induction m with
  | nil => simpa [assocSet] using front [] (by simp)
  | cons c m ih =>
    obtain ⟨k, v⟩ := c
    rw [List.pairwise_cons] at h
    simp only [assocSet]
    split
    · next hk =>
      refine front _ fun c hc => ?_
      rcases List.mem_cons.1 hc with rfl | hc
      · exact hk
      · exact lt_trans hk (h.1 c hc)
    · split
      · next hk => subst hk; exact front _ h.1
      · next hk => rw [assocGet_cons, if_neg (by omega), ih h.2]

/-- Setting address `a` to a value holds it there, in any list. -/
theorem assocGet_assocSet_some (m : List (Nat × α)) (a : Nat) (v : α) : assocGet (assocSet m a (some v)) a = some v := by
  induction m with
  | nil => simp [assocSet, assocGet]
  | cons c m ih =>
    obtain ⟨k, w⟩ := c
    simp only [assocSet]
    split
    · simp [assocGet]
    · split
      · simp [assocGet]
      · next h1 h2 => simp [assocGet, ih, Ne.symm h2]

/-- An entry after a set was there before, or is the one set. -/
theorem mem_assocSet {c : Nat × α} (h : c ∈ assocSet m a o) : c ∈ m ∨ (c.1 = a ∧ o = some c.2) := by
  have front : ∀ l : List (Nat × α), c ∈ (o.map fun v => (a, v)).toList ++ l →
      c ∈ l ∨ (c.1 = a ∧ o = some c.2) := by
    intro l hl; cases o with
    | none => simpa using hl
    | some v =>
      rcases List.mem_cons.1 hl with rfl | hl
      · exact .inr ⟨rfl, rfl⟩
      · exact .inl hl
  induction m with
  | nil => simpa [assocSet] using front [] (by simpa [assocSet] using h)
  | cons d m ih =>
    obtain ⟨k, v⟩ := d
    simp only [assocSet] at h
    split at h
    · exact front _ h
    · split at h
      · exact (front _ h).imp_left (List.mem_cons_of_mem _)
      · rcases List.mem_cons.1 h with rfl | h
        · simp
        · exact (ih h).imp_left (List.mem_cons_of_mem _)

/-- A set keeps the addresses strictly rising. -/
theorem assocSet_pairwise (h : m.Pairwise fun x y => x.1 < y.1) :
    (assocSet m a o).Pairwise fun x y => x.1 < y.1 := by
  have front : ∀ l : List (Nat × α), l.Pairwise (fun x y => x.1 < y.1) → (∀ c ∈ l, a < c.1) →
      ((o.map fun v => (a, v)).toList ++ l).Pairwise fun x y => x.1 < y.1 := by
    intro l hl ha; cases o
    · simpa using hl
    · exact List.pairwise_cons.2 ⟨ha, hl⟩
  induction m with
  | nil => cases o <;> simp [assocSet]
  | cons c m ih =>
    obtain ⟨k, v⟩ := c
    have hc := List.pairwise_cons.1 h
    simp only [assocSet]
    split
    · next hk =>
      refine front _ h fun c hc' => ?_
      rcases List.mem_cons.1 hc' with rfl | hc'
      · exact hk
      · exact lt_trans hk (hc.1 c hc')
    · split
      · next hk => subst hk; exact front _ hc.2 hc.1
      · next hk hne =>
        refine List.pairwise_cons.2 ⟨fun d hd => ?_, ih hc.2⟩
        rcases mem_assocSet hd with hd | ⟨hd, -⟩
        · exact hc.1 d hd
        · simp only [hd]; omega

end Assoc

/-! ## Bytes of memory -/

theorem Memory.read_write_of_ne {m : Memory} {a c : Nat} (b : Byte) (h : c ≠ a) : (m.write a b).read c = m.read c := by
  simp [Memory.read, Memory.write, assocGet_assocSet_of_ne h]

theorem Memory.read_write_self {m : Memory} (h : m.wf) (a : Nat) (b : Byte) : (m.write a b).read a = b := by
  simp only [Memory.read, Memory.write, assocGet_assocSet_self h.1]
  split <;> simp_all

/-- A write inside the address space keeps the canonical form. -/
theorem Memory.write_wf {m : Memory} {a : Nat} (b : Byte) (h : m.wf) (ha : a < 2 ^ 32) : (m.write a b).wf := by
  refine ⟨assocSet_pairwise h.1, fun c hc => ?_⟩
  rcases mem_assocSet hc with hc | ⟨hc, hb⟩
  · exact h.2 c hc
  · split at hb
    · cases hb
    · next hne => cases hb; exact ⟨by omega, hne⟩

/-- Writing bytes keeps the canonical form. -/
theorem Memory.writeBytes_wf {m : Memory} (h : m.wf) (pa : Word) (bs : List Byte) : (m.writeBytes pa bs).wf := by
  induction bs generalizing m pa with
  | nil => exact h
  | cons b bs ih => exact ih (Memory.write_wf b h pa.isLt) _

/-- The address of byte `k` from `pa` on, where the range does not wrap. -/
theorem toNat_add_one {pa : Word} {n : Nat} (h : pa.toNat + (n + 1) ≤ 2 ^ 32) (hn : 0 < n) :
    (pa + 1).toNat = pa.toNat + 1 := by
  rw [BitVec.toNat_add]; exact Nat.mod_eq_of_lt (by simp; omega)

/-- Writing bytes leaves every byte outside their range alone. -/
theorem Memory.read_writeBytes_of_outside {m : Memory} {pa : Word} {bs : List Byte} {a : Nat}
    (hw : pa.toNat + bs.length ≤ 2 ^ 32) (h : a < pa.toNat ∨ pa.toNat + bs.length ≤ a) :
    (m.writeBytes pa bs).read a = m.read a := by
  induction bs generalizing m pa with
  | nil => rfl
  | cons b bs ih =>
    rcases Nat.eq_zero_or_pos bs.length with h0 | h0
    · rw [List.length_eq_zero_iff] at h0; subst h0
      exact Memory.read_write_of_ne b (by simp at h; omega)
    · have h1 := toNat_add_one (n := bs.length) (by simpa using hw) h0
      simp only [List.length_cons] at h hw
      rw [Memory.writeBytes, ih (by omega) (by omega), Memory.read_write_of_ne b (by omega)]

/-- The byte just written at each address of the range reads back. -/
theorem Memory.read_writeBytes_of_inside {m : Memory} {pa : Word} {bs : List Byte} {k : Nat} (hm : m.wf)
    (hw : pa.toNat + bs.length ≤ 2 ^ 32) (hk : k < bs.length) : (m.writeBytes pa bs).read (pa.toNat + k) = bs[k] := by
  induction bs generalizing m pa k with
  | nil => simp at hk
  | cons b bs ih =>
    have hm' := Memory.write_wf b hm pa.isLt
    rcases Nat.eq_zero_or_pos bs.length with h0 | h0
    · rw [List.length_eq_zero_iff] at h0; subst h0
      obtain rfl : k = 0 := by simpa using hk
      exact Memory.read_write_self hm _ _
    · have h1 := toNat_add_one (n := bs.length) (by simpa using hw) h0
      simp only [List.length_cons] at hk hw
      rw [Memory.writeBytes]
      cases k with
      | zero =>
        rw [Memory.read_writeBytes_of_outside (by omega) (by omega)]
        exact Memory.read_write_self hm _ _
      | succ k =>
        have := ih (pa := pa + 1) (k := k) hm' (by omega) (by omega)
        rw [h1] at this
        rw [show pa.toNat + (k + 1) = pa.toNat + 1 + k by omega, this]; rfl

/-- Reading bytes reads each address of the range. -/
theorem Memory.readBytes_eq {m : Memory} {pa : Word} {n : Nat} (hw : pa.toNat + n ≤ 2 ^ 32) :
    m.readBytes pa n = (List.range n).map fun k => m.read (pa.toNat + k) := by
  induction n generalizing pa with
  | zero => rfl
  | succ n ih =>
    rw [Memory.readBytes, List.range_succ_eq_map]
    rcases Nat.eq_zero_or_pos n with rfl | h0
    · simp [Memory.readBytes]
    · rw [ih (by rw [toNat_add_one hw h0]; omega), toNat_add_one hw h0]
      simp [Function.comp_def, Nat.add_assoc, Nat.add_comm 1]

theorem length_littleEndianBytes (n : Nat) (v : Word) : (littleEndianBytes n v).length = n := by
  induction n generalizing v with
  | zero => rfl
  | succ n ih => simp [littleEndianBytes, ih]

/-- In either byte order a value has as many bytes as are asked for. -/
theorem length_bytesOf (n : Nat) (v : Word) : (bytesOf n v).length = n := by
  unfold bytesOf; split <;> simp [length_littleEndianBytes]

theorem length_readBytes (m : Memory) (pa : Word) (n : Nat) : (m.readBytes pa n).length = n := by
  induction n generalizing pa with
  | zero => rfl
  | succ n ih => simp [Memory.readBytes, ih]

/-- Bytes just written read back as they were written. -/
theorem Memory.readBytes_writeBytes {m : Memory} {pa : Word} {bs : List Byte} (hm : m.wf)
    (hw : pa.toNat + bs.length ≤ 2 ^ 32) : (m.writeBytes pa bs).readBytes pa bs.length = bs := by
  rw [Memory.readBytes_eq hw]
  refine List.ext_getElem (by simp) fun k _ hk => ?_
  simp [Memory.read_writeBytes_of_inside hm hw hk]

/-! ## Marks -/

theorem Marks.set_wf {m : Marks} {a : Nat} (o : Option Stage) (h : m.wf) (ha : a < 2 ^ 32) :
    Marks.wf (assocSet m a o) := by
  refine ⟨assocSet_pairwise h.1, fun c hc => ?_⟩
  rcases mem_assocSet hc with hc | ⟨hc, -⟩
  · exact h.2 c hc
  · exact hc ▸ ha

theorem Marks.stored_wf {m : Marks} (h : m.wf) (pa : Word) (n : Nat) : (m.stored pa n).wf := by
  induction n generalizing m pa with
  | zero => exact h
  | succ n ih => exact ih (Marks.set_wf _ h pa.isLt) _

theorem Marks.clear_wf {m : Marks} (h : m.wf) (pa : Word) (n : Nat) : (m.clear pa n).wf := by
  induction n generalizing m pa with
  | zero => exact h
  | succ n ih => exact ih (Marks.set_wf _ h pa.isLt) _

theorem Marks.flushBytes_wf {m : Marks} (h : m.wf) (k : FlushTarget) (pa : Word) (n : Nat) :
    (m.flushBytes k pa n).wf := by
  induction n generalizing m pa with
  | zero => exact h
  | succ n ih => exact ih (Marks.set_wf _ h pa.isLt) _

theorem Marks.flush_wf {m : Marks} (h : m.wf) (k : FlushTarget) (pa : Word) : (m.flush k pa).wf :=
  Marks.flushBytes_wf h k _ 4

/-! ## The memory at reset -/

theorem reset_mem_wf : State.reset.mem.wf := ⟨List.Pairwise.nil, by simp [State.reset]⟩

theorem reset_marks_wf : State.reset.marks.wf := ⟨List.Pairwise.nil, by simp [State.reset]⟩

end Sys2Proof.Machine
end

