-- ==== Sys2Proof/Laws/Ops.lean ====
section
/-! SUPPORT. For each shared operation, once, everything it can do; and the laws of registers, predicates, committing and
alignment. -/

namespace Sys2Proof.Machine

variable {s t : State}

/-! ## Registers and predicates -/

theorem State.reg_setReg (s : State) (r r' : RegNum) (v : Word) :
    (s.setReg r v).reg r' = if r' = r then v else s.reg r' := by
  simp only [State.reg, State.setReg, Vector.getElem_set]
  by_cases h : r' = r
  · simp [h]
  · have : ¬ r.toNat = r'.toNat := fun e => h (BitVec.eq_of_toNat_eq e.symm)
    simp [h, this]

theorem State.cprAt_setCpr (s : State) (n n' : CprNum) (v : Word) :
    (s.setCpr n v).cprAt n' = if n' = n then v else s.cprAt n' := by
  simp only [State.cprAt, State.setCpr, Vector.getElem_set]
  by_cases h : n' = n
  · simp [h]
  · have : ¬ n.toNat = n'.toNat := fun e => h (BitVec.eq_of_toNat_eq e.symm)
    simp [h, this]

theorem State.pred_setPred (s : State) (n n' : PredNum) (b : Bool) :
    (s.setPred n b).pred n' = if n' = n ∧ n ≠ 3 then b else s.pred n' := by
  match n, n' with
  | 0#2, 0#2 | 0#2, 1#2 | 0#2, 2#2 | 0#2, 3#2 | 1#2, 0#2 | 1#2, 1#2 | 1#2, 2#2 | 1#2, 3#2
  | 2#2, 0#2 | 2#2, 1#2 | 2#2, 2#2 | 2#2, 3#2 | 3#2, 0#2 | 3#2, 1#2 | 3#2, 2#2 | 3#2, 3#2 => rfl

@[simp] theorem State.setPred_three (s : State) (b : Bool) : s.setPred 3 b = s := rfl

@[simp] theorem State.pred_three (s : State) : s.pred 3 = true := rfl

/-- A state equal in its registers reads the same. -/
theorem State.reg_congr (h : t.regs = s.regs) (r : RegNum) : t.reg r = s.reg r := by simp [State.reg, h]

/-! ## Committing -/

@[simp] theorem State.commit_nil (s : State) : s.commit [] = s.advance [] := rfl

/-- Committing is the advance followed by each effect in order. -/
theorem State.commit_eq_foldl (s : State) (es : List Effect) : s.commit es = es.foldl State.apply (s.advance es) := rfl

/-- A fact that every effect of a list keeps is kept by all of them. -/
theorem foldl_apply_keeps {P : State → Prop} {es : List Effect} (hs : P s)
    (h : ∀ u e, e ∈ es → P u → P (u.apply e)) : P (es.foldl State.apply s) := by
  induction es generalizing s with
  | nil => exact hs
  | cons e es ih => exact ih (h s e (by simp) hs) fun u e' he => h u e' (by simp [he])

/-- A fact that holds after the advance and that every effect keeps holds after the commit. -/
theorem State.commit_keeps {P : State → Prop} {es : List Effect} (hs : P (s.advance es))
    (h : ∀ u e, e ∈ es → P u → P (u.apply e)) : P (s.commit es) := foldl_apply_keeps hs h

@[simp] theorem State.commit_collected (s : State) (es : List Effect) : (s.commit es).collected = es :=
  State.commit_keeps (P := fun u => u.collected = es) rfl fun u e _ h => by simpa using h

@[simp] theorem State.commit_params (s : State) (es : List Effect) : (s.commit es).params = s.params :=
  State.commit_keeps (P := fun u => u.params = s.params) rfl fun u e _ h => by simpa using h

@[simp] theorem State.commit_irqs (s : State) (es : List Effect) : (s.commit es).irqs = s.irqs :=
  State.commit_keeps (P := fun u => u.irqs = s.irqs) rfl fun u e _ h => by simpa using h

@[simp] theorem State.commit_tick (s : State) (es : List Effect) : (s.commit es).tick = s.tick + 1 :=
  State.commit_keeps (P := fun u => u.tick = s.tick + 1) rfl fun u e _ h => by simpa using h

/-! ## Predicated execution -/

theorem State.whenHolds_true {p : Pred} (h : s.holds p = true) (o : Host.Outcome State Fault Refusal) :
    s.whenHolds p o = o := by simp [State.whenHolds, h]

theorem State.whenHolds_false {p : Pred} (h : s.holds p = false) (o : Host.Outcome State Fault Refusal) :
    s.whenHolds p o = .next (s.advance []) := by simp [State.whenHolds, h]

/-- All that a predicated instruction can answer as a next state. -/
theorem State.whenHolds_next {p : Pred} {o : Host.Outcome State Fault Refusal} (h : s.whenHolds p o = .next t) :
    (s.holds p = false ∧ t = s.commit []) ∨ (s.holds p = true ∧ o = .next t) := by
  unfold State.whenHolds at h
  split at h
  · next hp => exact .inr ⟨hp, h⟩
  · next hp => cases h; exact .inl ⟨by simpa using hp, rfl⟩

/-! ## Data accesses -/

/-- All that reaching for an address can give. -/
theorem State.reach_memory {k : Access} {va pa : Word} {n : Nat} :
    s.reach k va n = .memory pa ↔ s.translate k va = some pa ∧ s.backed pa n = true := by
  unfold State.reach
  cases s.translate k va with
  | none => simp
  | some q =>
    by_cases hb : s.backed q n = true
    · simp only [hb, if_true, Reached.memory.injEq, Option.some.injEq]
      exact ⟨fun h => ⟨h, h ▸ hb⟩, fun h => h.1⟩
    · simp only [hb, Option.some.injEq]
      constructor
      · intro h; simp at h
      · rintro ⟨rfl, h⟩; exact absurd h hb

theorem State.reach_pageFault {k : Access} {va : Word} {n : Nat} :
    s.reach k va n = .pageFault ↔ s.translate k va = none := by
  unfold State.reach
  cases s.translate k va with
  | none => simp
  | some q => simp only [reduceCtorEq, iff_false]; split <;> simp

/-- All that a data access can answer as a next state. -/
theorem State.accessData_next {k : Access} {va : Word} {n : Nat} {done : Word → List Effect}
    (h : s.accessData k va n done = .next t) :
    (s.translate k va = none ∧ t = s.enterTrap (.pageFault va)) ∨
      ∃ pa, s.translate k va = some pa ∧ s.backed pa n = true ∧ t = s.commit (done pa) := by
  unfold State.accessData at h
  split at h
  · next hr => cases h; exact .inl ⟨State.reach_pageFault.1 hr, rfl⟩
  · cases h
  · next pa hr => cases h; exact .inr ⟨pa, (State.reach_memory.1 hr).1, (State.reach_memory.1 hr).2, rfl⟩

theorem State.accessData_of_backed {k : Access} {va pa : Word} {n : Nat} (ht : s.translate k va = some pa)
    (hb : s.backed pa n = true) (done : Word → List Effect) :
    s.accessData k va n done = .next (s.commit (done pa)) := by
  simp [State.accessData, State.reach_memory.2 ⟨ht, hb⟩]

theorem State.accessData_of_pageFault {k : Access} {va : Word} {n : Nat} (ht : s.translate k va = none)
    (done : Word → List Effect) : s.accessData k va n done = .next (s.enterTrap (.pageFault va)) := by
  simp [State.accessData, State.reach_pageFault.2 ht]

theorem State.accessData_of_unbacked {k : Access} {va pa : Word} {n : Nat} (ht : s.translate k va = some pa)
    (hb : s.backed pa n = false) (done : Word → List Effect) :
    s.accessData k va n done = .fault (.unbackedAddress pa) := by
  simp [State.accessData, State.reach, ht, hb]

/-! ## Kernel-only instructions -/

/-- All that a kernel-only instruction can answer as a next state. -/
theorem State.kernelOnly_next {p : Pred} {o : Host.Outcome State Fault Refusal} (h : s.kernelOnly p o = .next t) :
    (s.holds p = false ∧ t = s.commit []) ∨
      (s.holds p = true ∧ s.mode = .user ∧ t = s.enterTrap .illegalInstruction) ∨
      (s.holds p = true ∧ s.mode = .kernel ∧ o = .next t) := by
  rcases State.whenHolds_next h with h | ⟨hp, h⟩
  · exact .inl h
  · cases hm : s.mode with
    | kernel => rw [hm] at h; exact .inr (.inr ⟨hp, rfl, h⟩)
    | user => rw [hm] at h; cases h; exact .inr (.inl ⟨hp, rfl, rfl⟩)

/-! ## Alignment -/

/-- A word is a multiple of 16 when its low four bits are 0. -/
theorem low4_eq_zero_iff (a : Word) : a.extractLsb' 0 4 = 0 ↔ a.toNat % 16 = 0 := by
  rw [← BitVec.toNat_inj]; simp [BitVec.extractLsb'_toNat]

theorem low4_add_sixteen {a : Word} (h : a.extractLsb' 0 4 = 0) : (a + 16).extractLsb' 0 4 = 0 := by
  rw [low4_eq_zero_iff] at h ⊢; rw [BitVec.toNat_add]; simp; omega

theorem low4_append (h : BitVec 28) : (h ++ 0#4 : Word).extractLsb' 0 4 = 0 := by
  rw [low4_eq_zero_iff, BitVec.toNat_append]; simp [Nat.shiftLeft_eq]

theorem handlerAddr_aligned (p : Params) : p.handlerAddr.extractLsb' 0 4 = 0 := low4_append _

/-- A branch target is a multiple of 16 (R160). -/
theorem branchTarget_aligned {n : Nat} (base : Word) (off : BitVec n) :
    (branchTarget base off).extractLsb' 0 4 = 0 := by
  unfold branchTarget
  generalize base + off.signExtend 32 <<< 4 = x
  have hx : x &&& (0xFFFFFFF0 : Word) = x.extractLsb' 4 28 ++ 0#4 := by
    apply BitVec.eq_of_getLsbD_eq
    intro i hi
    have : ∀ i < 32, (0xFFFFFFF0 : Word).getLsbD i = decide (4 ≤ i) := by decide
    rw [BitVec.getLsbD_and, this i hi, BitVec.getLsbD_append]
    by_cases h4 : i < 4
    · simp [h4]
    · simp only [BitVec.getLsbD_extractLsb', h4]
      have : i - 4 < 28 := by omega
      simp [this, show 4 + (i - 4) = i by omega, show 4 ≤ i by omega]
  rw [hx]; exact low4_append _

/-! ## Effects -/

theorem firstTrap_eq_none {es : List Effect} : firstTrap es = none ↔ ∀ c, Effect.trap c ∉ es := by
  induction es with
  | nil => simp [firstTrap]
  | cons e es ih =>
    cases e with
    | trap c => exact iff_of_false (by simp [firstTrap]) fun h => h c (by simp)
    | _ => simp [firstTrap, ih]

theorem firstTrap_eq_some {es : List Effect} {c : Cause} (h : firstTrap es = some c) : Effect.trap c ∈ es := by
  induction es with
  | nil => simp [firstTrap] at h
  | cons e es ih => cases e <;> simp_all [firstTrap]

end Sys2Proof.Machine
end

