-- ==== Sys2Proof/Laws/Exec.lean ====
section
/-! SUPPORT. Once, for every instruction: what its meaning can answer, which kinds of effect it can collect, and what a packet
of one instruction does. -/

namespace Sys2Proof.Machine

/-- The kinds of effect each instruction can collect (the writers that R10 to R19 name). -/
def mayCollect (i : Instr) : Effect → Bool
  | .reg _ _ => true
  | .pred _ _ => true
  | .hi _ =>
    match i with
    | .mult .. | .mults .. | .div .. | .mthi .. => true
    | _ => false
  | .link _ =>
    match i with
    | .ll .. | .sc .. | .eret .. => true
    | _ => false
  | .mode _ =>
    match i with
    | .eret .. => true
    | _ => false
  | .epc _ =>
    match i with
    | .mtc .. => true
    | _ => false
  | .cpr _ _ =>
    match i with
    | .mtc .. => true
    | _ => false
  | .load _ _ =>
    match i with
    | .lb .. | .lh .. | .lw .. | .ll .. => true
    | _ => false
  | .store _ _ =>
    match i with
    | .sb .. | .sh .. | .sw .. | .sc .. => true
    | _ => false
  | .flush _ _ =>
    match i with
    | .flush .. => true
    | _ => false
  | .jump _ =>
    match i with
    | .bP .. | .bR .. | .blP .. | .blR .. | .eret .. => true
    | _ => false
  | .trap _ => false

/-- What an instruction collects when it raises no exception: only its own kinds, no two that conflict, only jumps to
multiples of 16, and nothing of the privileged registers in user mode. -/
structure Collects (i : Instr) (s : State) (es : List Effect) : Prop where
  kinds : ∀ e ∈ es, mayCollect i e = true
  noConflict : conflictFree es = true
  aligned : ∀ a, Effect.jump a ∈ es → a.extractLsb' 0 4 = 0
  unprivileged : s.mode = .user → ∀ e ∈ es, (∀ m, e ≠ .mode m) ∧ (∀ v, e ≠ .epc v) ∧ ∀ n v, e ≠ .cpr n v

/-- Every next state of an instruction is trap entry or the commit of what it collects. -/
def Answers (i : Instr) (s t : State) : Prop :=
  (∃ c, t = s.enterTrap c) ∨ ∃ es, t = s.commit es ∧ Collects i s es

variable {s t : State} {i : Instr} {p : Pred}

theorem collects_nil (i : Instr) (s : State) : Collects i s [] := by constructor <;> simp [conflictFree]

theorem answers_whenHolds {es : List Effect} (h : s.whenHolds p (.next (s.commit es)) = .next t)
    (hc : Collects i s es) : Answers i s t := by
  rcases State.whenHolds_next h with ⟨-, h⟩ | ⟨-, h⟩
  · exact .inr ⟨[], h, collects_nil i s⟩
  · cases h; exact .inr ⟨es, rfl, hc⟩

theorem answers_accessData {k : Access} {va : Word} {n : Nat} {done : Word → List Effect}
    (h : s.whenHolds p (s.accessData k va n done) = .next t) (hc : ∀ pa, Collects i s (done pa)) : Answers i s t := by
  rcases State.whenHolds_next h with ⟨-, h⟩ | ⟨-, h⟩
  · exact .inr ⟨[], h, collects_nil i s⟩
  · rcases State.accessData_next h with ⟨-, h⟩ | ⟨pa, -, -, h⟩
    · exact .inl ⟨_, h⟩
    · exact .inr ⟨_, h, hc pa⟩

theorem answers_trap {c : Cause} (h : s.whenHolds p (.next (s.enterTrap c)) = .next t) : Answers i s t := by
  rcases State.whenHolds_next h with ⟨-, h⟩ | ⟨-, h⟩
  · exact .inr ⟨[], h, collects_nil i s⟩
  · cases h; exact .inl ⟨c, rfl⟩

theorem answers_kernelOnly {o : Host.Outcome State Fault Refusal} (h : s.kernelOnly p o = .next t)
    (hc : s.mode = .kernel → o = .next t → Answers i s t) : Answers i s t := by
  rcases State.kernelOnly_next h with ⟨-, h⟩ | ⟨-, -, h⟩ | ⟨-, hm, h⟩
  · exact .inr ⟨[], h, collects_nil i s⟩
  · exact .inl ⟨_, h⟩
  · exact hc hm h

/-- The one case split over all instructions: what a meaning can answer as a next state. -/
theorem exec_answers (i : Instr) (s t : State) (h : exec i s = .next t) : Answers i s t := by
  cases i with
  | bP | bR =>
    exact answers_whenHolds h ⟨by simp [mayCollect], rfl, by simp [branchTarget_aligned], by simp⟩
  | blP | blR =>
    exact answers_whenHolds h ⟨by simp [mayCollect], rfl, by simp [branchTarget_aligned], by simp⟩
  | lb | lh | lw | ll =>
    exact answers_accessData h fun pa => ⟨by simp [mayCollect], rfl, by simp, by simp⟩
  | sb | sh | sw =>
    exact answers_accessData h fun pa => ⟨by simp [mayCollect], rfl, by simp, by simp⟩
  | sc p off rt rs =>
    simp only [exec, execSc] at h
    split at h
    · exact answers_accessData h fun pa => ⟨by simp [mayCollect], rfl, by simp, by simp⟩
    · exact answers_whenHolds h ⟨by simp [mayCollect], rfl, by simp, by simp⟩
  | brk | syscall => exact answers_trap h
  | eret p =>
    refine answers_kernelOnly h fun hm h => ?_
    split at h
    · next ha =>
      cases h
      exact .inr ⟨_, rfl, by simp [State.returnEffects, mayCollect], rfl, by simpa [State.returnEffects] using ha, by simp [hm]⟩
    · cases h
  | flush p target rs =>
    rcases State.whenHolds_next h with ⟨-, h⟩ | ⟨-, h⟩
    · exact .inr ⟨[], h, collects_nil _ s⟩
    · split at h
      · cases h; exact .inr ⟨[], rfl, collects_nil _ s⟩
      · split at h
        · cases h; exact .inl ⟨_, rfl⟩
        · cases h; exact .inr ⟨_, rfl, by simp [mayCollect], rfl, by simp, by simp⟩
  | mfc p rd n =>
    refine answers_kernelOnly h fun hm h => ?_
    split at h
    · cases h; exact .inr ⟨_, rfl, by simp [mayCollect], rfl, by simp, by simp⟩
    · split at h
      · cases h; exact .inr ⟨_, rfl, by simp [mayCollect], rfl, by simp, by simp⟩
      · cases h
  | mtc p n rs =>
    refine answers_kernelOnly h fun hm h => ?_
    split at h
    · cases h; exact .inr ⟨_, rfl, by simp [mayCollect], rfl, by simp, by simp [hm]⟩
    · split at h
      · cases h; exact .inr ⟨_, rfl, by simp [mayCollect], rfl, by simp, by simp [hm]⟩
      · cases h
  | _ => exact answers_whenHolds h ⟨by simp [mayCollect], rfl, by simp, by simp⟩

end Sys2Proof.Machine
end

