-- ==== Sys2Proof/Laws/Operands.lean ====
section
/-! SUPPORT. The laws of operand forms and of translation: alignment, little-endian bytes, branch targets, predicates. -/

namespace Sys2Proof.Machine

variable {s : State}

/-! ## Predicates -/

/-- What the PRED field asks for (R61). -/
theorem State.holds_eq_true_iff (p : Pred) (s : State) :
    s.holds p = true ↔ (s.pred p.sel = true ∧ p.inv = false) ∨ (s.pred p.sel = false ∧ p.inv = true) := by
  unfold State.holds; cases s.pred p.sel <;> cases p.inv <;> simp

/-! ## Alignment -/

/-- Masking with all ones but the low `n` bits rounds down to a multiple of 2^n. -/
theorem toNat_and_mask {a : Word} {n : Nat} (hn : n ≤ 32) {mask : Word} (hm : mask = BitVec.allOnes 32 <<< n) :
    (a &&& mask).toNat = a.toNat / 2 ^ n * 2 ^ n := by
  subst hm
  have : a &&& BitVec.allOnes 32 <<< n = (a >>> n) <<< n := by
    apply BitVec.eq_of_getLsbD_eq; intro i hi
    simp only [BitVec.getLsbD_and, BitVec.getLsbD_shiftLeft, BitVec.getLsbD_ushiftRight, BitVec.getLsbD_allOnes, hi,
      decide_true, Bool.true_and]
    by_cases h : i < n
    · simp [h]
    · simp [h, show n + (i - n) = i by omega, show i - n < 32 by omega]
  rw [this, BitVec.toNat_shiftLeft, BitVec.toNat_ushiftRight, Nat.shiftRight_eq_div_pow, Nat.shiftLeft_eq]
  exact Nat.mod_eq_of_lt (Nat.lt_of_le_of_lt (Nat.div_mul_le_self _ _) a.isLt)

theorem toNat_align2 (a : Word) : (align2 a).toNat = a.toNat / 2 * 2 := toNat_and_mask (n := 1) (by omega) rfl

theorem toNat_align4 (a : Word) : (align4 a).toNat = a.toNat / 4 * 4 := toNat_and_mask (n := 2) (by omega) rfl

theorem toNat_branchTarget {n : Nat} (base : Word) (off : BitVec n) :
    (branchTarget base off).toNat = (base + off.signExtend 32 <<< 4).toNat / 16 * 16 :=
  toNat_and_mask (n := 4) (by omega) rfl

/-! ## Translation keeps the place in the page (R38) -/

/-- The low 12 bits of a physical address are those of the virtual address (R38). -/
theorem State.translate_low {k : Access} {va pa : Word} (h : s.translate k va = some pa) :
    pa.toNat % 4096 = va.toNat % 4096 := by
  unfold State.translate at h
  split at h
  · cases h; rfl
  · next e _ =>
    cases hf : e.frame with
    | none => simp [hf] at h
    | some f =>
      simp only [hf, Option.map_some, Option.some.injEq] at h
      subst h
      have hl : (va.extractLsb' 0 12).toNat = va.toNat % 2 ^ 12 := by simp [BitVec.extractLsb'_toNat]
      have ha : BitVec.toNat (f ++ va.extractLsb' 0 12) = f.toNat * 2 ^ 12 + va.toNat % 2 ^ 12 := by
        rw [BitVec.toNat_append, hl, ← Nat.shiftLeft_add_eq_or_of_lt (Nat.mod_lt _ (by decide)), Nat.shiftLeft_eq]
      exact (congrArg (· % 4096) ha).trans (by omega)

/-- An access of 2 bytes at an aligned address stays aligned, so it does not pass the top of the address space. -/
theorem translate_align2 {k : Access} {va pa : Word} (h : s.translate k (align2 va) = some pa) :
    pa.toNat % 2 = 0 ∧ pa.toNat + 2 ≤ 2 ^ 32 := by
  have h1 := State.translate_low h; have h2 := toNat_align2 va; have := pa.isLt
  omega

/-- An access of 4 bytes at an aligned address stays aligned, so it does not pass the top of the address space. -/
theorem translate_align4 {k : Access} {va pa : Word} (h : s.translate k (align4 va) = some pa) :
    pa.toNat % 4 = 0 ∧ pa.toNat + 4 ≤ 2 ^ 32 := by
  have h1 := State.translate_low h; have h2 := toNat_align4 va; have := pa.isLt
  omega

/-! ## Little-endian bytes (R32) -/

/-- At the spec's default of DATA_ENDIAN the first byte is bits 7:0 (R32, D1; log 9). -/
theorem dataValue_eq (bs : List Byte) : dataValue bs = littleEndian bs := rfl

/-- At the spec's default of DATA_ENDIAN bits 7:0 come first (R32, D1; log 9). -/
theorem bytesOf_eq (n : Nat) (v : Word) : bytesOf n v = littleEndianBytes n v := rfl

/-- What a load of `n` bytes gives, at the spec's default of DATA_ENDIAN. -/
theorem Memory.load_eq (m : Memory) (pa : Word) (n : Nat) : m.load pa n = littleEndian (m.readBytes pa n) := rfl

theorem littleEndian_cons (b : Byte) (bs : List Byte) :
    (littleEndian (b :: bs)) = (littleEndian bs <<< 8) ||| b.setWidth 32 := rfl

/-- Byte `k` of the little-endian bytes of a value is its bits from 8k up. -/
theorem getElem_littleEndianBytes {n : Nat} {v : Word} {k : Nat} (h : k < (littleEndianBytes n v).length) :
    (littleEndianBytes n v)[k] = v.extractLsb' (8 * k) 8 := by
  induction n generalizing v k with
  | zero => simp [littleEndianBytes] at h
  | succ n ih =>
    cases k with
    | zero =>
      apply BitVec.eq_of_getLsbD_eq; intro i hi
      simp [littleEndianBytes, hi]
    | succ k =>
      simp only [littleEndianBytes, List.length_cons, Nat.add_lt_add_iff_right] at h
      simp only [littleEndianBytes, List.getElem_cons_succ, ih h]
      apply BitVec.eq_of_getLsbD_eq; intro i hi
      simp [hi, show 8 + (8 * k + i) = 8 * (k + 1) + i by omega]

/-- Byte `k` of the stored bytes of a value, at the spec's default of DATA_ENDIAN, is its bits from 8k up. -/
theorem getElem_bytesOf {n : Nat} {v : Word} {k : Nat} (h : k < (bytesOf n v).length) :
    (bytesOf n v)[k] = v.extractLsb' (8 * k) 8 := getElem_littleEndianBytes h

/-- One byte as a value. -/
theorem littleEndian_one (b : Byte) : littleEndian [b] = 0#24 ++ b := by
  apply BitVec.eq_of_getLsbD_eq; intro i hi
  simp only [littleEndian, BitVec.getLsbD_append, BitVec.getLsbD_or, BitVec.getLsbD_shiftLeft, BitVec.getLsbD_setWidth]
  by_cases h0 : i < 8
  · simp [h0, hi]
  · simp [h0, hi, b.getLsbD_of_ge i (by omega)]

/-- Two bytes as a value. -/
theorem littleEndian_two (b0 b1 : Byte) : littleEndian [b0, b1] = 0#16 ++ b1 ++ b0 := by
  apply BitVec.eq_of_getLsbD_eq; intro i hi
  simp only [littleEndian, BitVec.getLsbD_append, BitVec.getLsbD_or, BitVec.getLsbD_shiftLeft, BitVec.getLsbD_setWidth]
  by_cases h0 : i < 8
  · simp [h0, hi]
  · by_cases h1 : i - 8 < 8
    · simp [h0, h1, hi, show i - 8 < 32 by omega, b0.getLsbD_of_ge i (by omega)]
    · simp [h0, h1, hi, show i - 8 < 32 by omega, b0.getLsbD_of_ge i (by omega), b1.getLsbD_of_ge (i - 8) (by omega)]

/-- Four bytes as a value. -/
theorem littleEndian_four (b0 b1 b2 b3 : Byte) : littleEndian [b0, b1, b2, b3] = b3 ++ b2 ++ b1 ++ b0 := by
  apply BitVec.eq_of_getLsbD_eq; intro i hi
  simp only [littleEndian, BitVec.getLsbD_append, BitVec.getLsbD_or, BitVec.getLsbD_shiftLeft, BitVec.getLsbD_setWidth]
  by_cases h0 : i < 8
  · simp [h0, hi]
  · have e0 := b0.getLsbD_of_ge i (by omega)
    have l1 : i - 8 < 32 := by omega
    by_cases h1 : i - 8 < 8
    · simp [h0, h1, hi, l1, e0]
    · have e1 := b1.getLsbD_of_ge (i - 8) (by omega)
      have l2 : i - 8 - 8 < 32 := by omega
      by_cases h2 : i - 8 - 8 < 8
      · simp [h0, h1, h2, hi, l1, l2, e0, e1]
      · have e2 := b2.getLsbD_of_ge (i - 8 - 8) (by omega)
        have l3 : i - 8 - 8 - 8 < 32 := by omega
        simp [h0, h1, h2, hi, l1, l2, l3, e0, e1, e2]

/-! ## The marks of stored bytes (R45) -/

/-- Marking bytes as stored marks exactly them. -/
theorem Marks.get_stored {m : Marks} {pa : Word} {n : Nat} (hm : m.wf) (hw : pa.toNat + n ≤ 2 ^ 32) (a : Nat) :
    assocGet (m.stored pa n) a = if pa.toNat ≤ a ∧ a < pa.toNat + n then some .stored else assocGet m a := by
  induction n generalizing m pa with
  | zero => simp [Marks.stored]
  | succ n ih =>
    have hs := Marks.set_wf (some .stored) hm pa.isLt
    unfold Marks.stored
    rcases Nat.eq_zero_or_pos n with rfl | hn
    · simp only [Marks.stored]
      by_cases h : a = pa.toNat
      · subst h; simp [assocGet_assocSet_self hm.1]
      · rw [assocGet_assocSet_of_ne h, if_neg (by omega)]
    · have h1 := toNat_add_one hw hn
      rw [ih hs (by omega), h1]
      by_cases h : a = pa.toNat
      · subst h; simp [assocGet_assocSet_self hm.1]
      · rw [assocGet_assocSet_of_ne h]; congr 1; simp only [eq_iff_iff]; omega

/-- Clearing marks clears exactly those of the range. -/
theorem Marks.get_clear {m : Marks} {pa : Word} {n : Nat} (hm : m.wf) (hw : pa.toNat + n ≤ 2 ^ 32) (a : Nat) :
    assocGet (m.clear pa n) a = if pa.toNat ≤ a ∧ a < pa.toNat + n then none else assocGet m a := by
  induction n generalizing m pa with
  | zero => simp [Marks.clear]
  | succ n ih =>
    have hs := Marks.set_wf none hm pa.isLt
    unfold Marks.clear
    rcases Nat.eq_zero_or_pos n with rfl | hn
    · simp only [Marks.clear]
      by_cases h : a = pa.toNat
      · subst h; simp [assocGet_assocSet_self hm.1]
      · rw [assocGet_assocSet_of_ne h, if_neg (by omega)]
    · have h1 := toNat_add_one hw hn
      rw [ih hs (by omega), h1]
      by_cases h : a = pa.toNat
      · subst h; simp [assocGet_assocSet_self hm.1]
      · rw [assocGet_assocSet_of_ne h]; congr 1; simp only [eq_iff_iff]; omega

/-- Flushing bytes moves the marks of exactly them. -/
theorem Marks.get_flushBytes {m : Marks} {target : FlushTarget} {pa : Word} {n : Nat} (hm : m.wf)
    (hw : pa.toNat + n ≤ 2 ^ 32) (a : Nat) :
    assocGet (m.flushBytes target pa n) a =
      if pa.toNat ≤ a ∧ a < pa.toNat + n then flushedMark target (assocGet m a) else assocGet m a := by
  induction n generalizing m pa with
  | zero => simp [Marks.flushBytes]
  | succ n ih =>
    have hs := Marks.set_wf (flushedMark target (assocGet m pa.toNat)) hm pa.isLt
    unfold Marks.flushBytes
    rcases Nat.eq_zero_or_pos n with rfl | hn
    · simp only [Marks.flushBytes]
      by_cases h : a = pa.toNat
      · subst h; simp [assocGet_assocSet_self hm.1]
      · rw [assocGet_assocSet_of_ne h, if_neg (by omega)]
    · have h1 := toNat_add_one hw hn
      rw [ih hs (by omega), h1]
      by_cases h : a = pa.toNat
      · subst h; simp [assocGet_assocSet_self hm.1]
      · rw [assocGet_assocSet_of_ne h]; congr 1; simp only [eq_iff_iff]; omega

/-- A FLUSH moves the marks of the four bytes of the addressed word. -/
theorem Marks.get_flush {m : Marks} {target : FlushTarget} {pa : Word} (hm : m.wf) (a : Nat) :
    assocGet (m.flush target pa) a =
      if a / 4 = pa.toNat / 4 then flushedMark target (assocGet m a) else assocGet m a := by
  have h := toNat_align4 pa
  unfold align4 at h
  unfold Marks.flush
  rw [Marks.get_flushBytes hm (by have := pa.isLt; omega), h]
  congr 1; simp only [eq_iff_iff]; omega

/-- One of `n` bytes is marked. -/
theorem Marks.anyMarked_iff {m : Marks} {pa : Word} {n : Nat} (hw : pa.toNat + n ≤ 2 ^ 32) :
    m.anyMarked pa n = true ↔ ∃ k < n, (assocGet m (pa.toNat + k)).isSome = true := by
  induction n generalizing pa with
  | zero => simp [Marks.anyMarked]
  | succ n ih =>
    unfold Marks.anyMarked
    rcases Nat.eq_zero_or_pos n with rfl | hn
    · simp [Marks.anyMarked]
    · have h1 := toNat_add_one hw hn
      rw [Bool.or_eq_true, ih (by omega), h1]
      constructor
      · rintro (h | ⟨k, hk, h⟩)
        · exact ⟨0, by omega, h⟩
        · exact ⟨k + 1, by omega, by rwa [show pa.toNat + (k + 1) = pa.toNat + 1 + k by omega]⟩
      · rintro ⟨k, hk, h⟩
        cases k with
        | zero => exact .inl h
        | succ k => exact .inr ⟨k, by omega, by rwa [show pa.toNat + 1 + k = pa.toNat + (k + 1) by omega]⟩

end Sys2Proof.Machine
end

