-- ==== Sys2Proof/Laws/Packet.lean ====
section
/-! SUPPORT. Once: what a packet and a step can answer as a next state. -/

namespace Sys2Proof.Machine

variable {s t : State}

/-- The interrupt schedule moves on by one step; nothing else changes. -/
def State.nextIrqs (s : State) : State := { s with irqs := s.irqs.tail }

/-- What the slots of a packet collect together. -/
def packetEffects (is : List Instr) (s : State) : List Effect := (is.map fun i => exec i s).flatMap collectedBy

/-- What a packet commits: every effect is one that some instruction of it collected when executed alone, no two
conflict. -/
structure PacketCollects (is : List Instr) (s : State) (es : List Effect) : Prop where
  eq : es = packetEffects is s
  fromSlots : ∀ e ∈ es, ∃ i ∈ is, ∃ es', exec i s = .next (s.commit es') ∧ Collects i s es' ∧ e ∈ es'
  noConflict : conflictFree es = true

/-- Everything a packet can answer as a next state: trap entry, or the commit of all that its slots collected. -/
theorem runPacket_next {is : List Instr} (h : runPacket is s = .next t) :
    (∃ c, t = s.enterTrap c) ∨ ∃ es, t = s.commit es ∧ PacketCollects is s es := by
  unfold runPacket at h
  simp only at h
  split at h
  · cases h; exact .inl ⟨_, rfl⟩
  · next hf =>
    split at h
    · next stop hs =>
      have := List.find?_some hs
      subst h; simp [isStop] at this
    · split at h
      · next hc =>
        cases h
        refine .inr ⟨_, rfl, rfl, fun e he => ?_, hc⟩
        obtain ⟨o, ho, heo⟩ := List.mem_flatMap.1 he
        obtain ⟨i, hi, rfl⟩ := List.mem_map.1 ho
        cases hx : exec i s with
        | next u =>
          rw [hx] at heo
          rcases exec_answers i s u hx with ⟨c, rfl⟩ | ⟨es', rfl, hc'⟩
          · simp only [collectedBy, enterTrap_collected, List.mem_singleton] at heo
            subst heo
            exact absurd he (firstTrap_eq_none.1 hf c)
          · exact ⟨i, hi, es', hx, hc', by simpa [collectedBy] using heo⟩
        | fault => rw [hx] at heo; simp [collectedBy] at heo
        | refused => rw [hx] at heo; simp [collectedBy] at heo
      · cases h

/-- Everything a step can answer as a next state: trap entry, or the commit of a fetched and decoded packet. -/
theorem step_next (h : step s = .next t) :
    (∃ c, t = s.nextIrqs.enterTrap c) ∨
      ∃ ws is es, s.nextIrqs.fetch = .words ws ∧ decodePacket ws = .ok is ∧
        t = s.nextIrqs.commit es ∧ PacketCollects is s.nextIrqs es := by
  change stepPacket s = .next t at h
  unfold stepPacket at h
  simp only at h
  split at h
  · cases h; exact .inl ⟨_, rfl⟩
  · split at h
    · cases h; exact .inl ⟨_, rfl⟩
    · cases h
    · cases h
    · next ws hw =>
      unfold runWords at h
      split at h
      · next is hd =>
        rcases runPacket_next h with h | ⟨es, ht, hc⟩
        · exact .inl h
        · exact .inr ⟨ws, is, es, hw, hd, ht, hc⟩
      · cases h
      · cases h; exact .inl ⟨_, rfl⟩

/-- A fetch that reaches memory without a marked byte gives the four words at the pc. -/
theorem State.fetch_words {pa : Word} (h : s.translate .fetch s.pc = some pa) (hb : s.backed pa 16 = true)
    (hm : s.marks.anyMarked pa 16 = false) :
    s.fetch = .words
      [s.mem.fetchWord pa, s.mem.fetchWord (pa + 4), s.mem.fetchWord (pa + 8), s.mem.fetchWord (pa + 12)] := by
  unfold State.fetch
  rw [State.reach_memory.2 ⟨h, hb⟩]; simp [hm]

@[simp] theorem nextIrqs_mode (s : State) : s.nextIrqs.mode = s.mode := rfl
@[simp] theorem nextIrqs_mem (s : State) : s.nextIrqs.mem = s.mem := rfl
@[simp] theorem nextIrqs_marks (s : State) : s.nextIrqs.marks = s.marks := rfl
@[simp] theorem nextIrqs_pc (s : State) : s.nextIrqs.pc = s.pc := rfl
@[simp] theorem nextIrqs_params (s : State) : s.nextIrqs.params = s.params := rfl

/-- A NOP collects nothing. -/
theorem exec_nop (s : State) : exec nopInstr s = .next (s.advance []) := rfl

/-- A packet of one instruction and NOPs is that instruction: its next state reports what it committed. -/
theorem runPacket_alone_next {i : Instr} (h : exec i s = .next t) (n : Nat) :
    runPacket (i :: List.replicate n nopInstr) s = .next t := by
  have hn : ((List.replicate n nopInstr).map fun i => exec i s).flatMap collectedBy = [] := by
    simp [exec_nop, collectedBy]
  have hs : ((List.replicate n nopInstr).map fun i => exec i s).find? isStop = none := by
    rw [List.find?_eq_none]; intro o ho
    obtain ⟨j, hj, rfl⟩ := List.mem_map.1 ho
    obtain ⟨-, rfl⟩ := List.mem_replicate.1 hj
    simp [exec_nop, isStop]
  unfold runPacket
  rcases exec_answers i s t h with ⟨c, rfl⟩ | ⟨es, rfl, hc⟩
  · simp [h, collectedBy, firstTrap]
  · have hf : firstTrap es = none := firstTrap_eq_none.2 fun c hm => by simpa [mayCollect] using hc.kinds _ hm
    simp only [List.map_cons, List.flatMap_cons, h, collectedBy, State.commit_collected, hn, List.append_nil, hf,
      List.find?_cons, isStop, hs, hc.noConflict, if_true]

end Sys2Proof.Machine
end

