-- ==== Sys2Proof/Laws/PerInstr.lean ====
section
/-! SUPPORT. A statement made per instruction: the encoder writes as many words as the instruction takes slots (R60, R81). -/

open Sys2Proof

/-- The encoding of an instruction has one word for each slot it takes (R60, R81). -/
def Sys2Proof.Laws.EncodedLength.Statement (i : Instr) : Prop := (encode i).length = i.slots

theorem Sys2Proof.Laws.EncodedLength.addI : ∀ a b c d e, Sys2Proof.Laws.EncodedLength.Statement (.addI a b c d e) :=
  fun _ _ _ _ _ => rfl
theorem Sys2Proof.Laws.EncodedLength.addS : ∀ a b c d e f, Sys2Proof.Laws.EncodedLength.Statement (.addS a b c d e f) :=
  fun _ _ _ _ _ _ => rfl
theorem Sys2Proof.Laws.EncodedLength.addL : ∀ a b c d, Sys2Proof.Laws.EncodedLength.Statement (.addL a b c d) :=
  fun _ _ _ _ => rfl
theorem Sys2Proof.Laws.EncodedLength.andI : ∀ a b c d e, Sys2Proof.Laws.EncodedLength.Statement (.andI a b c d e) :=
  fun _ _ _ _ _ => rfl
theorem Sys2Proof.Laws.EncodedLength.andS : ∀ a b c d e f, Sys2Proof.Laws.EncodedLength.Statement (.andS a b c d e f) :=
  fun _ _ _ _ _ _ => rfl
theorem Sys2Proof.Laws.EncodedLength.andL : ∀ a b c d, Sys2Proof.Laws.EncodedLength.Statement (.andL a b c d) :=
  fun _ _ _ _ => rfl
theorem Sys2Proof.Laws.EncodedLength.norI : ∀ a b c d e, Sys2Proof.Laws.EncodedLength.Statement (.norI a b c d e) :=
  fun _ _ _ _ _ => rfl
theorem Sys2Proof.Laws.EncodedLength.norS : ∀ a b c d e f, Sys2Proof.Laws.EncodedLength.Statement (.norS a b c d e f) :=
  fun _ _ _ _ _ _ => rfl
theorem Sys2Proof.Laws.EncodedLength.norL : ∀ a b c d, Sys2Proof.Laws.EncodedLength.Statement (.norL a b c d) :=
  fun _ _ _ _ => rfl
theorem Sys2Proof.Laws.EncodedLength.orI : ∀ a b c d e, Sys2Proof.Laws.EncodedLength.Statement (.orI a b c d e) :=
  fun _ _ _ _ _ => rfl
theorem Sys2Proof.Laws.EncodedLength.orS : ∀ a b c d e f, Sys2Proof.Laws.EncodedLength.Statement (.orS a b c d e f) :=
  fun _ _ _ _ _ _ => rfl
theorem Sys2Proof.Laws.EncodedLength.orL : ∀ a b c d, Sys2Proof.Laws.EncodedLength.Statement (.orL a b c d) :=
  fun _ _ _ _ => rfl
theorem Sys2Proof.Laws.EncodedLength.subI : ∀ a b c d e, Sys2Proof.Laws.EncodedLength.Statement (.subI a b c d e) :=
  fun _ _ _ _ _ => rfl
theorem Sys2Proof.Laws.EncodedLength.subS : ∀ a b c d e f, Sys2Proof.Laws.EncodedLength.Statement (.subS a b c d e f) :=
  fun _ _ _ _ _ _ => rfl
theorem Sys2Proof.Laws.EncodedLength.subL : ∀ a b c d, Sys2Proof.Laws.EncodedLength.Statement (.subL a b c d) :=
  fun _ _ _ _ => rfl
theorem Sys2Proof.Laws.EncodedLength.rsbI : ∀ a b c d e, Sys2Proof.Laws.EncodedLength.Statement (.rsbI a b c d e) :=
  fun _ _ _ _ _ => rfl
theorem Sys2Proof.Laws.EncodedLength.rsbS : ∀ a b c d e f, Sys2Proof.Laws.EncodedLength.Statement (.rsbS a b c d e f) :=
  fun _ _ _ _ _ _ => rfl
theorem Sys2Proof.Laws.EncodedLength.rsbL : ∀ a b c d, Sys2Proof.Laws.EncodedLength.Statement (.rsbL a b c d) :=
  fun _ _ _ _ => rfl
theorem Sys2Proof.Laws.EncodedLength.xorI : ∀ a b c d e, Sys2Proof.Laws.EncodedLength.Statement (.xorI a b c d e) :=
  fun _ _ _ _ _ => rfl
theorem Sys2Proof.Laws.EncodedLength.xorS : ∀ a b c d e f, Sys2Proof.Laws.EncodedLength.Statement (.xorS a b c d e f) :=
  fun _ _ _ _ _ _ => rfl
theorem Sys2Proof.Laws.EncodedLength.xorL : ∀ a b c d, Sys2Proof.Laws.EncodedLength.Statement (.xorL a b c d) :=
  fun _ _ _ _ => rfl
theorem Sys2Proof.Laws.EncodedLength.cmpltuI : ∀ a b c d e, Sys2Proof.Laws.EncodedLength.Statement (.cmpltuI a b c d e) :=
  fun _ _ _ _ _ => rfl
theorem Sys2Proof.Laws.EncodedLength.cmpltuS : ∀ a b c d e f, Sys2Proof.Laws.EncodedLength.Statement (.cmpltuS a b c d e f) :=
  fun _ _ _ _ _ _ => rfl
theorem Sys2Proof.Laws.EncodedLength.cmpltuL : ∀ a b c d, Sys2Proof.Laws.EncodedLength.Statement (.cmpltuL a b c d) :=
  fun _ _ _ _ => rfl
theorem Sys2Proof.Laws.EncodedLength.cmpleuI : ∀ a b c d e, Sys2Proof.Laws.EncodedLength.Statement (.cmpleuI a b c d e) :=
  fun _ _ _ _ _ => rfl
theorem Sys2Proof.Laws.EncodedLength.cmpleuS : ∀ a b c d e f, Sys2Proof.Laws.EncodedLength.Statement (.cmpleuS a b c d e f) :=
  fun _ _ _ _ _ _ => rfl
theorem Sys2Proof.Laws.EncodedLength.cmpleuL : ∀ a b c d, Sys2Proof.Laws.EncodedLength.Statement (.cmpleuL a b c d) :=
  fun _ _ _ _ => rfl
theorem Sys2Proof.Laws.EncodedLength.cmpeqI : ∀ a b c d e, Sys2Proof.Laws.EncodedLength.Statement (.cmpeqI a b c d e) :=
  fun _ _ _ _ _ => rfl
theorem Sys2Proof.Laws.EncodedLength.cmpeqS : ∀ a b c d e f, Sys2Proof.Laws.EncodedLength.Statement (.cmpeqS a b c d e f) :=
  fun _ _ _ _ _ _ => rfl
theorem Sys2Proof.Laws.EncodedLength.cmpeqL : ∀ a b c d, Sys2Proof.Laws.EncodedLength.Statement (.cmpeqL a b c d) :=
  fun _ _ _ _ => rfl
theorem Sys2Proof.Laws.EncodedLength.cmpltsI : ∀ a b c d e, Sys2Proof.Laws.EncodedLength.Statement (.cmpltsI a b c d e) :=
  fun _ _ _ _ _ => rfl
theorem Sys2Proof.Laws.EncodedLength.cmpltsS : ∀ a b c d e f, Sys2Proof.Laws.EncodedLength.Statement (.cmpltsS a b c d e f) :=
  fun _ _ _ _ _ _ => rfl
theorem Sys2Proof.Laws.EncodedLength.cmpltsL : ∀ a b c d, Sys2Proof.Laws.EncodedLength.Statement (.cmpltsL a b c d) :=
  fun _ _ _ _ => rfl
theorem Sys2Proof.Laws.EncodedLength.cmplesI : ∀ a b c d e, Sys2Proof.Laws.EncodedLength.Statement (.cmplesI a b c d e) :=
  fun _ _ _ _ _ => rfl
theorem Sys2Proof.Laws.EncodedLength.cmplesS : ∀ a b c d e f, Sys2Proof.Laws.EncodedLength.Statement (.cmplesS a b c d e f) :=
  fun _ _ _ _ _ _ => rfl
theorem Sys2Proof.Laws.EncodedLength.cmplesL : ∀ a b c d, Sys2Proof.Laws.EncodedLength.Statement (.cmplesL a b c d) :=
  fun _ _ _ _ => rfl
theorem Sys2Proof.Laws.EncodedLength.cmpbsI : ∀ a b c d e, Sys2Proof.Laws.EncodedLength.Statement (.cmpbsI a b c d e) :=
  fun _ _ _ _ _ => rfl
theorem Sys2Proof.Laws.EncodedLength.cmpbsS : ∀ a b c d e f, Sys2Proof.Laws.EncodedLength.Statement (.cmpbsS a b c d e f) :=
  fun _ _ _ _ _ _ => rfl
theorem Sys2Proof.Laws.EncodedLength.cmpbsL : ∀ a b c d, Sys2Proof.Laws.EncodedLength.Statement (.cmpbsL a b c d) :=
  fun _ _ _ _ => rfl
theorem Sys2Proof.Laws.EncodedLength.cmpbcI : ∀ a b c d e, Sys2Proof.Laws.EncodedLength.Statement (.cmpbcI a b c d e) :=
  fun _ _ _ _ _ => rfl
theorem Sys2Proof.Laws.EncodedLength.cmpbcS : ∀ a b c d e f, Sys2Proof.Laws.EncodedLength.Statement (.cmpbcS a b c d e f) :=
  fun _ _ _ _ _ _ => rfl
theorem Sys2Proof.Laws.EncodedLength.cmpbcL : ∀ a b c d, Sys2Proof.Laws.EncodedLength.Statement (.cmpbcL a b c d) :=
  fun _ _ _ _ => rfl
theorem Sys2Proof.Laws.EncodedLength.movI : ∀ a b c d, Sys2Proof.Laws.EncodedLength.Statement (.movI a b c d) :=
  fun _ _ _ _ => rfl
theorem Sys2Proof.Laws.EncodedLength.movS : ∀ a b c d e, Sys2Proof.Laws.EncodedLength.Statement (.movS a b c d e) :=
  fun _ _ _ _ _ => rfl
theorem Sys2Proof.Laws.EncodedLength.movR : ∀ a b c d e, Sys2Proof.Laws.EncodedLength.Statement (.movR a b c d e) :=
  fun _ _ _ _ _ => rfl
theorem Sys2Proof.Laws.EncodedLength.movL : ∀ a b c, Sys2Proof.Laws.EncodedLength.Statement (.movL a b c) :=
  fun _ _ _ => rfl
theorem Sys2Proof.Laws.EncodedLength.mvnI : ∀ a b c d, Sys2Proof.Laws.EncodedLength.Statement (.mvnI a b c d) :=
  fun _ _ _ _ => rfl
theorem Sys2Proof.Laws.EncodedLength.mvnS : ∀ a b c d e, Sys2Proof.Laws.EncodedLength.Statement (.mvnS a b c d e) :=
  fun _ _ _ _ _ => rfl
theorem Sys2Proof.Laws.EncodedLength.mvnR : ∀ a b c d e, Sys2Proof.Laws.EncodedLength.Statement (.mvnR a b c d e) :=
  fun _ _ _ _ _ => rfl
theorem Sys2Proof.Laws.EncodedLength.mvnL : ∀ a b c, Sys2Proof.Laws.EncodedLength.Statement (.mvnL a b c) :=
  fun _ _ _ => rfl
theorem Sys2Proof.Laws.EncodedLength.sxbI : ∀ a b c d, Sys2Proof.Laws.EncodedLength.Statement (.sxbI a b c d) :=
  fun _ _ _ _ => rfl
theorem Sys2Proof.Laws.EncodedLength.sxbS : ∀ a b c d e, Sys2Proof.Laws.EncodedLength.Statement (.sxbS a b c d e) :=
  fun _ _ _ _ _ => rfl
theorem Sys2Proof.Laws.EncodedLength.sxbR : ∀ a b c d e, Sys2Proof.Laws.EncodedLength.Statement (.sxbR a b c d e) :=
  fun _ _ _ _ _ => rfl
theorem Sys2Proof.Laws.EncodedLength.sxbL : ∀ a b c, Sys2Proof.Laws.EncodedLength.Statement (.sxbL a b c) :=
  fun _ _ _ => rfl
theorem Sys2Proof.Laws.EncodedLength.sxhI : ∀ a b c d, Sys2Proof.Laws.EncodedLength.Statement (.sxhI a b c d) :=
  fun _ _ _ _ => rfl
theorem Sys2Proof.Laws.EncodedLength.sxhS : ∀ a b c d e, Sys2Proof.Laws.EncodedLength.Statement (.sxhS a b c d e) :=
  fun _ _ _ _ _ => rfl
theorem Sys2Proof.Laws.EncodedLength.sxhR : ∀ a b c d e, Sys2Proof.Laws.EncodedLength.Statement (.sxhR a b c d e) :=
  fun _ _ _ _ _ => rfl
theorem Sys2Proof.Laws.EncodedLength.sxhL : ∀ a b c, Sys2Proof.Laws.EncodedLength.Statement (.sxhL a b c) :=
  fun _ _ _ => rfl
theorem Sys2Proof.Laws.EncodedLength.bP : ∀ a b, Sys2Proof.Laws.EncodedLength.Statement (.bP a b) :=
  fun _ _ => rfl
theorem Sys2Proof.Laws.EncodedLength.bR : ∀ a b c, Sys2Proof.Laws.EncodedLength.Statement (.bR a b c) :=
  fun _ _ _ => rfl
theorem Sys2Proof.Laws.EncodedLength.blP : ∀ a b, Sys2Proof.Laws.EncodedLength.Statement (.blP a b) :=
  fun _ _ => rfl
theorem Sys2Proof.Laws.EncodedLength.blR : ∀ a b c, Sys2Proof.Laws.EncodedLength.Statement (.blR a b c) :=
  fun _ _ _ => rfl
theorem Sys2Proof.Laws.EncodedLength.lb : ∀ a b c d, Sys2Proof.Laws.EncodedLength.Statement (.lb a b c d) :=
  fun _ _ _ _ => rfl
theorem Sys2Proof.Laws.EncodedLength.lh : ∀ a b c d, Sys2Proof.Laws.EncodedLength.Statement (.lh a b c d) :=
  fun _ _ _ _ => rfl
theorem Sys2Proof.Laws.EncodedLength.lw : ∀ a b c d, Sys2Proof.Laws.EncodedLength.Statement (.lw a b c d) :=
  fun _ _ _ _ => rfl
theorem Sys2Proof.Laws.EncodedLength.ll : ∀ a b c d, Sys2Proof.Laws.EncodedLength.Statement (.ll a b c d) :=
  fun _ _ _ _ => rfl
theorem Sys2Proof.Laws.EncodedLength.sb : ∀ a b c d, Sys2Proof.Laws.EncodedLength.Statement (.sb a b c d) :=
  fun _ _ _ _ => rfl
theorem Sys2Proof.Laws.EncodedLength.sh : ∀ a b c d, Sys2Proof.Laws.EncodedLength.Statement (.sh a b c d) :=
  fun _ _ _ _ => rfl
theorem Sys2Proof.Laws.EncodedLength.sw : ∀ a b c d, Sys2Proof.Laws.EncodedLength.Statement (.sw a b c d) :=
  fun _ _ _ _ => rfl
theorem Sys2Proof.Laws.EncodedLength.sc : ∀ a b c d, Sys2Proof.Laws.EncodedLength.Statement (.sc a b c d) :=
  fun _ _ _ _ => rfl
theorem Sys2Proof.Laws.EncodedLength.brk : ∀ a, Sys2Proof.Laws.EncodedLength.Statement (.brk a) :=
  fun _ => rfl
theorem Sys2Proof.Laws.EncodedLength.syscall : ∀ a, Sys2Proof.Laws.EncodedLength.Statement (.syscall a) :=
  fun _ => rfl
theorem Sys2Proof.Laws.EncodedLength.fence : ∀ a, Sys2Proof.Laws.EncodedLength.Statement (.fence a) :=
  fun _ => rfl
theorem Sys2Proof.Laws.EncodedLength.eret : ∀ a, Sys2Proof.Laws.EncodedLength.Statement (.eret a) :=
  fun _ => rfl
theorem Sys2Proof.Laws.EncodedLength.flush : ∀ a b c, Sys2Proof.Laws.EncodedLength.Statement (.flush a b c) :=
  fun _ _ _ => rfl
theorem Sys2Proof.Laws.EncodedLength.mfc : ∀ a b c, Sys2Proof.Laws.EncodedLength.Statement (.mfc a b c) :=
  fun _ _ _ => rfl
theorem Sys2Proof.Laws.EncodedLength.mtc : ∀ a b c, Sys2Proof.Laws.EncodedLength.Statement (.mtc a b c) :=
  fun _ _ _ => rfl
theorem Sys2Proof.Laws.EncodedLength.mult : ∀ a b c d, Sys2Proof.Laws.EncodedLength.Statement (.mult a b c d) :=
  fun _ _ _ _ => rfl
theorem Sys2Proof.Laws.EncodedLength.mults : ∀ a b c d, Sys2Proof.Laws.EncodedLength.Statement (.mults a b c d) :=
  fun _ _ _ _ => rfl
theorem Sys2Proof.Laws.EncodedLength.div : ∀ a b c d, Sys2Proof.Laws.EncodedLength.Statement (.div a b c d) :=
  fun _ _ _ _ => rfl
theorem Sys2Proof.Laws.EncodedLength.mfhi : ∀ a b, Sys2Proof.Laws.EncodedLength.Statement (.mfhi a b) :=
  fun _ _ => rfl
theorem Sys2Proof.Laws.EncodedLength.mthi : ∀ a b, Sys2Proof.Laws.EncodedLength.Statement (.mthi a b) :=
  fun _ _ => rfl
end

