-- ==== Sys2Proof/Tests/Slice0.lean ====
section
/-! SUPPORT. Tests. Words, packets and results come from the encoding rules R61 to R77, the rules they name and the vectors of
spec/95_test_vectors.md, never from the model; and for each statement with hypotheses, a state and operands that meet them. -/

open Sys2Proof Sys2Proof.Machine

namespace Sys2Proof.Tests

/-! ## Helpers -/

/-- Kernel mode at pc 100H, the handler at 200H, CPR_EPC = 3 and CPR_MAP = {5}, every page and address present. -/
def base : State :=
  { State.reset with
    pc := 0x100
    params := { excHandler := 0x20, cprEpc := 3, cprMap := 0x20, pages := [], memHoles := [] } }

/-- `base` with two registers given. -/
def two (r : RegNum) (v : Word) (r' : RegNum) (v' : Word) : State := (base.setReg r v).setReg r' v'

/-- `base` with the start memory of section 2.7 of the vectors and two registers given. -/
def data (r : RegNum) (v : Word) (r' : RegNum) (v' : Word) : State :=
  { two r v r' v' with mem := Memory.writeBytes [] 0x3000 [0xB3, 0xA2, 0x91, 0x80, 0x4C, 0x5D, 0x6E, 0x7F] }

/-- `base` with page 9 absent for every access in both modes, and a hole in memory from 20000H to 21000H. -/
def holed : State :=
  { base with
    params :=
      { base.params with
        pages := [⟨.kernel, .load, 9, none⟩, ⟨.kernel, .store, 9, none⟩, ⟨.kernel, .fetch, 9, none⟩,
          ⟨.user, .load, 9, none⟩, ⟨.user, .store, 9, none⟩, ⟨.user, .fetch, 9, none⟩, ⟨.kernel, .load, 10, some 0x8000A⟩]
        memHoles := [(0x20000, 0x21000)] } }

/-- `base` in user mode at pc 2000H with the link bit set, as the trap vectors start. -/
def user : State := { base with mode := .user, pc := 0x2000, link := true }

/-- A packet of the words given, filled with NOP (R85). -/
def fill (ws : List Word) : List Word := ws ++ List.replicate (4 - ws.length) nopWord

/-- What `f` gives of the state after decoding and running the packet. -/
def after {α : Type} (s : State) (ws : List Word) (f : State → α) : Option α :=
  match runWords (fill ws) s with
  | .next t => some (f t)
  | .fault _ => none
  | .refused _ => none

/-- The packet is refused with this name. -/
def refusedWith (s : State) (ws : List Word) (r : Refusal) : Bool :=
  match runWords (fill ws) s with
  | .next _ => false
  | .fault _ => false
  | .refused r' => r == r'

/-- `s` with the packet stored where its next step fetches. -/
def placed (s : State) (ws : List Word) : State := s.placePacket (fill ws)

/-- The next step of `s` gives a state that has `P`. -/
def stepMeets (s : State) (P : State → Bool) : Bool :=
  match step s with
  | .next t => P t
  | .fault _ => false
  | .refused _ => false

theorem exists_step {s : State} {P : State → Bool} (h : stepMeets s P = true) : ∃ t, step s = .next t ∧ P t = true := by
  unfold stepMeets at h
  split at h
  · exact ⟨_, by assumption, h⟩
  · cases h
  · cases h

/-- The word at a data address. -/
def mem32 (a : Word) (t : State) : Word := t.mem.load a 4

/-! ## WellFormed: each check refuses an ill-formed packet (R81, R82) -/

theorem test_wellFormed_accepts : wellFormedPacket [.bP ⟨3, false⟩ 2, .lw ⟨3, false⟩ 0 1 1, .movL ⟨3, false⟩ 5 0] = true := by
  decide

theorem test_wellFormed_refuses_control_in_slot_1 :
    wellFormedPacket [nopInstr, .bP ⟨3, false⟩ 2, nopInstr, nopInstr] = false := by decide

theorem test_wellFormed_refuses_memory_in_slot_2 :
    wellFormedPacket [nopInstr, nopInstr, .lw ⟨3, false⟩ 0 1 1, nopInstr] = false := by decide

theorem test_wellFormed_refuses_long_in_slot_3 :
    wellFormedPacket [nopInstr, nopInstr, nopInstr, .addL ⟨3, false⟩ 4 5 0] = false := by decide

theorem test_wellFormed_refuses_three_slots : wellFormedPacket [nopInstr, nopInstr, nopInstr] = false := by decide

theorem test_wellFormed_refuses_five_slots :
    wellFormedPacket [nopInstr, nopInstr, nopInstr, nopInstr, nopInstr] = false := by decide

/-! ## Decoding: for each constructor, a word written out field by field from its row of the opcode table -/

theorem test_decode_addI :
    decodeWord 0b110_0_1000000101_1101_0000_10011_01110 0 = .ok (.addI ⟨3, false⟩ 0x205 13 19 14) := by decide
theorem test_decode_addS :
    decodeWord 0b001_101_10001_01_11001_0000_10011_01110 0 = .ok (.addS ⟨0, true⟩ 17 .lsr 25 19 14) := by decide
theorem test_decode_addL :
    decodeWord 0b010_1000000000000000000_10011_01110 0x8000000b = .ok (.addL ⟨1, false⟩ 19 14 0x8000000b) := by decide
theorem test_decode_andI :
    decodeWord 0b101_0_1000000101_1101_0001_10011_01110 0 = .ok (.andI ⟨2, true⟩ 0x205 13 19 14) := by decide
theorem test_decode_andS :
    decodeWord 0b011_101_10001_00_11001_0001_10011_01110 0 = .ok (.andS ⟨1, true⟩ 17 .lsl 25 19 14) := by decide
theorem test_decode_andL :
    decodeWord 0b110_1000000000000000001_10011_01110 0x8000000b = .ok (.andL ⟨3, false⟩ 19 14 0x8000000b) := by decide
theorem test_decode_norI :
    decodeWord 0b001_0_1000000101_1101_0010_10011_01110 0 = .ok (.norI ⟨0, true⟩ 0x205 13 19 14) := by decide
theorem test_decode_norS :
    decodeWord 0b010_101_10001_11_11001_0010_10011_01110 0 = .ok (.norS ⟨1, false⟩ 17 .ror 25 19 14) := by decide
theorem test_decode_norL :
    decodeWord 0b101_1000000000000000010_10011_01110 0x8000000b = .ok (.norL ⟨2, true⟩ 19 14 0x8000000b) := by decide
theorem test_decode_orI :
    decodeWord 0b011_0_1000000101_1101_0011_10011_01110 0 = .ok (.orI ⟨1, true⟩ 0x205 13 19 14) := by decide
theorem test_decode_orS :
    decodeWord 0b110_101_10001_10_11001_0011_10011_01110 0 = .ok (.orS ⟨3, false⟩ 17 .asr 25 19 14) := by decide
theorem test_decode_orL :
    decodeWord 0b001_1000000000000000011_10011_01110 0x8000000b = .ok (.orL ⟨0, true⟩ 19 14 0x8000000b) := by decide
theorem test_decode_subI :
    decodeWord 0b010_0_1000000101_1101_0100_10011_01110 0 = .ok (.subI ⟨1, false⟩ 0x205 13 19 14) := by decide
theorem test_decode_subS :
    decodeWord 0b101_101_10001_01_11001_0100_10011_01110 0 = .ok (.subS ⟨2, true⟩ 17 .lsr 25 19 14) := by decide
theorem test_decode_subL :
    decodeWord 0b011_1000000000000000100_10011_01110 0x8000000b = .ok (.subL ⟨1, true⟩ 19 14 0x8000000b) := by decide
theorem test_decode_rsbI :
    decodeWord 0b110_0_1000000101_1101_0101_10011_01110 0 = .ok (.rsbI ⟨3, false⟩ 0x205 13 19 14) := by decide
theorem test_decode_rsbS :
    decodeWord 0b001_101_10001_00_11001_0101_10011_01110 0 = .ok (.rsbS ⟨0, true⟩ 17 .lsl 25 19 14) := by decide
theorem test_decode_rsbL :
    decodeWord 0b010_1000000000000000101_10011_01110 0x8000000b = .ok (.rsbL ⟨1, false⟩ 19 14 0x8000000b) := by decide
theorem test_decode_xorI :
    decodeWord 0b101_0_1000000101_1101_0110_10011_01110 0 = .ok (.xorI ⟨2, true⟩ 0x205 13 19 14) := by decide
theorem test_decode_xorS :
    decodeWord 0b011_101_10001_11_11001_0110_10011_01110 0 = .ok (.xorS ⟨1, true⟩ 17 .ror 25 19 14) := by decide
theorem test_decode_xorL :
    decodeWord 0b110_1000000000000000110_10011_01110 0x8000000b = .ok (.xorL ⟨3, false⟩ 19 14 0x8000000b) := by decide
theorem test_decode_cmpltuI :
    decodeWord 0b001_0_1000000101_1101_0111000_10_01110 0 = .ok (.cmpltuI ⟨0, true⟩ 0x205 13 2 14) := by decide
theorem test_decode_cmpltuS :
    decodeWord 0b010_101_10001_10_11001_0111000_10_01110 0 = .ok (.cmpltuS ⟨1, false⟩ 17 .asr 25 2 14) := by decide
theorem test_decode_cmpltuL :
    decodeWord 0b101_1000000000000000111000_10_01110 0x8000000b = .ok (.cmpltuL ⟨2, true⟩ 2 14 0x8000000b) := by decide
theorem test_decode_cmpleuI :
    decodeWord 0b011_0_1000000101_1101_0111001_10_01110 0 = .ok (.cmpleuI ⟨1, true⟩ 0x205 13 2 14) := by decide
theorem test_decode_cmpleuS :
    decodeWord 0b110_101_10001_01_11001_0111001_10_01110 0 = .ok (.cmpleuS ⟨3, false⟩ 17 .lsr 25 2 14) := by decide
theorem test_decode_cmpleuL :
    decodeWord 0b001_1000000000000000111001_10_01110 0x8000000b = .ok (.cmpleuL ⟨0, true⟩ 2 14 0x8000000b) := by decide
theorem test_decode_cmpeqI :
    decodeWord 0b010_0_1000000101_1101_0111010_10_01110 0 = .ok (.cmpeqI ⟨1, false⟩ 0x205 13 2 14) := by decide
theorem test_decode_cmpeqS :
    decodeWord 0b101_101_10001_00_11001_0111010_10_01110 0 = .ok (.cmpeqS ⟨2, true⟩ 17 .lsl 25 2 14) := by decide
theorem test_decode_cmpeqL :
    decodeWord 0b011_1000000000000000111010_10_01110 0x8000000b = .ok (.cmpeqL ⟨1, true⟩ 2 14 0x8000000b) := by decide
theorem test_decode_cmpltsI :
    decodeWord 0b110_0_1000000101_1101_0111100_10_01110 0 = .ok (.cmpltsI ⟨3, false⟩ 0x205 13 2 14) := by decide
theorem test_decode_cmpltsS :
    decodeWord 0b001_101_10001_11_11001_0111100_10_01110 0 = .ok (.cmpltsS ⟨0, true⟩ 17 .ror 25 2 14) := by decide
theorem test_decode_cmpltsL :
    decodeWord 0b010_1000000000000000111100_10_01110 0x8000000b = .ok (.cmpltsL ⟨1, false⟩ 2 14 0x8000000b) := by decide
theorem test_decode_cmplesI :
    decodeWord 0b101_0_1000000101_1101_0111101_10_01110 0 = .ok (.cmplesI ⟨2, true⟩ 0x205 13 2 14) := by decide
theorem test_decode_cmplesS :
    decodeWord 0b011_101_10001_10_11001_0111101_10_01110 0 = .ok (.cmplesS ⟨1, true⟩ 17 .asr 25 2 14) := by decide
theorem test_decode_cmplesL :
    decodeWord 0b110_1000000000000000111101_10_01110 0x8000000b = .ok (.cmplesL ⟨3, false⟩ 2 14 0x8000000b) := by decide
theorem test_decode_cmpbsI :
    decodeWord 0b001_0_1000000101_1101_0111110_10_01110 0 = .ok (.cmpbsI ⟨0, true⟩ 0x205 13 2 14) := by decide
theorem test_decode_cmpbsS :
    decodeWord 0b010_101_10001_01_11001_0111110_10_01110 0 = .ok (.cmpbsS ⟨1, false⟩ 17 .lsr 25 2 14) := by decide
theorem test_decode_cmpbsL :
    decodeWord 0b101_1000000000000000111110_10_01110 0x8000000b = .ok (.cmpbsL ⟨2, true⟩ 2 14 0x8000000b) := by decide
theorem test_decode_cmpbcI :
    decodeWord 0b011_0_1000000101_1101_0111111_10_01110 0 = .ok (.cmpbcI ⟨1, true⟩ 0x205 13 2 14) := by decide
theorem test_decode_cmpbcS :
    decodeWord 0b110_101_10001_00_11001_0111111_10_01110 0 = .ok (.cmpbcS ⟨3, false⟩ 17 .lsl 25 2 14) := by decide
theorem test_decode_cmpbcL :
    decodeWord 0b001_1000000000000000111111_10_01110 0x8000000b = .ok (.cmpbcL ⟨0, true⟩ 2 14 0x8000000b) := by decide
theorem test_decode_movI :
    decodeWord 0b010_0_1000000101_1101_1000_10011_01110 0 = .ok (.movI ⟨1, false⟩ 0x3a05 13 19) := by decide
theorem test_decode_movS :
    decodeWord 0b101_101_10001_11_11111_1000_10011_01110 0 = .ok (.movS ⟨2, true⟩ 17 .ror 19 14) := by decide
theorem test_decode_movR :
    decodeWord 0b011_10000001_00_11001_1000_10011_01110 0 = .ok (.movR ⟨1, true⟩ .lsl 25 19 14) := by decide
theorem test_decode_movL :
    decodeWord 0b110_1000000000000001000_10011_11111 0x8000000b = .ok (.movL ⟨3, false⟩ 19 0x8000000b) := by decide
theorem test_decode_mvnI :
    decodeWord 0b001_0_1000000101_1101_1001_10011_01110 0 = .ok (.mvnI ⟨0, true⟩ 0x3a05 13 19) := by decide
theorem test_decode_mvnS :
    decodeWord 0b010_101_10001_11_11111_1001_10011_01110 0 = .ok (.mvnS ⟨1, false⟩ 17 .ror 19 14) := by decide
theorem test_decode_mvnR :
    decodeWord 0b101_10000001_00_11001_1001_10011_01110 0 = .ok (.mvnR ⟨2, true⟩ .lsl 25 19 14) := by decide
theorem test_decode_mvnL :
    decodeWord 0b011_1000000000000001001_10011_11111 0x8000000b = .ok (.mvnL ⟨1, true⟩ 19 0x8000000b) := by decide
theorem test_decode_sxbI :
    decodeWord 0b110_0_1000000101_1101_1010_10011_01110 0 = .ok (.sxbI ⟨3, false⟩ 0x3a05 13 19) := by decide
theorem test_decode_sxbS :
    decodeWord 0b001_101_10001_11_11111_1010_10011_01110 0 = .ok (.sxbS ⟨0, true⟩ 17 .ror 19 14) := by decide
theorem test_decode_sxbR :
    decodeWord 0b010_10000001_00_11001_1010_10011_01110 0 = .ok (.sxbR ⟨1, false⟩ .lsl 25 19 14) := by decide
theorem test_decode_sxbL :
    decodeWord 0b101_1000000000000001010_10011_11111 0x8000000b = .ok (.sxbL ⟨2, true⟩ 19 0x8000000b) := by decide
theorem test_decode_sxhI :
    decodeWord 0b011_0_1000000101_1101_1011_10011_01110 0 = .ok (.sxhI ⟨1, true⟩ 0x3a05 13 19) := by decide
theorem test_decode_sxhS :
    decodeWord 0b110_101_10001_11_11111_1011_10011_01110 0 = .ok (.sxhS ⟨3, false⟩ 17 .ror 19 14) := by decide
theorem test_decode_sxhR :
    decodeWord 0b001_10000001_00_11001_1011_10011_01110 0 = .ok (.sxhR ⟨0, true⟩ .lsl 25 19 14) := by decide
theorem test_decode_sxhL :
    decodeWord 0b010_1000000000000001011_10011_11111 0x8000000b = .ok (.sxhL ⟨1, false⟩ 19 0x8000000b) := by decide
theorem test_decode_bP :
    decodeWord 0b101_1100_1101001011100001110110101 0 = .ok (.bP ⟨2, true⟩ 0x1a5c3b5) := by decide
theorem test_decode_bR :
    decodeWord 0b011_1110_11010010111000011101_01110 0 = .ok (.bR ⟨1, true⟩ 0xd2e1d 14) := by decide
theorem test_decode_blP :
    decodeWord 0b110_1101_1101001011100001110110101 0 = .ok (.blP ⟨3, false⟩ 0x1a5c3b5) := by decide
theorem test_decode_blR :
    decodeWord 0b001_1111_11010010111000011101_01110 0 = .ok (.blR ⟨0, true⟩ 0xd2e1d 14) := by decide
theorem test_decode_lb :
    decodeWord 0b010_1001_110100101110_000_10011_01110 0 = .ok (.lb ⟨1, false⟩ 0xd2e 19 14) := by decide
theorem test_decode_lh :
    decodeWord 0b101_1001_110100101110_001_10011_01110 0 = .ok (.lh ⟨2, true⟩ 0xd2e 19 14) := by decide
theorem test_decode_lw :
    decodeWord 0b011_1001_110100101110_010_10011_01110 0 = .ok (.lw ⟨1, true⟩ 0xd2e 19 14) := by decide
theorem test_decode_ll :
    decodeWord 0b110_1001_110100101110_011_10011_01110 0 = .ok (.ll ⟨3, false⟩ 0xd2e 19 14) := by decide
theorem test_decode_sb :
    decodeWord 0b001_1001_100110_11001_0100_01011_01110 0 = .ok (.sb ⟨0, true⟩ 0x4cb 25 14) := by decide
theorem test_decode_sh :
    decodeWord 0b010_1001_100110_11001_0101_01011_01110 0 = .ok (.sh ⟨1, false⟩ 0x4cb 25 14) := by decide
theorem test_decode_sw :
    decodeWord 0b101_1001_100110_11001_0110_01011_01110 0 = .ok (.sw ⟨2, true⟩ 0x4cb 25 14) := by decide
theorem test_decode_sc :
    decodeWord 0b011_1001_100110_11001_0111_01011_01110 0 = .ok (.sc ⟨1, true⟩ 0x4cb 25 14) := by decide
theorem test_decode_brk :
    decodeWord 0b110_100010001_11111111111111111111 0 = .ok (.brk ⟨3, false⟩) := by decide
theorem test_decode_syscall :
    decodeWord 0b001_100010010_11111111111111111111 0 = .ok (.syscall ⟨0, true⟩) := by decide
theorem test_decode_fence :
    decodeWord 0b010_100010011_11111111111111111111 0 = .ok (.fence ⟨1, false⟩) := by decide
theorem test_decode_eret :
    decodeWord 0b101_100010100_11111111111111111111 0 = .ok (.eret ⟨2, true⟩) := by decide
theorem test_decode_flush :
    decodeWord 0b011_100010101_1_1111111_10_11111_01110 0 = .ok (.flush ⟨1, true⟩ .dtlb 14) := by decide
theorem test_decode_mfc :
    decodeWord 0b110_100010110_1111111111_10011_10110 0 = .ok (.mfc ⟨3, false⟩ 19 22) := by decide
theorem test_decode_mtc :
    decodeWord 0b001_100010111_1111111111_01101_01110 0 = .ok (.mtc ⟨0, true⟩ 13 14) := by decide
theorem test_decode_mult :
    decodeWord 0b010_1000110000_11001_1111_10011_01110 0 = .ok (.mult ⟨1, false⟩ 25 19 14) := by decide
theorem test_decode_mults :
    decodeWord 0b101_1000110001_11001_1111_10011_01110 0 = .ok (.mults ⟨2, true⟩ 25 19 14) := by decide
theorem test_decode_div :
    decodeWord 0b011_100011001_1_11001_1111_10011_01110 0 = .ok (.div ⟨1, true⟩ 25 19 14) := by decide
theorem test_decode_mfhi :
    decodeWord 0b110_100011010_1111111111_10011_11111 0 = .ok (.mfhi ⟨3, false⟩ 19) := by decide
theorem test_decode_mthi :
    decodeWord 0b001_100011011_111111111111111_01110 0 = .ok (.mthi ⟨0, true⟩ 14) := by decide

/-! ## Decoding: what raises IllegalInstruction or is refused (R76, R82, R83; section 2.10 of the vectors) -/

theorem test_decode_stops_alu_opcode_12 : decodeWord 0xC0003000 0 = .error .aluOpcode := by decide
theorem test_decode_stops_compare_kind_3 : decodeWord 0xC0001D80 0 = .error .compareKind := by decide
theorem test_decode_stops_subop_0 : decodeWord 0xD1000000 0 = .error .subop := by decide
theorem test_decode_stops_subop_12 : decodeWord 0xD1C00000 0 = .error .subop := by decide
theorem test_decode_stops_long_pattern : decodeWord 0xD0004000 0 = .error .longPattern := by decide
theorem test_decode_stops_register_shift_add : decodeWord 0xD0200000 0 = .error .longPattern := by decide
theorem test_decode_stops_store_with_M : decodeWord 0xD2017806 0 = .error .storeM := by decide
theorem test_packet_stops_control_in_slot_1 : decodePacket [0xE0000000, 0xD8000001, 0xE0000000, 0xE0000000] = .error .slotClass := by decide
theorem test_packet_stops_memory_in_slot_2 : decodePacket [0xE0000000, 0xE0000000, 0xD2000821, 0xE0000000] = .error .slotClass := by decide
theorem test_packet_stops_long_in_slot_3 : decodePacket [0xE0000000, 0xE0000000, 0xE0000000, 0xD0000085] = .error .longInLastSlot := by decide
theorem test_packet_stops_unexecuted_long_in_slot_3 : decodePacket [0xE0000000, 0xE0000000, 0xE0000000, 0xF0000085] = .error .longInLastSlot := by decide

/-! ## One step of each instruction (sections 2.3 to 2.11 of the vectors) -/

theorem test_add_wraps : after (base.setReg 2 0xFFFFFFFE) [0xC0140022] (·.reg 1) = some 3 := by decide
theorem test_add_shifted : after (two 1 0x10 2 0x40000003) [0xD4408061] (·.reg 3) = some 0x1C := by decide
theorem test_and_rotated : after (base.setReg 7 0x12345678) [0xC3FD04C7] (·.reg 6) = some 0x12000000 := by decide
theorem test_nor_shifted : after (two 9 0xFFFF0000 10 0x80000000) [0xD7EA8909] (·.reg 8) = some 0x0000FFFE := by decide
theorem test_or : after (base.setReg 12 0x80000000) [0xC0040D6C] (·.reg 11) = some 0x80000001 := by decide
theorem test_sub_borrows : after (base.setReg 14 0x3E8) [0xCFFC11AE] (·.reg 13) = some 0xFFFFFFE9 := by decide
theorem test_rsb_shifted : after (two 2 3 3 0xA) [0xD420D422] (·.reg 1) = some 0x11 := by decide
theorem test_xor_rotated : after (two 18 0xFFFFFFFF 19 0x12345678) [0xD51CDA32] (·.reg 17) = some 0x87EDCBA9 := by decide
theorem test_add_long : after (base.setReg 5 0x80000000) [0xD0000085, 0x80000000] (·.reg 4) = some 0 := by decide
theorem test_inverted_predicate_executes : after (two 1 0x77 2 1) [0x60140022] (·.reg 1) = some 6 := by decide
theorem test_false_predicate : after (two 1 0x77 2 1) [0x00140022] (fun t => (t.reg 1, t.pc)) = some (0x77, 0x110) := by decide
theorem test_cmpltu_true : after (two 1 0 2 0xFFFFFFFF) [0xD4009C01] (·.p0) = some true := by decide
theorem test_cmpltu_false : after { two 1 0x80000000 2 0x7FFFFFFF with p0 := true } [0xD4009C01] (·.p0) = some false := by decide
theorem test_cmpleu_true : after (two 1 5 2 5) [0xD4009C81] (·.p0) = some true := by decide
theorem test_cmpleu_false : after { two 1 6 2 5 with p0 := true } [0xD4009C81] (·.p0) = some false := by decide
theorem test_cmpeq_true : after (two 1 0x80000000 2 0x80000000) [0xD4009D01] (·.p0) = some true := by decide
theorem test_cmpeq_false : after { two 1 0x80000000 2 0 with p0 := true } [0xD4009D01] (·.p0) = some false := by decide
theorem test_cmplts_true : after (two 1 0x80000000 2 0x7FFFFFFF) [0xD4009E01] (·.p0) = some true := by decide
theorem test_cmplts_false : after { two 1 7 2 7 with p0 := true } [0xD4009E01] (·.p0) = some false := by decide
theorem test_cmples_true : after (two 1 7 2 7) [0xD4009E81] (·.p0) = some true := by decide
theorem test_cmples_false : after { two 1 0x7FFFFFFF 2 0x80000000 with p0 := true } [0xD4009E81] (·.p0) = some false := by decide
theorem test_cmpbs_true : after (two 1 0xF0 2 0x1F) [0xD4009F01] (·.p0) = some true := by decide
theorem test_cmpbs_false : after { two 1 0xFFFFFFFF 2 0 with p0 := true } [0xD4009F01] (·.p0) = some false := by decide
theorem test_cmpbc_true : after (two 1 0x80 2 0x81) [0xD4009F81] (·.p0) = some true := by decide
theorem test_cmpbc_false : after { two 1 0 2 0 with p0 := true } [0xD4009F81] (·.p0) = some false := by decide
theorem test_compare_to_p3_is_discarded : after (two 1 1 2 2) [0xD4009D61] (fun t => (t.pred 3, t.p0, t.p1, t.p2)) = some (true, false, false, false) := by decide
theorem test_mov_immediate : after base [0xC8D02024] (·.reg 1) = some 0x1234 := by decide
theorem test_mov_register_shift : after (two 3 0x80000000 4 0x1F) [0xD0312043] (·.reg 2) = some 0xFFFFFFFF := by decide
theorem test_mvn_shifted : after (base.setReg 7 0xC0000001) [0xD42024C7] (·.reg 6) = some 0x7FFFFFFD := by decide
theorem test_sxb : after (base.setReg 9 0x12345680) [0xD4002909] (·.reg 8) = some 0xFFFFFF80 := by decide
theorem test_sxh_register_rotate : after (two 11 0x00018000 12 1) [0xD03B2D4B] (·.reg 10) = some 0xFFFFC000 := by decide
theorem test_sxh_immediate : after base [0xCFFC2D5F] (·.reg 10) = some 0x7FFF := by decide
theorem test_b_backward_wraps : after { base with pc := 0 } [0xD9FFFFFF] (·.pc) = some 0xFFFFFFF0 := by decide
theorem test_b_register_rounds_down : after (base.setReg 5 0x200F) [0xDC000005] (·.pc) = some 0x2000 := by decide
theorem test_bl : after { base with pc := 0x1000 } [0xDA000004] (fun t => (t.reg 31, t.pc)) = some (0x1000, 0x1040) := by decide
theorem test_bl_uses_old_r31 : after ({ base with pc := 0x1000 }.setReg 31 0x8000) [0xDE00001F] (fun t => (t.reg 31, t.pc)) = some (0x1000, 0x8000) := by decide
theorem test_lb_zero_extends : after (data 2 0x3000 0 0) [0xD2006022] (·.reg 1) = some 0x80 := by decide
theorem test_lh_drops_bit_0 : after (data 4 0x3003 0 0) [0xD2000464] (·.reg 3) = some 0x8091 := by decide
theorem test_lw_largest_offset : after (data 6 0x2804 0 0) [0xD2FFE8A6] (·.reg 5) = some 0x8091A2B3 := by decide
theorem test_lw_smallest_offset : after (data 6 0x3804 0 0) [0xD30008A6] (·.reg 5) = some 0x7F6E5D4C := by decide
theorem test_ll_sets_link : after (data 8 0x3004 0 0) [0xD2000CE8] (fun t => (t.reg 7, t.link)) = some (0x7F6E5D4C, true) := by decide
theorem test_sb : after (data 1 0x123456FF 2 0x3001) [0xD2005002] (mem32 0x3000) = some 0x8091FFB3 := by decide
theorem test_sh_split_offset : after (data 3 0xCAFEBEEF 4 0x2FDC) [0xD208D484] (mem32 0x3000) = some 0x8091BEEF := by decide
theorem test_sw_negative_offset : after (data 5 0x01020304 6 0x3008) [0xD3F95B86] (mem32 0x3004) = some 0x01020304 := by decide
theorem test_sw_drops_bits : after (data 5 0x01020304 6 0x2C04) [0xD2F95BE6] (mem32 0x3000) = some 0x01020304 := by decide
theorem test_sc_succeeds : after { data 7 0x55 8 0x3000 with link := true } [0xD201DC08] (fun t => (mem32 0x3000 t, t.p0, t.link)) = some (0x55, true, false) := by decide
theorem test_sc_fails : after { data 7 0x55 8 0x3000 with p0 := true } [0xD201DC08] (fun t => (mem32 0x3000 t, t.p0, t.link)) = some (0x8091A2B3, false, false) := by decide
theorem test_mult : after (two 1 0x12345678 2 0x9ABCDEF0) [0xD1808061] (fun t => (t.reg 3, t.hi)) = some (0x242D2080, 0x0B00EA4E) := by decide
theorem test_mults : after (two 1 0x12345678 2 0x9ABCDEF0) [0xD1888061] (fun t => (t.reg 3, t.hi)) = some (0x242D2080, 0xF8CC93D6) := by decide
theorem test_mults_negative : after (two 1 0x80000000 2 2) [0xD1888061] (fun t => (t.reg 3, t.hi)) = some (0, 0xFFFFFFFF) := by decide
theorem test_div : after (two 1 0xFFFFFFF9 2 2) [0xD1908061] (fun t => (t.reg 3, t.hi)) = some (0x7FFFFFFC, 1) := by decide
theorem test_mfhi : after { base with hi := 0x1234 } [0xD1A00080] (·.reg 4) = some 0x1234 := by decide
theorem test_mthi : after (base.setReg 5 0xBEEF) [0xD1B00005] (·.hi) = some 0xBEEF := by decide
theorem test_eret : after { base with epc := 0x1230, link := true } [0xD1400000] (fun t => (t.pc, t.mode, t.link)) = some (0x1230, .user, false) := by decide
theorem test_eret_in_user_mode : after user [0xD1400000, 0xC0042020] (fun t => (t.epc, t.mode, t.link, t.pc)) = some (0x2000, .kernel, false, 0x200) := by decide
theorem test_eret_misaligned : refusedWith { base with epc := 0x1234 } [0xD1400000] .eretTarget = true := by decide
theorem test_fence : after base [0xD1300000] (·.pc) = some 0x110 := by decide
theorem test_flush_data : after { base.setReg 1 0x3001 with marks := [(0x3000, .stored), (0x3004, .stored)] } [0xD1500001] (·.marks) = some [(0x3000, .dataFlushed), (0x3004, .stored)] := by decide
theorem test_flush_inst : after { base.setReg 1 0x3001 with marks := [(0x3000, .stored), (0x3003, .dataFlushed)] } [0xD1500401] (·.marks) = some [(0x3000, .stored)] := by decide
theorem test_mfc_epc : after { base with epc := 0x2000 } [0xD1600023] (·.reg 1) = some 0x2000 := by decide
theorem test_mtc_epc : after (base.setReg 1 0x2010) [0xD1700061] (·.epc) = some 0x2010 := by decide
theorem test_mfc_in_user_mode : after user [0xD1600023] (fun t => (t.epc, t.mode, t.link, t.pc)) = some (0x2000, .kernel, false, 0x200) := by decide
theorem test_mtc_of_an_absent_register : refusedWith base [0xD1700081] (.coprocessorRegister 4) = true := by decide
theorem test_syscall_discards_the_packet : after (user.setReg 1 0x77) [0xD1200000, 0xC0042020] (fun t => (t.epc, t.mode, t.link, t.pc, t.reg 1)) = some (0x2000, .kernel, false, 0x200, 0x77) := by decide
theorem test_break : after { base with pc := 0x2000, epc := 0x1110 } [0xD1100000] (fun t => (t.epc, t.mode, t.link, t.pc)) = some (0x2000, .kernel, false, 0x200) := by decide
theorem test_illegal_packet : after user [0xE0000000, 0xD8000001] (fun t => (t.epc, t.mode, t.link, t.pc)) = some (0x2000, .kernel, false, 0x200) := by decide
theorem test_page_fault_discards_the_packet : after ({ holed with mode := .user, pc := 0x2000 }.setReg 1 0x9000) [0xD2000821, 0xC0040042] (fun t => (t.epc, t.mode, t.pc, t.reg 1, t.reg 2)) = some (0x2000, .kernel, 0x200, 0x9000, 0) := by decide

/-! ## Packets and steps (section 2.10 of the vectors) -/

theorem test_packet_reads_old_values : after (base.setReg 1 0xA) [0xC0040021, 0xC0040041, 0xC0040061, 0xC0040081] (fun t => (t.reg 1, t.reg 2, t.reg 3, t.reg 4)) = some (0xB, 0xB, 0xB, 0xB) := by decide
theorem test_packet_swap : after (two 1 0xA 2 0xB) [0xD4002022, 0xD4002041] (fun t => (t.reg 1, t.reg 2)) = some (0xB, 0xA) := by decide
theorem test_long_data_is_not_decoded : after base [0xD00020A0, 0xD8000001] (fun t => (t.reg 5, t.pc)) = some (0xD8000001, 0x110) := by decide
theorem test_two_memory_instructions : after (data 2 0x99 3 0x3000) [0xD2000823, 0xD2009883] (fun t => (t.reg 1, mem32 0x3004 t)) = some (0x8091A2B3, 0x99) := by decide
theorem test_unexecuted_writer_does_not_conflict : after base [0xC0042020, 0x00082020] (·.reg 1) = some 1 := by decide
theorem test_two_writers_are_refused : refusedWith base [0xC0042020, 0xC0082020] .writeConflict = true := by decide
theorem test_store_with_M_is_refused : refusedWith base [0xD2017806] .storeMBit = true := by decide
theorem test_interrupt_before_the_packet :
    stepMeets { placed user [0xC0042020] with irqs := [true] }
      (fun t => t.epc == 0x2000 && t.mode == .kernel && !t.link && t.pc == 0x200 && t.reg 1 == 0) = true := by decide
theorem test_step_fetches_little_endian :
    stepMeets { base.setReg 2 0xFFFFFFFE with
      mem := Memory.writeBytes [] 0x100
        [0x22, 0x00, 0x14, 0xC0, 0, 0, 0, 0xE0, 0, 0, 0, 0xE0, 0, 0, 0, 0xE0] } (fun t => t.reg 1 == 3) = true := by decide
theorem test_withFetchWord_runs_from_reset :
    stepMeets (State.reset.withFetchWord 32 0xC0140022) (fun t => t.reg 1 == 5 && t.pc == 0x10) = true := by decide

/-! ## Witnesses: for each statement with hypotheses, a state and operands that meet them, clause by clause -/

/-- `base` with the four words of a NOP packet but for the ones given, stored at the pc. -/
def readyFor (ws : List Word) : State := placed base ws

theorem witness_PredicateThreeIsPinnedToOne :
    nopInstr.pred = ⟨3, true⟩ ∧ base.holds ⟨0, true⟩ = true ∧
      .cmpbcL ⟨0, true⟩ 3 1 7 ∈ compareForms ⟨0, true⟩ 0 0 0 .lsl 2 3 1 7 := by decide

theorem witness_FalsePredicateHasNoEffect : base.holds (Instr.addI ⟨0, false⟩ 5 0 1 2).pred = false := by decide

theorem witness_ArithmeticWritesTheWrappedResult : (two 1 0x7FFFFFFF 2 0x80000000).holds ⟨3, false⟩ = true := by decide

theorem witness_LogicWritesTheBitwiseResult : (two 1 0xF0F0F0F0 2 0x0F0F0F0F).holds ⟨0, true⟩ = true := by decide

theorem witness_UnsignedComparesWriteThePredicate : (two 1 0x80000000 2 0x7FFFFFFF).holds ⟨1, true⟩ = true := by decide

theorem witness_SignedComparesWriteThePredicate : (two 1 0x80000000 2 0x7FFFFFFF).holds ⟨2, true⟩ = true := by decide

theorem witness_CmpbsTestsForASetBit : { two 1 0xF0 2 0x1F with p0 := true }.holds ⟨0, false⟩ = true := by decide

theorem witness_CmpbcTestsForAClearBit : { two 1 0x80 2 0x81 with p1 := true }.holds ⟨1, false⟩ = true := by decide

/-- Register amounts 31 and 32, on either side of the wide-shift limit. -/
theorem witness_MovesWriteTheOperand :
    (two 3 1 4 31).holds ⟨3, false⟩ = true ∧ ((two 3 1 4 31).reg 4).toNat ≤ 31 ∧
      (two 3 1 4 32).holds ⟨3, false⟩ = true ∧ ¬((two 3 1 4 32).reg 4).toNat ≤ 31 := by decide

theorem witness_SignExtensionsKeepTheSignedValue :
    (two 9 0x80 4 0).holds ⟨3, false⟩ = true ∧
      ∃ oR : Word, oR = shift ((two 9 0x80 4 0).reg 9) .lsl ((two 9 0x80 4 0).reg 4).toNat := ⟨by decide, _, rfl⟩

theorem witness_BranchOnlyMovesThePc : { base with pc := 0xFFFFFFF0 }.holds ⟨3, false⟩ = true := by decide

theorem witness_BranchWithLinkSavesItsOwnAddress : { base with pc := 0xFFFFFFF0 }.holds ⟨0, true⟩ = true := by decide

theorem witness_BranchTargetCountsPackets : (0xFFFFFFF0 : Word).toNat % 16 = 0 ∧ (0 : Word).toNat % 16 = 0 := by decide

/-- The last byte before the hole, the first one after it, and the last byte of a mapped page. -/
theorem witness_LoadByteZeroExtends :
    holed.holds ⟨3, false⟩ = true ∧
      ((holed.setReg 2 0x20000).translate .load ((holed.setReg 2 0x20000).reg 2 + (-1 : BitVec 12).signExtend 32) =
        some 0x1FFFF ∧ holed.backed 0x1FFFF 1 = true) ∧
      ((holed.setReg 2 0x21000).translate .load ((holed.setReg 2 0x21000).reg 2 + (0 : BitVec 12).signExtend 32) =
        some 0x21000 ∧ holed.backed 0x21000 1 = true) ∧
      ((holed.setReg 2 0xAFFF).translate .load ((holed.setReg 2 0xAFFF).reg 2 + (0 : BitVec 12).signExtend 32) =
        some 0x8000AFFF ∧ holed.backed 0x8000AFFF 1 = true) := by decide

/-- The top of memory for both widths, and the last word before the hole. -/
theorem witness_WideLoadsReadLittleEndian :
    base.holds ⟨3, false⟩ = true ∧
      ((base.setReg 2 0xFFFFFFFF).translate .load
        (((base.setReg 2 0xFFFFFFFF).reg 2 + (0 : BitVec 12).signExtend 32) &&& 0xFFFFFFFE) = some 0xFFFFFFFE ∧
        base.backed 0xFFFFFFFE 2 = true) ∧
      ((base.setReg 2 0xFFFFFFFF).translate .load
        (((base.setReg 2 0xFFFFFFFF).reg 2 + (0 : BitVec 12).signExtend 32) &&& 0xFFFFFFFC) = some 0xFFFFFFFC ∧
        base.backed 0xFFFFFFFC 4 = true) ∧
      holed.backed 0x1FFFC 4 = true := by decide

theorem base_legal : base.Legal := ⟨by decide, by decide, by decide⟩

theorem holed_legal : holed.Legal := ⟨by decide, by decide, by decide⟩

theorem witness_StoreByteWritesOneByte :
    (holed.setReg 2 0x20000).Legal ∧ (holed.setReg 2 0x20000).holds ⟨3, false⟩ = true ∧
      (holed.setReg 2 0x20000).translate .store ((holed.setReg 2 0x20000).reg 2 + (-1 : BitVec 11).signExtend 32) =
        some 0x1FFFF ∧ (holed.setReg 2 0x20000).backed 0x1FFFF 1 = true :=
  ⟨⟨by decide, by decide, by decide⟩, by decide, by decide, by decide⟩

theorem witness_WideStoresWriteTheAlignedBytes :
    (base.setReg 2 0xFFFFFFFF).Legal ∧ (base.setReg 2 0xFFFFFFFF).holds ⟨3, false⟩ = true ∧
      ((base.setReg 2 0xFFFFFFFF).translate .store
        (((base.setReg 2 0xFFFFFFFF).reg 2 + (0 : BitVec 11).signExtend 32) &&& 0xFFFFFFFE) = some 0xFFFFFFFE ∧
        (base.setReg 2 0xFFFFFFFF).backed 0xFFFFFFFE 2 = true) ∧
      ((base.setReg 2 0xFFFFFFFF).translate .store
        (((base.setReg 2 0xFFFFFFFF).reg 2 + (0 : BitVec 11).signExtend 32) &&& 0xFFFFFFFC) = some 0xFFFFFFFC ∧
        (base.setReg 2 0xFFFFFFFF).backed 0xFFFFFFFC 4 = true) :=
  ⟨⟨by decide, by decide, by decide⟩, by decide, by decide, by decide⟩

/-- With the link bit set, and clear. -/
theorem witness_StoreConditionalNeedsTheLinkBit :
    { base with link := true }.Legal ∧ { base with link := true }.holds ⟨3, false⟩ = true ∧
      { base with link := true }.link = true ∧
      { base with link := true }.translate .store
        (({ base with link := true }.reg 8 + (0x7FF : BitVec 11).signExtend 32) &&& 0xFFFFFFFC) = some 0xFFFFFFFC ∧
      { base with link := true }.backed 0xFFFFFFFC 4 = true ∧
      base.holds ⟨3, false⟩ = true ∧ base.link = false :=
  ⟨⟨by decide, by decide, by decide⟩, by decide, by decide, by decide, by decide, by decide, by decide⟩

/-- The first and the last byte of the absent page, for loads and stores. -/
theorem witness_DataPageFaultsTrap :
    { holed with link := true }.holds ⟨3, false⟩ = true ∧ { holed with link := true }.link = true ∧
      (∀ k ∈ [Access.load, .store], holed.translate k 0x9000 = none ∧ holed.translate k 0x9FFF = none) ∧
      (∀ k ∈ [Access.load, .store], holed.translate k ((0x9FFF : Word) &&& 0xFFFFFFFE) = none) ∧
      (∀ k ∈ [Access.load, .store], holed.translate k ((0x9FFF : Word) &&& 0xFFFFFFFC) = none) ∧
      (holed.setReg 2 0xA000).reg 2 + (-1 : BitVec 12).signExtend 32 = 0x9FFF ∧
      (holed.setReg 2 0x9000).reg 2 + (0 : BitVec 11).signExtend 32 = 0x9000 :=
  ⟨by decide, by decide, by decide, by decide, by decide, by decide, by decide⟩

/-- The first and the last address of the hole, for each width, loads and stores. -/
theorem witness_UnbackedDataAccessStops :
    { holed with link := true }.holds ⟨3, false⟩ = true ∧ { holed with link := true }.link = true ∧
      (∀ k ∈ [Access.load, .store],
        holed.translate k 0x20000 = some 0x20000 ∧ holed.translate k 0x20FFF = some 0x20FFF ∧
        holed.translate k ((0x20FFF : Word) &&& 0xFFFFFFFE) = some 0x20FFE ∧
        holed.translate k ((0x20FFF : Word) &&& 0xFFFFFFFC) = some 0x20FFC) ∧
      (holed.setReg 2 0x20FFF).reg 2 + (0 : BitVec 12).signExtend 32 = 0x20FFF ∧
      (holed.setReg 2 0x21000).reg 2 + (-1 : BitVec 11).signExtend 32 = 0x20FFF ∧
      holed.backed 0x20000 1 = false ∧ holed.backed 0x20FFF 1 = false ∧ holed.backed 0x20FFE 2 = false ∧
      holed.backed 0x20FFC 4 = false := by decide

theorem witness_UnsignedProductFillsRdAndHi : (two 1 0xFFFFFFFF 2 0xFFFFFFFF).holds ⟨3, false⟩ = true := by decide

theorem witness_SignedProductFillsRdAndHi : (two 1 0x80000000 2 0x80000000).holds ⟨3, false⟩ = true := by decide

/-- Divisors 1 and 0. -/
theorem witness_DivisionGivesQuotientAndRemainder :
    (two 1 5 2 1).holds ⟨3, false⟩ = true ∧ (two 1 5 2 1).reg 2 ≠ 0 ∧ (two 1 5 2 0).holds ⟨3, false⟩ = true ∧
      (two 1 5 2 0).reg 2 = 0 := by decide

theorem witness_HiMovesToAndFromRegisters : { base with hi := 0x1234 }.holds ⟨3, false⟩ = true := by decide

theorem witness_BreakAndSyscallTakeTheirTraps : user.holds ⟨3, false⟩ = true := by decide

theorem witness_FenceAndTlbFlushOnlyPass : user.holds ⟨0, true⟩ = true := by decide

/-- An absent page, and the last byte of a word, for both caches. -/
theorem witness_CacheFlushOnlyMovesMarks :
    (holed.setReg 1 0x9000).holds ⟨3, false⟩ = true ∧ (holed.setReg 1 0x9000).translate .load ((holed.setReg 1 0x9000).reg 1) = none ∧
      (holed.setReg 1 0x9000).translate .fetch ((holed.setReg 1 0x9000).reg 1) = none ∧
      (base.setReg 1 0x3003).Legal ∧ (base.setReg 1 0x3003).holds ⟨3, false⟩ = true ∧
      (base.setReg 1 0x3003).translate .load ((base.setReg 1 0x3003).reg 1) = some 0x3003 ∧
      (base.setReg 1 0x3003).translate .fetch ((base.setReg 1 0x3003).reg 1) = some 0x3003 :=
  ⟨by decide, by decide, by decide, ⟨by decide, by decide, by decide⟩, by decide, by decide, by decide⟩

/-- Error PC at the last packet, and one byte below it. -/
theorem witness_EretReturnsToUserMode :
    { base with epc := 0xFFFFFFF0 }.holds ⟨3, false⟩ = true ∧ { base with epc := 0xFFFFFFF0 }.mode = .kernel ∧
      { base with epc := 0xFFFFFFF0 }.epc.toNat % 16 = 0 ∧ { base with epc := 0xFFFFFFEF }.mode = .kernel ∧
      { base with epc := 0xFFFFFFEF }.epc.toNat % 16 ≠ 0 := by decide

/-- CPR_EPC 3, the register 5 of CPR_MAP, and the absent register 4 between them. -/
theorem witness_CoprocessorMovesUseTheNamedRegister :
    base.holds ⟨3, false⟩ = true ∧ base.mode = .kernel ∧ (3 : CprNum) = base.params.cprEpc ∧
      ((5 : CprNum) ≠ base.params.cprEpc ∧ base.params.cprMap.getLsbD (5 : CprNum).toNat = true) ∧
      ((4 : CprNum) ≠ base.params.cprEpc ∧ base.params.cprMap.getLsbD (4 : CprNum).toNat = false) := by decide

theorem witness_PrivilegedInstructionsTrapInUserMode : user.holds ⟨3, false⟩ = true ∧ user.mode = .user := by decide

theorem witness_StepRunsTheDecodedInstruction :
    (readyFor [0xC0140022]).irqs.headD false = false ∧
      StepRuns (readyFor [0xC0140022]) (.addI ⟨3, false⟩ 5 0 1 2 :: List.replicate 3 nopInstr) :=
  ⟨by decide, fill [0xC0140022], by decide, by decide⟩

/-- What each instruction of the witness packet collects: R1 := R2 and R2 := R1 on `two 1 0xA 2 0xB`. -/
def swapped : Instr → List Effect
  | .movS _ _ _ 1 _ => [.reg 1 0xB]
  | .movS _ _ _ 2 _ => [.reg 2 0xA]
  | _ => []

theorem witness_PacketCommitsWhatEachSlotCollects :
    let u := placed (two 1 0xA 2 0xB) [0xD4002022, 0xD4002041]
    let is := [.movS ⟨3, false⟩ 0 .lsl 1 2, .movS ⟨3, false⟩ 0 .lsl 2 1, nopInstr, nopInstr]
    (∀ i ∈ is, CollectsAlone i u (swapped i)) ∧ conflictFree (is.flatMap swapped) = true ∧
      u.irqs.headD false = false ∧ u = { u with irqs := u.irqs.tail } ∧ StepRuns u is := by
  refine ⟨fun i hi => ?_, by decide, by decide, rfl, fill [0xD4002022, 0xD4002041], by decide, by decide⟩
  fin_cases hi
  · exact ⟨rfl, by simp [swapped]⟩
  · exact ⟨rfl, by simp [swapped]⟩
  · exact ⟨rfl, by simp [swapped, nopInstr]⟩
  · exact ⟨rfl, by simp [swapped, nopInstr]⟩

theorem witness_PacketMatesSwapRegisters :
    (1 : RegNum) ≠ 2 ∧ (two 1 0xA 2 0xB).holds ⟨3, false⟩ = true ∧ (two 1 0xA 2 0xB).holds ⟨0, true⟩ = true := by decide

theorem witness_TrappingPacketCommitsNothing :
    exec (.syscall ⟨3, false⟩) user = .next (user.enterTrap .syscall) ∧
      ∀ j ∈ [Instr.addI ⟨3, false⟩ 1 0 1 1], ∀ c', .trap c' ∉ collectedBy (exec j user) := by
  refine ⟨rfl, fun j hj c' => ?_⟩
  rw [List.mem_singleton] at hj; subst hj
  rw [show collectedBy (exec (.addI ⟨3, false⟩ 1 0 1 1) user) = [.reg 1 1] from by decide]
  simp

/-- What each instruction of a conflicting packet collects on `base`: two loads of R1 and a store over the same byte. -/
def clashing : Instr → List Effect
  | .movI _ c _ _ => [.reg 1 (shortImm c 0)]
  | .lb .. => [.load 0 1, .reg 1 0]
  | .sb .. => [.store 0 [0]]
  | _ => []

/-- Two writers of one register; a store and a load of one byte. -/
theorem witness_WriteConflictsAreRefused :
    ((∀ k ∈ [Instr.movI ⟨3, false⟩ 1 0 1, .movI ⟨3, false⟩ 2 0 1], CollectsAlone k base (clashing k)) ∧
      ∃ e ∈ clashing (.movI ⟨3, false⟩ 1 0 1), ∃ f ∈ clashing (.movI ⟨3, false⟩ 2 0 1), SamePlace e f) ∧
    ((∀ k ∈ [Instr.sb ⟨3, false⟩ 0 2 2, .lb ⟨3, false⟩ 0 1 2], CollectsAlone k base (clashing k)) ∧
      ∃ e ∈ clashing (.sb ⟨3, false⟩ 0 2 2), ∃ f ∈ clashing (.lb ⟨3, false⟩ 0 1 2), SamePlace e f) := by
  refine ⟨⟨fun k hk => ?_, ?_⟩, ⟨fun k hk => ?_, ?_⟩⟩
  · fin_cases hk
    · exact ⟨rfl, by simp [clashing]⟩
    · exact ⟨rfl, by simp [clashing]⟩
  · exact ⟨_, .head _, _, .head _, .inl ⟨_, _, _, rfl, rfl⟩⟩
  · fin_cases hk
    · exact ⟨rfl, by simp [clashing]⟩
    · exact ⟨rfl, by simp [clashing]⟩
  · exact ⟨_, .head _, _, .head _,
      .inr (.inr (.inr (.inr (.inr (.inl ⟨0, 0, _, _, 0, rfl, rfl, by decide, by decide, by decide, by decide⟩)))))⟩

theorem witness_ADispatchedInterruptIsTakenFirst : { user with irqs := [true] }.irqs.headD false = true := by decide

/-- A page fault at the pc; an illegal packet; a store with M set; a marked last byte of the packet; a pc in the hole. -/
theorem witness_BadFetchesAndPacketsDoNotRun :
    ({ holed with pc := 0x9000 }.irqs.headD false = false ∧ { holed with pc := 0x9000 }.translate .fetch 0x9000 = none) ∧
    ((readyFor [0xC0003000]).irqs.headD false = false ∧ (readyFor [0xC0003000]).fetch = .words (fill [0xC0003000]) ∧
      decodePacket (fill [0xC0003000]) = .error .aluOpcode) ∧
    ((readyFor [0xD2017806]).irqs.headD false = false ∧ (readyFor [0xD2017806]).fetch = .words (fill [0xD2017806]) ∧
      decodePacket (fill [0xD2017806]) = .error .storeM) ∧
    ({ base with marks := [(0x10F, .dataFlushed)] }.irqs.headD false = false ∧
      { base with marks := [(0x10F, .dataFlushed)] }.translate .fetch 0x100 = some 0x100 ∧
      { base with marks := [(0x10F, .dataFlushed)] }.backed 0x100 16 = true ∧
      Marks.anyMarked [(0x10F, .dataFlushed)] 0x100 16 = true) ∧
    ({ holed with pc := 0x20FF0 }.irqs.headD false = false ∧ { holed with pc := 0x20FF0 }.translate .fetch 0x20FF0 = some 0x20FF0 ∧
      { holed with pc := 0x20FF0 }.backed 0x20FF0 16 = false) := by decide

theorem witness_DecodeInvertsEncode : encode (.bP ⟨3, false⟩ 2) = [0xD8000002] := by decide

/-- Two long immediates fill a packet; so does one in slots 2 and 3. -/
theorem witness_PacketDecodeInvertsEncode :
    wellFormedPacket [.movL ⟨3, false⟩ 1 0x11111111, .addL ⟨3, false⟩ 2 3 0x22222222] = true ∧
      wellFormedPacket [.eret ⟨3, false⟩, .lw ⟨3, false⟩ 0 1 1, .movL ⟨3, false⟩ 5 0xFFFFFFFF] = true := by decide

theorem witness_DecodedPacketsAreWellFormed :
    decodePacket [0xE0000000, 0xD0002420, 0x0000FFFF, 0xC01C2040] =
      .ok [nopInstr, .mvnL ⟨3, false⟩ 1 0xFFFF, .movI ⟨3, false⟩ 7 0 2] := by decide

theorem witness_LongImmediateInTheLastSlotIsIllegal :
    decodePacket [0xE0000000, 0xE0000000, 0xE0000000, nopWord] = .ok ([nopInstr, nopInstr, nopInstr] ++ [nopInstr]) ∧
      decodeWord 0xD0000085 0 = .ok (.addL ⟨3, false⟩ 4 5 0) ∧ (Instr.addL ⟨3, false⟩ 4 5 0).slots = 2 := by decide

theorem witness_StepKeepsTheStateLegal :
    (readyFor [0xC0140022]).Legal ∧ ∃ t, step (readyFor [0xC0140022]) = .next t ∧ (t.pc == 0x110) = true :=
  ⟨⟨by decide, by decide, by decide⟩, exists_step (by decide)⟩

/-- A user-mode step that stays in user mode, and one that traps. -/
theorem witness_UserModeStepsKeepPrivilegedState :
    (placed user [0xC0140022]).mode = .user ∧ (∃ t, step (placed user [0xC0140022]) = .next t ∧ (t.mode == .user) = true) ∧
      ∃ t, step (placed user [0xD1400000]) = .next t ∧ (t.mode == .kernel) = true :=
  ⟨by decide, exists_step (by decide), exists_step (by decide)⟩

/-- ERET leaves kernel mode; SYSCALL leaves user mode. -/
theorem witness_ModesChangeOnlyByTrapAndEret :
    ((readyFor [0xD1400000]).mode = .kernel ∧ ∃ t, step (readyFor [0xD1400000]) = .next t ∧ (t.mode == .user) = true) ∧
    ((placed user [0xD1200000]).mode = .user ∧ ∃ t, step (placed user [0xD1200000]) = .next t ∧ (t.mode == .kernel) = true) :=
  ⟨⟨by decide, exists_step (by decide)⟩, by decide, exists_step (by decide)⟩

theorem witness_UserStepsCannotReadPrivilegedState : (placed user [0xD1600023]).mode = .user := by decide

theorem witness_HiIsWrittenByFourInstructions :
    ∃ t, step (placed (two 1 0x10000 2 0x10000) [0xD1808061]) = .next t ∧
      (t.hi != (placed (two 1 0x10000 2 0x10000) [0xD1808061]).hi) = true := exists_step (by decide)

/-- LL sets the link bit; SC, and a trap, clear it. -/
theorem witness_LinkBitChangesOnlyAsStated :
    ((readyFor [0xD2000CE8]).link = false ∧ ∃ t, step (readyFor [0xD2000CE8]) = .next t ∧ t.link = true) ∧
    (({ readyFor [0xD201DC08] with link := true }).link = true ∧
      ∃ t, step { readyFor [0xD201DC08] with link := true } = .next t ∧ (!t.link) = true) ∧
    ∃ t, step (placed user [0xD1200000]) = .next t ∧ (!t.link) = true :=
  ⟨⟨by decide, exists_step (by decide)⟩, ⟨by decide, exists_step (by decide)⟩, exists_step (by decide)⟩

theorem witness_MemoryChangesOnlyByStores :
    ∃ t, step (placed (two 1 0xFF 2 0x3001) [0xD2005002]) = .next t ∧
      (t.mem.read 0x3001 != (placed (two 1 0xFF 2 0x3001) [0xD2005002]).mem.read 0x3001) = true := exists_step (by decide)

theorem witness_NoStepChangesTheParameters :
    ∃ t, step { user with irqs := [true, false] } = .next t ∧ (t.irqs == [false]) = true := exists_step (by decide)

/-- Each width at the top of memory. -/
theorem witness_LoadsReadTheLatestStore :
    Memory.wf [(0xFFFFFFFF, 1)] ∧ (0xFFFFFFFF : Word).toNat + 1 ≤ 2 ^ 32 ∧ (0xFFFFFFFE : Word).toNat + 2 ≤ 2 ^ 32 ∧
      (0xFFFFFFFC : Word).toNat + 4 ≤ 2 ^ 32 := by decide

/-- One byte at the end of a word, and the last word of memory whole. -/
theorem witness_StoredCodeNeedsDataThenInstFlush :
    Marks.wf [(0x3000, .stored)] ∧ (0x3003 : Word).toNat % 4 + 1 ≤ 4 ∧ (0xFFFFFFFC : Word).toNat % 4 + 4 ≤ 4 := by decide

/-- The first and last bit positions and shift amounts of the ranges. -/
theorem witness_ShortImmediateIsARotatedConstant :
    (shortImm (0x3FF : BitVec 10) 1).getLsbD 31 = true ∧ (shortImm (0x7FFF : BitVec 15) 8).getLsbD 0 = false := by decide

theorem witness_ShiftsMoveBitsAsNamed :
    (0 : Nat) < 32 ∧ (31 : Nat) < 32 ∧ (0x1F : Word).toNat < 32 ∧ shift 0x80000001 .asr 31 = 0xFFFFFFFF ∧
      shift 0x12345678 .ror 8 = 0x78123456 := by decide

theorem witness_PlacedInstructionRunsNext :
    { holed with pc := 0x9000 }.Legal ∧ decodeTableWord 32 0xC0140022 = some (.addI ⟨3, false⟩ 5 0 1 2) ∧
      { holed with pc := 0x20FF0 }.Legal :=
  ⟨⟨by decide, by decide, by decide⟩, by decide, ⟨by decide, by decide, by decide⟩⟩


end Sys2Proof.Tests
end

/-! What every step keeps of the parameters of R2, and how it moves the model's own counters. -/

namespace Sys2Proof.Machine

@[simp] theorem nextIrqs_irqs (s : State) : s.nextIrqs.irqs = s.irqs.tail := rfl
@[simp] theorem nextIrqs_tick (s : State) : s.nextIrqs.tick = s.tick := rfl

/-- Settles O51: a step either enters a trap or commits a packet's effects (`step_next`), and neither writes a parameter or
the schedule, while both count the step once. -/
theorem noStepChangesTheParameters : Obligations.NoStepChangesTheParameters := by
  intro s t h
  rcases step_next h with ⟨c, rfl⟩ | ⟨_, _, es, _, _, rfl, _⟩
  case inl => simp
  case inr => simp

end Sys2Proof.Machine

/-! What an instruction and a committed effect leave alone, for the statements about the state. -/

namespace Sys2Proof.Machine

variable {s t : State} {i : Instr} {is : List Instr} {e : Effect} {es : List Effect}

/-! ## The schedule moved on by one step -/

@[simp] theorem nextIrqs_link (s : State) : s.nextIrqs.link = s.link := rfl
@[simp] theorem nextIrqs_holds (s : State) (p : Pred) : s.nextIrqs.holds p = s.holds p := rfl

/-! ## Trap entry as the statements write it -/

/-- Trap entry saves the packet's address for every cause (R227). -/
theorem enterTrap_eq_trapped (s : State) (c : Cause) : s.enterTrap c = s.trapped c := by
  cases c <;> rfl

/-! ## Instructions whose predicate does not hold, and what a slot that collected something did -/

/-- An instruction that does not execute only passes the packet (R61). Only SC looks at the state before its predicate. -/
theorem exec_of_not_holds (h : s.holds i.pred = false) : exec i s = .next (s.advance []) := by
  cases i with
  | sc p off rt rs =>
    simp only [exec, execSc]
    split <;> exact State.whenHolds_false h _
  | _ => exact State.whenHolds_false h _

/-- An instruction that collected an effect was executed (R61). -/
theorem holds_of_mem_collected (h : exec i s = .next t) (he : e ∈ t.collected) : s.holds i.pred = true := by
  by_contra hp
  rw [exec_of_not_holds (by simpa using hp)] at h
  cases h
  simp at he

/-- Every effect that a packet commits is one that an executed instruction of it collected, of a kind it may collect. -/
theorem PacketCollects.collector (hc : PacketCollects is s es) (he : e ∈ es) :
    ∃ i ∈ is, ∃ u, exec i s = .next u ∧ e ∈ u.collected ∧ s.holds i.pred = true ∧ mayCollect i e = true := by
  obtain ⟨i, hi, es', hx, hci, he'⟩ := hc.fromSlots e he
  have hu : e ∈ (s.commit es').collected := by simpa using he'
  exact ⟨i, hi, _, hx, hu, holds_of_mem_collected hx hu, hci.kinds e he'⟩

/-- What a step does with what it fetched (R31, R33, R45). -/
def runFetched (f : Fetched) (s : State) : Host.Outcome State Fault Refusal :=
  match f with
  | .pageFault => .next (s.enterTrap (.pageFault s.pc))
  | .unbacked pa => .fault (.unbackedAddress pa)
  | .stale => .refused .staleFetch
  | .words ws => runWords ws s

/-- A step takes a dispatched interrupt, and else runs what it fetches. -/
theorem step_eq (s : State) :
    step s = if s.irqs.headD false then .next (s.nextIrqs.enterTrap .interrupt)
      else runFetched s.nextIrqs.fetch s.nextIrqs := rfl

/-- `step_next` in the words of the statements: a trap was taken, or the packet that the step runs was committed. -/
theorem step_next_stepRuns (h : step s = .next t) :
    (∃ c, t = State.trapped { s with irqs := s.irqs.tail } c) ∨
      ∃ is es, StepRuns s is ∧ t = s.nextIrqs.commit es ∧ PacketCollects is s.nextIrqs es := by
  rcases step_next h with ⟨c, rfl⟩ | ⟨ws, is, es, hf, hd, ht, hc⟩
  · exact .inl ⟨c, enterTrap_eq_trapped _ c⟩
  · exact .inr ⟨is, es, ⟨ws, hf, hd⟩, ht, hc⟩

end Sys2Proof.Machine

/-! The legal states (R12, R35): every effect that a packet may commit keeps them. -/

namespace Sys2Proof.Machine

variable {s t : State} {e : Effect}

theorem State.Legal.nextIrqs (h : s.Legal) : s.nextIrqs.Legal := ⟨h.pcAligned, h.memWf, h.marksWf⟩

theorem State.Legal.advance (h : s.Legal) (es : List Effect) : (s.advance es).Legal :=
  ⟨low4_add_sixteen h.pcAligned, h.memWf, h.marksWf⟩

theorem State.Legal.enterTrap (h : s.Legal) (c : Cause) : (s.enterTrap c).Legal :=
  ⟨handlerAddr_aligned _, h.memWf, h.marksWf⟩

/-- Committing an effect keeps a state legal, where a jump goes to a multiple of 16. -/
theorem State.Legal.apply (h : s.Legal) (hj : ∀ a, e = .jump a → a.extractLsb' 0 4 = 0) : (s.apply e).Legal := by
  obtain ⟨hpc, hmem, hmarks⟩ := h
  cases e with
  | store pa bs => exact ⟨hpc, Memory.writeBytes_wf hmem pa bs, Marks.stored_wf hmarks pa _⟩
  | flush k pa => exact ⟨hpc, hmem, Marks.flush_wf hmarks k pa⟩
  | jump a => exact ⟨hj a rfl, hmem, hmarks⟩
  | pred n b => exact ⟨by simpa using hpc, by simpa using hmem, by simpa using hmarks⟩
  | _ => exact ⟨hpc, hmem, hmarks⟩

/-- A packet jumps only to multiples of 16. -/
theorem PacketCollects.jump_aligned {is : List Instr} {es : List Effect} (hc : PacketCollects is s es) {a : Word}
    (ha : Effect.jump a ∈ es) : a.extractLsb' 0 4 = 0 := by
  obtain ⟨_, _, _, _, hci, ha'⟩ := hc.fromSlots _ ha
  exact hci.aligned a ha'

/-- Settles O44: trap entry goes to the handler's address, and of the effects of a packet each keeps a state legal. -/
theorem stepKeepsTheStateLegal : Obligations.StepKeepsTheStateLegal := by
  intro s t hs h
  rcases step_next h with ⟨c, rfl⟩ | ⟨_, _, es, _, _, rfl, hc⟩
  · exact hs.nextIrqs.enterTrap c
  · refine State.commit_keeps (P := State.Legal) (hs.nextIrqs.advance es) fun u e he hu => hu.apply ?_
    rintro a rfl
    exact hc.jump_aligned he

end Sys2Proof.Machine

/-! User mode and the privileged state (R18, R23, R231, R232): it is not written, and nothing that is answered depends on
it. -/

namespace Sys2Proof.Machine

variable {s s' t : State} {p : Pred}

/-! ## What a step from user mode writes -/

/-- The fields that only kernel mode may write agree. -/
def SamePrivileged (s t : State) : Prop := t.cpr = s.cpr ∧ t.mode = s.mode ∧ t.epc = s.epc

/-- Only three kinds of effect write privileged state. -/
theorem SamePrivileged.apply {e : Effect} (h : SamePrivileged s t) (hm : ∀ m, e ≠ .mode m) (hv : ∀ v, e ≠ .epc v)
    (hn : ∀ n v, e ≠ .cpr n v) : SamePrivileged s (t.apply e) := by
  cases e with
  | mode m => exact absurd rfl (hm m)
  | epc v => exact absurd rfl (hv v)
  | cpr n v => exact absurd rfl (hn n v)
  | pred n b => simpa [SamePrivileged] using h
  | _ => exact h

/-- What a packet commits in user mode leaves the privileged state alone. -/
theorem PacketCollects.samePrivileged {is : List Instr} {es : List Effect} (hc : PacketCollects is s es)
    (hm : s.mode = .user) : SamePrivileged s (s.commit es) := by
  refine State.commit_keeps (P := SamePrivileged s) ⟨rfl, rfl, rfl⟩ fun u e he hu => ?_
  obtain ⟨_, _, _, _, hci, he'⟩ := hc.fromSlots e he
  obtain ⟨hmode, hepc, hcpr⟩ := hci.unprivileged hm e he'
  exact hu.apply hmode hepc hcpr

/-- Settles O45: a step is trap entry or the commit of a packet, and in user mode no slot collects a write of privileged
state. -/
theorem userModeStepsKeepPrivilegedState : Obligations.UserModeStepsKeepPrivilegedState := by
  intro s t hm h
  rcases step_next_stepRuns h with ⟨c, rfl⟩ | ⟨_, es, _, rfl, hc⟩
  · exact ⟨rfl, rfl, .inr ⟨c, rfl⟩⟩
  · obtain ⟨hcpr, hmode, hepc⟩ := hc.samePrivileged hm
    exact ⟨hcpr, by simp, .inl ⟨hmode.trans hm, hepc⟩⟩

/-! ## What a step from user mode reads -/

/-- A state with Error PC and the coprocessor registers forgotten. -/
def State.publicState (s : State) : State := { s with epc := 0, cpr := Vector.replicate 32 0 }

/-- A state with other values of Error PC and the coprocessor registers. -/
def State.withPrivileged (s : State) (e : Word) (c : Vector Word 32) : State := { s with epc := e, cpr := c }

/-- Trap entry overwrites Error PC. -/
theorem publicState_enterTrap (s : State) (e : Word) (c : Vector Word 32) (cause : Cause) :
    ((s.withPrivileged e c).enterTrap cause).publicState = (s.enterTrap cause).publicState := rfl

/-- Committing an effect reads no privileged state. -/
theorem publicState_apply (s : State) (e : Effect) : (s.apply e).publicState = (s.publicState.apply e).publicState := by
  cases e with
  | pred n b => match n with | 0#2 => rfl | 1#2 => rfl | 2#2 => rfl | 3#2 => rfl
  | _ => rfl

theorem publicState_foldl_apply (es : List Effect) (h : s'.publicState = s.publicState) :
    (es.foldl State.apply s').publicState = (es.foldl State.apply s).publicState := by
  induction es generalizing s s' with
  | nil => exact h
  | cons e es ih => exact ih (by rw [publicState_apply s', publicState_apply s, h])

section Outcomes

variable (s) (e : Word) (c : Vector Word 32)

theorem publicPart_commit (es : List Effect) :
    publicPart (.next ((s.withPrivileged e c).commit es)) = publicPart (.next (s.commit es)) :=
  congrArg Host.Outcome.next (publicState_foldl_apply es rfl)

theorem publicPart_enterTrap (cause : Cause) :
    publicPart (.next ((s.withPrivileged e c).enterTrap cause)) = publicPart (.next (s.enterTrap cause)) :=
  congrArg Host.Outcome.next (publicState_enterTrap s e c cause)

variable {s e c}

/-- A predicate is no privileged state. -/
theorem publicPart_whenHolds {o o' : Host.Outcome State Fault Refusal} (h : publicPart o' = publicPart o) :
    publicPart ((s.withPrivileged e c).whenHolds p o') = publicPart (s.whenHolds p o) := by
  cases hp : s.holds p with
  | true => rw [State.whenHolds_true hp, State.whenHolds_true (s := s.withPrivileged e c) hp, h]
  | false =>
    rw [State.whenHolds_false hp, State.whenHolds_false (s := s.withPrivileged e c) hp]
    exact publicPart_commit s e c []

/-- Neither translation nor the address map is privileged state. -/
theorem publicPart_accessData (k : Access) (va : Word) (n : Nat) (done : Word → List Effect) :
    publicPart ((s.withPrivileged e c).accessData k va n done) = publicPart (s.accessData k va n done) := by
  have hr : (s.withPrivileged e c).reach k va n = s.reach k va n := rfl
  unfold State.accessData
  rw [hr]
  cases s.reach k va n with
  | memory pa => exact publicPart_commit s e c (done pa)
  | pageFault => exact publicPart_enterTrap s e c _
  | unbacked pa => rfl

/-- In user mode a kernel-only instruction does not come to read what it names. -/
theorem publicPart_kernelOnly (hm : s.mode = .user) (o o' : Host.Outcome State Fault Refusal) :
    publicPart ((s.withPrivileged e c).kernelOnly p o') = publicPart (s.kernelOnly p o) := by
  refine publicPart_whenHolds ?_
  rw [show (s.withPrivileged e c).mode = .user from hm, hm]
  exact publicPart_enterTrap s e c _

/-- The one case split over all instructions: in user mode no meaning reads privileged state. -/
theorem publicPart_exec (hm : s.mode = .user) (i : Instr) :
    publicPart (exec i (s.withPrivileged e c)) = publicPart (exec i s) := by
  cases i with
  | lb | lh | lw | ll => exact publicPart_whenHolds (publicPart_accessData _ _ _ _)
  | sb | sh | sw => exact publicPart_whenHolds (publicPart_accessData _ _ _ _)
  | sc p off rt rs =>
    have hl : (s.withPrivileged e c).link = s.link := rfl
    simp only [exec, execSc, hl]
    split
    · exact publicPart_whenHolds (publicPart_accessData _ _ _ _)
    · exact publicPart_whenHolds (publicPart_commit s e c _)
  | brk | syscall => exact publicPart_whenHolds (publicPart_enterTrap s e c _)
  | eret | mfc | mtc => exact publicPart_kernelOnly hm _ _
  | flush p target rs =>
    refine publicPart_whenHolds ?_
    have ht : ∀ k, (s.withPrivileged e c).translate k ((s.withPrivileged e c).reg rs) = s.translate k (s.reg rs) :=
      fun _ => rfl
    cases flushAccess target with
    | none => exact publicPart_commit s e c []
    | some k =>
      simp only [ht]
      cases s.translate k (s.reg rs) with
      | none => exact publicPart_enterTrap s e c _
      | some pa => exact publicPart_commit s e c _
  | _ => exact publicPart_whenHolds (publicPart_commit s e c _)

/-! What a packet reads of its slots' outcomes is in their public parts. -/

theorem collectedBy_publicPart (o : Host.Outcome State Fault Refusal) : collectedBy (publicPart o) = collectedBy o := by
  cases o <;> rfl

theorem isStop_publicPart (o : Host.Outcome State Fault Refusal) : isStop (publicPart o) = isStop o := by
  cases o <;> rfl

theorem publicPart_of_isStop {o : Host.Outcome State Fault Refusal} (h : isStop o = true) : publicPart o = o := by
  cases o with
  | next t => simp [isStop] at h
  | fault f => rfl
  | refused r => rfl

theorem packetEffects_withPrivileged (hm : s.mode = .user) (is : List Instr) :
    packetEffects is (s.withPrivileged e c) = packetEffects is s := by
  have slot : ∀ i, collectedBy (exec i (s.withPrivileged e c)) = collectedBy (exec i s) := fun i => by
    rw [← collectedBy_publicPart, publicPart_exec hm, collectedBy_publicPart]
  simp only [packetEffects, List.flatMap_map, slot]

/-- The stop of the lowest slot that stops is the same one. -/
theorem find_isStop_withPrivileged (hm : s.mode = .user) (is : List Instr) :
    (is.map fun i => exec i (s.withPrivileged e c)).find? isStop = (is.map fun i => exec i s).find? isStop := by
  induction is with
  | nil => rfl
  | cons i is ih =>
    have hx := publicPart_exec (e := e) (c := c) hm i
    have hs : isStop (exec i (s.withPrivileged e c)) = isStop (exec i s) := by
      rw [← isStop_publicPart, hx, isStop_publicPart]
    simp only [List.map_cons, List.find?_cons, hs, ih]
    cases h : isStop (exec i s) with
    | true =>
      have same : exec i (s.withPrivileged e c) = exec i s := by
        rwa [publicPart_of_isStop (hs.trans h), publicPart_of_isStop h] at hx
      simp [same]
    | false => rfl

theorem publicPart_runPacket (hm : s.mode = .user) (is : List Instr) :
    publicPart (runPacket is (s.withPrivileged e c)) = publicPart (runPacket is s) := by
  have he := packetEffects_withPrivileged (e := e) (c := c) hm is
  unfold packetEffects at he
  simp only [runPacket, he, find_isStop_withPrivileged hm]
  split
  · exact publicPart_enterTrap s e c _
  · split
    · rfl
    · split
      · exact publicPart_commit s e c _
      · rfl

theorem publicPart_runWords (hm : s.mode = .user) (ws : List Word) :
    publicPart (runWords ws (s.withPrivileged e c)) = publicPart (runWords ws s) := by
  unfold runWords
  split
  · exact publicPart_runPacket hm _
  · rfl
  · exact publicPart_enterTrap s e c _

theorem publicPart_runFetched (hm : s.mode = .user) (f : Fetched) :
    publicPart (runFetched f (s.withPrivileged e c)) = publicPart (runFetched f s) := by
  cases f with
  | words ws => exact publicPart_runWords hm ws
  | pageFault => exact publicPart_enterTrap s e c _
  | unbacked pa => rfl
  | stale => rfl

/-- An interrupt is taken, and a packet fetched, whatever the privileged state holds. -/
theorem publicPart_step (hm : s.mode = .user) :
    publicPart (step (s.withPrivileged e c)) = publicPart (step s) := by
  have hirqs : (s.withPrivileged e c).irqs = s.irqs := rfl
  have hnext : (s.withPrivileged e c).nextIrqs = s.nextIrqs.withPrivileged e c := rfl
  have hfetch : (s.nextIrqs.withPrivileged e c).fetch = s.nextIrqs.fetch := rfl
  rw [step_eq, step_eq s, hirqs, hnext, hfetch]
  split
  · exact publicPart_enterTrap s.nextIrqs e c _
  · exact publicPart_runFetched (s := s.nextIrqs) hm _

end Outcomes

/-- Settles O47: neither the fetch nor a slot reads Error PC or a coprocessor register in user mode (`publicPart_exec`). -/
theorem userStepsCannotReadPrivilegedState : Obligations.UserStepsCannotReadPrivilegedState :=
  fun _ _ _ hm => publicPart_step hm

end Sys2Proof.Machine

/-! Predicate register P3 (R14) and the general registers (R10, R11). -/

namespace Sys2Proof.Machine

variable {s : State}

/-- Each of the 21 compare forms writes some bit into PD. -/
theorem exec_compareForms (p : Pred) (c : BitVec 10) (rot : BitVec 4) (amt : BitVec 5) (shf : ShiftKind) (rt : RegNum)
    (pd : PredNum) (rs : RegNum) (lim : Word) (s : State) :
    ∀ i ∈ compareForms p c rot amt shf rt pd rs lim, ∃ b, exec i s = s.compareResult p pd b := by
  intro i hi
  fin_cases hi <;> exact ⟨_, rfl⟩

/-- An executed compare into P3 only passes the packet. -/
theorem compareResult_three {p : Pred} (h : s.holds p = true) (b : Bool) :
    s.compareResult p 3 b = .next (s.passed [.pred 3 b]) := State.whenHolds_true h _

/-- Settles O2: P3 has no storage, a predicate that does not hold leaves an instruction nothing to do, and the compares share
one meaning. -/
theorem predicateThreeIsPinnedToOne : Obligations.PredicateThreeIsPinnedToOne := by
  refine ⟨State.pred_three, State.setPred_three, fun _ => rfl, fun i s hi => ?_,
    fun p c rot amt shf rt rs lim s hp i hi => ?_⟩
  · exact exec_of_not_holds (by rw [hi]; rfl)
  · obtain ⟨b, hb⟩ := exec_compareForms p c rot amt shf rt 3 rs lim s i hi
    exact ⟨b, hb.trans (compareResult_three hp b)⟩

/-- Settles O52 by the model's read-after-write law of the general registers. -/
theorem registersReadWhatWasWritten : Obligations.RegistersReadWhatWasWritten := State.reg_setReg

end Sys2Proof.Machine

/-! The writers of `hi` (R15) and of the link bit (R16). -/

namespace Sys2Proof.Machine

variable {s t : State} {i : Instr} {es : List Effect} {b : Bool} {p : Pred} {rd rs rt : RegNum}

/-! ## hi -/

/-- A commit that changes `hi` commits a write of it. -/
theorem exists_hi_mem_of_commit (h : (s.commit es).hi ≠ s.hi) : ∃ v, Effect.hi v ∈ es := by
  by_contra hn
  refine h (State.commit_keeps (P := fun u => u.hi = s.hi) rfl fun u e he hu => ?_)
  cases e with
  | hi v => exact absurd ⟨v, he⟩ hn
  | _ => simpa using hu

/-- The instructions that may write `hi` (R15). -/
theorem mayCollect_hi {v : Word} (h : mayCollect i (.hi v) = true) :
    (∃ p rt rd rs, i = .mult p rt rd rs ∨ i = .mults p rt rd rs ∨ i = .div p rt rd rs) ∨ ∃ p rs, i = .mthi p rs := by
  cases i with
  | mult p rt rd rs => exact .inl ⟨p, rt, rd, rs, .inl rfl⟩
  | mults p rt rd rs => exact .inl ⟨p, rt, rd, rs, .inr (.inl rfl)⟩
  | div p rt rd rs => exact .inl ⟨p, rt, rd, rs, .inr (.inr rfl)⟩
  | mthi p rs => exact .inr ⟨p, rs, rfl⟩
  | _ => cases h

/-- Settles O48: trap entry leaves `hi` alone, and what a packet commits into it was collected by an executed slot. -/
theorem hiIsWrittenByFourInstructions : Obligations.HiIsWrittenByFourInstructions := by
  intro s t h hne
  rcases step_next_stepRuns h with ⟨c, rfl⟩ | ⟨is, es, hr, rfl, hc⟩
  · exact absurd rfl hne
  · obtain ⟨v, hv⟩ := exists_hi_mem_of_commit (s := s.nextIrqs) hne
    obtain ⟨i, hi, _, _, _, hp, hk⟩ := hc.collector hv
    exact ⟨is, i, hr, hi, hp, mayCollect_hi hk⟩

/-! ## The link bit -/

/-- A commit that turns the link bit to `b` commits that write. -/
theorem link_mem_of_commit (hs : s.link ≠ b) (ht : (s.commit es).link = b) : Effect.link b ∈ es := by
  by_contra hn
  refine State.commit_keeps (P := fun u => u.link ≠ b) hs (fun u e he hu => ?_) ht
  cases e with
  | link b' => exact fun hb : b' = b => hn (hb ▸ he)
  | _ => simpa using hu

/-- LL only sets the link bit (R174). -/
theorem link_of_ll {off : BitVec 12} (h : exec (.ll p off rd rs) s = .next t) (hb : Effect.link b ∈ t.collected) :
    b = true := by
  rcases State.whenHolds_next h with ⟨-, rfl⟩ | ⟨-, h⟩
  · simp at hb
  · rcases State.accessData_next h with ⟨-, rfl⟩ | ⟨_, -, -, rfl⟩
    · simp at hb
    · simpa using hb

/-- SC only clears the link bit (R178). -/
theorem link_of_sc {off : BitVec 11} (h : exec (.sc p off rt rs) s = .next t) (hb : Effect.link b ∈ t.collected) :
    b = false := by
  simp only [exec, execSc] at h
  split at h
  · rcases State.whenHolds_next h with ⟨-, rfl⟩ | ⟨-, h⟩
    · simp at hb
    · rcases State.accessData_next h with ⟨-, rfl⟩ | ⟨_, -, -, rfl⟩
      · simp at hb
      · simpa using hb
  · rcases State.whenHolds_next h with ⟨-, rfl⟩ | ⟨-, h⟩
    · simp at hb
    · cases h
      simpa using hb

/-- ERET only clears the link bit (R203). -/
theorem link_of_eret (h : exec (.eret p) s = .next t) (hb : Effect.link b ∈ t.collected) : b = false := by
  rcases State.kernelOnly_next h with ⟨-, rfl⟩ | ⟨-, -, rfl⟩ | ⟨-, -, h⟩
  · simp at hb
  · simp at hb
  · split at h
    · cases h
      simpa [State.returnEffects] using hb
    · cases h

/-- The writers of the link bit, by the value they write (R16). -/
theorem writer_of_link (h : exec i s = .next t) (hb : Effect.link b ∈ t.collected)
    (hk : mayCollect i (.link b) = true) :
    (b = true ∧ ∃ p off rd rs, i = .ll p off rd rs) ∨
      (b = false ∧ ((∃ p off rt rs, i = .sc p off rt rs) ∨ ∃ p, i = .eret p)) := by
  cases i with
  | ll p off rd rs => exact .inl ⟨link_of_ll h hb, p, off, rd, rs, rfl⟩
  | sc p off rt rs => exact .inr ⟨link_of_sc h hb, .inl ⟨p, off, rt, rs, rfl⟩⟩
  | eret p => exact .inr ⟨link_of_eret h hb, .inr ⟨p, rfl⟩⟩
  | _ => cases hk

/-- Settles O49: a trap clears the link bit, and what a packet commits into it was collected by an executed LL, SC or
ERET, which each write one value only. -/
theorem linkBitChangesOnlyAsStated : Obligations.LinkBitChangesOnlyAsStated := by
  intro s t h
  rcases step_next_stepRuns h with ⟨c, rfl⟩ | ⟨is, es, hr, rfl, hc⟩
  · exact ⟨fun _ ht => absurd ht Bool.false_ne_true, fun _ _ => .inl ⟨c, rfl⟩⟩
  · constructor <;> intro hs ht
    · obtain ⟨i, hi, _, hx, hb, hp, hk⟩ := hc.collector (link_mem_of_commit (by simp [hs]) ht)
      rcases writer_of_link hx hb hk with ⟨-, p, off, rd, rs, rfl⟩ | ⟨hb, -⟩
      · exact ⟨is, p, off, rd, rs, hr, hi, hp⟩
      · cases hb
    · obtain ⟨i, hi, _, hx, hb, hp, hk⟩ := hc.collector (link_mem_of_commit (by simp [hs]) ht)
      rcases writer_of_link hx hb hk with ⟨hb, -⟩ | ⟨-, hw⟩
      · cases hb
      · exact .inr ⟨is, i, hr, hi, hp, hw⟩

end Sys2Proof.Machine

/-! Stored bytes read back (R32, R33), and the marks of stored bytes under the two cache flushes (R45). -/

namespace Sys2Proof.Machine

/-! ## Bytes read back -/

/-- The low `n` bytes of a value, read as a value again (R32). -/
theorem littleEndian_littleEndianBytes (n : Nat) (v : Word) :
    littleEndian (littleEndianBytes n v) = (v.setWidth (8 * n)).setWidth 32 := by
  induction n generalizing v with
  | zero => rw [BitVec.eq_nil (v.setWidth (8 * 0))]; rfl
  | succ n ih =>
    rw [littleEndianBytes, littleEndian_cons, ih]
    apply BitVec.eq_of_getLsbD_eq; intro i hi
    by_cases h8 : i < 8
    · simp [h8, hi, show i < 8 * (n + 1) by omega]
    · have hn : i - 8 < 8 * n ↔ i < 8 * (n + 1) := by omega
      simp [h8, hi, hn, show 8 + (i - 8) = i by omega, show i - 8 < 32 by omega]

/-- Byte `k` of a range that does not pass the top of the address space. -/
theorem toNat_add_ofNat {pa : Word} {k n : Nat} (hk : k < n) (hw : pa.toNat + n ≤ 2 ^ 32) :
    (pa + BitVec.ofNat 32 k).toNat = pa.toNat + k := by
  rw [BitVec.toNat_add, BitVec.toNat_ofNat]
  omega

/-- A load of one byte gives that byte, zero-extended. -/
theorem Memory.load_one (m : Memory) (pa : Word) : m.load pa 1 = 0#24 ++ m.read pa.toNat := littleEndian_one _

variable {m : Memory} {pa : Word} {n : Nat}

/-- A load of as many bytes as were stored gives their value back. -/
theorem Memory.load_writeBytes_bytesOf (hm : m.wf) (hw : pa.toNat + n ≤ 2 ^ 32) (v : Word) :
    (m.writeBytes pa (bytesOf n v)).load pa n = (v.setWidth (8 * n)).setWidth 32 := by
  have hl := length_bytesOf n v
  have hr := Memory.readBytes_writeBytes (bs := bytesOf n v) hm (by rwa [hl])
  rw [hl] at hr
  rw [Memory.load_eq, hr, bytesOf_eq, littleEndian_littleEndianBytes]

/-- A load of one of the stored bytes gives that byte of the value. -/
theorem Memory.load_one_writeBytes_bytesOf (hm : m.wf) (hw : pa.toNat + n ≤ 2 ^ 32) {k : Nat} (hk : k < n) (v : Word) :
    (m.writeBytes pa (bytesOf n v)).load (pa + BitVec.ofNat 32 k) 1 = 0#24 ++ v.extractLsb' (8 * k) 8 := by
  have hl := length_bytesOf n v
  rw [Memory.load_one, toNat_add_ofNat hk hw, Memory.read_writeBytes_of_inside hm (by rwa [hl]) (by rwa [hl]),
    getElem_bytesOf]

/-- Settles O53: the stored bytes are the little-endian ones of the value, and each reads back as it was written. -/
theorem loadsReadTheLatestStore : Obligations.LoadsReadTheLatestStore :=
  fun _ _ v _ hm _ hw =>
    ⟨Memory.load_writeBytes_bytesOf hm hw v, fun _ hk => Memory.load_one_writeBytes_bytesOf hm hw hk v⟩

end Sys2Proof.Machine

/-! The marks of a stored word under FLUSH DATA and FLUSH INST (R45, R204). -/

namespace Sys2Proof.Machine

variable {m : Marks} {pa : Word}

/-- A mark on the word of `pa` is a mark on one of the bytes that share its word. -/
theorem Marks.anyMarked_word_iff :
    m.anyMarked (pa &&& 0xFFFFFFFC) 4 = true ↔ ∃ a, a / 4 = pa.toNat / 4 ∧ (assocGet m a).isSome = true := by
  have h := toNat_align4 pa
  unfold align4 at h
  rw [Marks.anyMarked_iff (by have := pa.isLt; omega), h]
  constructor
  · rintro ⟨k, hk, hs⟩
    exact ⟨_, by omega, hs⟩
  · rintro ⟨a, ha, hs⟩
    exact ⟨a % 4, by omega, by rwa [← ha, Nat.div_add_mod']⟩

/-- A byte of the word that holds some mark marks the word. -/
theorem Marks.anyMarked_word_of_get {st : Stage} (h : assocGet m pa.toNat = some st) :
    m.anyMarked (pa &&& 0xFFFFFFFC) 4 = true :=
  Marks.anyMarked_word_iff.2 ⟨_, rfl, by rw [h]; rfl⟩

/-- A FLUSH of the word of `pa` moves the mark of the byte at `pa`. -/
theorem Marks.get_flush_self (hm : m.wf) (target : FlushTarget) :
    assocGet (m.flush target pa) pa.toNat = flushedMark target (assocGet m pa.toNat) := by
  rw [Marks.get_flush hm, if_pos rfl]

/-- FLUSH DATA and then FLUSH INST make a byte fetchable, whatever its mark was (R45). -/
theorem flushedMark_inst_data (o : Option Stage) : flushedMark .inst (flushedMark .data o) = none := by
  match o with
  | none => rfl
  | some .stored => rfl
  | some .dataFlushed => rfl

/-- After FLUSH DATA and then FLUSH INST of a word none of its bytes is marked. -/
theorem Marks.anyMarked_flush_data_inst (hm : m.wf) :
    ((m.flush .data pa).flush .inst pa).anyMarked (pa &&& 0xFFFFFFFC) 4 = false := by
  rw [Bool.eq_false_iff, Ne, Marks.anyMarked_word_iff]
  rintro ⟨a, ha, hs⟩
  rw [Marks.get_flush (Marks.flush_wf hm _ _), if_pos ha, Marks.get_flush hm, if_pos ha, flushedMark_inst_data] at hs
  cases hs

/-- Settles O54: the first stored byte keeps a mark under every sequence but DATA and then INST, which leaves none on the
word. -/
theorem storedCodeNeedsDataThenInstFlush : Obligations.StoredCodeNeedsDataThenInstFlush := by
  intro m pa n hm hn hfit m' word
  have hwf : m'.wf := Marks.stored_wf hm pa n
  have hs : assocGet m' pa.toNat = some .stored := by
    rw [Marks.get_stored hm (by have := pa.isLt; omega), if_pos (by omega)]
  have hinst : assocGet (m'.flush .inst pa) pa.toNat = some .stored := by rw [Marks.get_flush_self hwf, hs]; rfl
  have hdata : assocGet (m'.flush .data pa) pa.toNat = some .dataFlushed := by rw [Marks.get_flush_self hwf, hs]; rfl
  have hboth : assocGet ((m'.flush .inst pa).flush .data pa) pa.toNat = some .dataFlushed := by
    rw [Marks.get_flush_self (Marks.flush_wf hwf _ _), hinst]; rfl
  exact ⟨Marks.anyMarked_word_of_get hs, Marks.anyMarked_word_of_get hinst, Marks.anyMarked_word_of_get hdata,
    Marks.anyMarked_word_of_get hboth, Marks.anyMarked_flush_data_inst hwf⟩

end Sys2Proof.Machine

/-! Data accesses outside the memory map (R33). -/

namespace Sys2Proof.Machine

variable {s : State} {p : Pred} {va pa : Word} {n : Nat}

/-- An executed load outside the map stops the machine. -/
theorem State.loadInto_of_unbacked (hp : s.holds p = true) (ht : s.translate .load va = some pa)
    (hb : s.backed pa n = false) (rd : RegNum) (more : List Effect) :
    s.loadInto p rd va n more = .fault (.unbackedAddress pa) :=
  (State.whenHolds_true hp _).trans (State.accessData_of_unbacked ht hb _)

/-- An executed store outside the map stops the machine. -/
theorem State.storeAt_of_unbacked (hp : s.holds p = true) (ht : s.translate .store va = some pa)
    (hb : s.backed pa n = false) (v : Word) (more : List Effect) :
    s.storeAt p v va n more = .fault (.unbackedAddress pa) :=
  (State.whenHolds_true hp _).trans (State.accessData_of_unbacked ht hb _)

/-- With the link bit set SC is a store of the word (R178). -/
theorem exec_sc_of_link (hl : s.link = true) (p : Pred) (off : BitVec 11) (rt rs : RegNum) :
    exec (.sc p off rt rs) s =
      s.storeAt p (s.reg rt) (align4 (s.effAddr rs off)) 4 [.pred 0 true, .link false] := if_pos hl

/-- Settles O21: each of the eight is one load or one store at its aligned address. -/
theorem unbackedDataAccessStops : Obligations.UnbackedDataAccessStops := by
  intro s p off off' rd rt rs pa hp ld st
  refine ⟨fun ht hb => ?lb, fun ht hb => ?lh, fun ht hb => ⟨?lw, ?ll⟩, fun ht hb => ?sb, fun ht hb => ?sh,
    fun ht hb => ⟨?sw, fun hl => ?sc⟩⟩
  case lb | lh | lw | ll => exact State.loadInto_of_unbacked hp ht hb _ _
  case sb | sh | sw => exact State.storeAt_of_unbacked hp ht hb _ _
  case sc => exact (exec_sc_of_link hl p off' rt rs).trans (State.storeAt_of_unbacked hp ht hb _ _)

end Sys2Proof.Machine

/-! The class of a decoded word (R62, R82), and so: control instructions stand in slot 0 only. -/

namespace Sys2Proof

variable {w lim : Word} {i : Instr}

/-! ## The class of what each format decodes to -/

theorem slotClass_of_decodeShort (h : decodeShort w = .ok i) : i.slotClass = .alu := by
  unfold decodeShort at h
  split at h
  case h_8 => split at h <;> cases h <;> rfl
  all_goals cases h <;> rfl

theorem slotClass_of_decodeShifted (h : decodeShifted w = .ok i) : i.slotClass = .alu := by
  unfold decodeShifted at h
  split at h
  case h_8 => split at h <;> cases h <;> rfl
  all_goals cases h <;> rfl

theorem slotClass_of_decodeLong (h : decodeLong w lim = .ok i) : i.slotClass = .alu := by
  unfold decodeLong at h
  split at h
  case h_8 => split at h <;> cases h <;> rfl
  all_goals cases h <;> rfl

theorem slotClass_of_decodeRegShift (h : decodeRegShift w = .ok i) : i.slotClass = .alu := by
  unfold decodeRegShift at h
  split at h <;> cases h <;> rfl

theorem slotClass_of_decodeMemory (h : decodeMemory w = .ok i) : i.slotClass = .memory := by
  unfold decodeMemory at h
  split at h
  · split at h <;> cases h <;> rfl
  · split at h
    · cases h
    · split at h <;> cases h <;> rfl

theorem slotClass_of_decodeBranch (h : decodeBranch w = .ok i) : i.slotClass = .control := by
  unfold decodeBranch at h
  split at h <;> cases h <;> rfl

/-- If a decoder answers an instruction, it is one of class `c`. -/
def DecodesTo (c : SlotClass) (d : Except DecodeStop Instr) : Prop := ∀ i, d = .ok i → i.slotClass = c

theorem DecodesTo.ok {c : SlotClass} (h : i.slotClass = c) : DecodesTo c (.ok i) := by
  rintro _ ⟨⟩; exact h

theorem DecodesTo.error {c : SlotClass} (e : DecodeStop) : DecodesTo c (.error e) :=
  fun _ h => by cases h

theorem DecodesTo.ite {c : SlotClass} {q : Prop} [Decidable q] {d d' : Except DecodeStop Instr}
    (h : DecodesTo c d) (h' : DecodesTo c d') : DecodesTo c (if q then d else d') := by
  split <;> assumption

/-- Every subop of format O that decodes is a control instruction (R77, R82). -/
theorem decodesTo_decodeOther (w : Word) : DecodesTo .control (decodeOther w) := by
  unfold decodeOther
  refine .ite (.ok rfl) (.ite (.ok rfl) (.ite (.ok rfl) (.ite (.ok rfl) (.ite (.ok rfl) (.ite (.ok rfl)
    (.ite (.ok rfl) (.ite ?mult (.ite (.ok rfl) (.ite (.ok rfl) (.ite (.ok rfl) (.error _)))))))))))
  exact .ite (.ok rfl) (.ok rfl)

/-! ## The class read from bits 28:24 -/

/-- The number of a field that is known. -/
theorem toNat_of_field_eq {lo n : Nat} {v : BitVec n} (h : field w lo n = v) :
    w.toNat / 2 ^ lo % 2 ^ n = v.toNat := by rw [← toNat_field, h]

/-- The pattern of the shifted formats excludes those that `wordClass` tests (R62). -/
theorem wordClass_of_shifted (short : ¬ field w 28 1 = 0) (shifted : field w 26 3 = 0b101) : wordClass w = .alu := by
  have hs : w.toNat / 2 ^ 26 % 2 ^ 3 = 5 := toNat_of_field_eq shifted
  have branch : ¬ field w 27 2 = 0b11 := fun h => by
    have : w.toNat / 2 ^ 27 % 2 ^ 2 = 3 := toNat_of_field_eq h
    omega
  have memory : ¬ field w 25 4 = 0b1001 := fun h => by
    have : w.toNat / 2 ^ 25 % 2 ^ 4 = 9 := toNat_of_field_eq h
    omega
  have other : ¬ field w 24 5 = 0b10001 := fun h => by
    have : w.toNat / 2 ^ 24 % 2 ^ 5 = 17 := toNat_of_field_eq h
    omega
  rw [wordClass, if_neg short, if_neg branch, if_neg memory, if_neg other]

/-- The class read from bits 28:24 of a word is that of the instruction it decodes to (R62, R82). -/
theorem slotClass_of_decodeWord (h : decodeWord w lim = .ok i) : i.slotClass = wordClass w := by
  unfold decodeWord at h
  split at h
  case isTrue short => rw [slotClass_of_decodeShort h, wordClass, if_pos short]
  case isFalse short =>
  split at h
  case isTrue shifted => rw [slotClass_of_decodeShifted h, wordClass_of_shifted short shifted]
  case isFalse =>
  rw [wordClass, if_neg short]
  split at h
  case isTrue branch => rw [slotClass_of_decodeBranch h, if_pos branch]
  case isFalse branch =>
  rw [if_neg branch]
  split at h
  case isTrue memory => rw [slotClass_of_decodeMemory h, if_pos memory]
  case isFalse memory =>
  rw [if_neg memory]
  split at h
  case isTrue other => rw [decodesTo_decodeOther w i h, if_pos other]
  case isFalse other =>
  rw [if_neg other]
  split at h
  · exact slotClass_of_decodeLong h
  · split at h
    · exact slotClass_of_decodeRegShift h
    · cases h

/-! ## Slots of a decoded packet -/

theorem decodeFrom_nil (slot : Nat) : decodeFrom slot [] = .ok [] := by
  rw [decodeFrom.eq_def]

/-- Decoding from a slot on: the first instruction stands in a slot its class allows, and the others are decoded from a
later slot on. -/
theorem decodeFrom_cons {slot : Nat} {ws : List Word} {is : List Instr} (h : decodeFrom slot ws = .ok (i :: is)) :
    i.slotClass.allows slot = true ∧ ∃ ws' n, decodeFrom (slot + (n + 1)) ws' = .ok is := by
  cases ws with
  | nil => rw [decodeFrom_nil] at h; cases h
  | cons w ws =>
    rw [decodeFrom.eq_def] at h
    simp only at h
    split at h
    · cases h
    next j hj =>
    split at h
    · cases h
    next hslot =>
    have hc : j.slotClass.allows slot = true := by simpa [slotClass_of_decodeWord hj] using hslot
    split at h
    · split at h
      · cases h
      · split at h
        · cases h
        · next hr => cases h; exact ⟨hc, _, 1, hr⟩
    · split at h
      · cases h
      · next hr => cases h; exact ⟨hc, _, 0, hr⟩

/-- From slot 1 on no control instruction is decoded (R82). -/
theorem not_control_of_decodeFrom {slot : Nat} {ws : List Word} {is : List Instr}
    (h : decodeFrom (slot + 1) ws = .ok is) : ∀ i ∈ is, i.slotClass ≠ .control := by
  induction is generalizing slot ws with
  | nil => simp
  | cons i is ih =>
    obtain ⟨hc, ws', n, hr⟩ := decodeFrom_cons h
    refine List.forall_mem_cons.2 ⟨fun hctl => ?_, ih hr⟩
    rw [hctl] at hc
    simp [SlotClass.allows] at hc

/-- In a decoded packet only slot 0 may hold a control instruction (R82). -/
theorem not_control_of_decodePacket {ws : List Word} {is : List Instr} (h : decodePacket ws = .ok (i :: is)) :
    ∀ j ∈ is, j.slotClass ≠ .control := by
  obtain ⟨-, ws', n, hr⟩ := decodeFrom_cons h
  exact not_control_of_decodeFrom (by rwa [Nat.zero_add] at hr)

end Sys2Proof

/-! A byte of memory that a step changes (R30, R45): a store wrote it, and no FLUSH of the same packet came after. -/

namespace Sys2Proof.Machine

variable {s t : State} {i : Instr} {is : List Instr} {e : Effect} {es : List Effect} {a : Nat}

/-! ## What the slots collect -/

/-- An instruction collects only its own kinds of effect, unless it takes a trap. -/
theorem mayCollect_of_mem_collectedBy (he : e ∈ collectedBy (exec i s)) (ht : ∀ c, e ≠ .trap c) :
    mayCollect i e = true := by
  cases hx : exec i s with
  | next u =>
    rw [hx] at he
    rcases exec_answers i s u hx with ⟨c, rfl⟩ | ⟨es, rfl, hc⟩
    · exact absurd (List.mem_singleton.1 he) (ht c)
    · exact hc.kinds e (by simpa [collectedBy] using he)
  | fault f => rw [hx] at he; cases he
  | refused r => rw [hx] at he; cases he

/-- The instructions that may store (R30). -/
theorem mayCollect_store {pa : Word} {bs : List Byte} (h : mayCollect i (.store pa bs) = true) :
    ∃ p off rt rs, i = .sb p off rt rs ∨ i = .sh p off rt rs ∨ i = .sw p off rt rs ∨ i = .sc p off rt rs := by
  cases i with
  | sb p off rt rs => exact ⟨p, off, rt, rs, .inl rfl⟩
  | sh p off rt rs => exact ⟨p, off, rt, rs, .inr (.inl rfl)⟩
  | sw p off rt rs => exact ⟨p, off, rt, rs, .inr (.inr (.inl rfl))⟩
  | sc p off rt rs => exact ⟨p, off, rt, rs, .inr (.inr (.inr rfl))⟩
  | _ => cases h

/-- The stores are memory instructions. -/
theorem memory_of_mayCollect_store {pa : Word} {bs : List Byte} (h : mayCollect i (.store pa bs) = true) :
    i.slotClass = .memory := by
  cases i with
  | sb | sh | sw | sc => rfl
  | _ => cases h

/-- FLUSH is a control instruction. -/
theorem control_of_mayCollect_flush {k : FlushTarget} {pa : Word} (h : mayCollect i (.flush k pa) = true) :
    i.slotClass = .control := by
  cases i with
  | flush => rfl
  | _ => cases h

theorem not_flush_of_not_control (h : i.slotClass ≠ .control) (he : e ∈ collectedBy (exec i s)) (k : FlushTarget)
    (pa : Word) : e ≠ .flush k pa := by
  rintro rfl
  exact h (control_of_mayCollect_flush (mayCollect_of_mem_collectedBy he (by simp)))

theorem not_store_of_control (h : i.slotClass = .control) (he : e ∈ collectedBy (exec i s)) (pa : Word)
    (bs : List Byte) : e ≠ .store pa bs := by
  rintro rfl
  cases h.symm.trans (memory_of_mayCollect_store (mayCollect_of_mem_collectedBy he (by simp)))

theorem packetEffects_cons (i : Instr) (is : List Instr) (s : State) :
    packetEffects (i :: is) s = collectedBy (exec i s) ++ packetEffects is s := rfl

theorem mem_packetEffects (he : e ∈ packetEffects is s) : ∃ i ∈ is, e ∈ collectedBy (exec i s) := by
  simpa [packetEffects] using he

/-! ## Memory under the effects of a packet -/

/-- Only a store writes memory. -/
theorem apply_mem_of_not_store (h : ∀ pa bs, e ≠ .store pa bs) (s : State) : (s.apply e).mem = s.mem := by
  cases e with
  | store pa bs => exact absurd rfl (h pa bs)
  | _ => simp

/-- A commit that changes memory commits a store. -/
theorem exists_store_mem_of_commit (h : (s.commit es).mem ≠ s.mem) : ∃ pa bs, Effect.store pa bs ∈ es := by
  by_contra hn
  push Not at hn
  exact h (State.commit_keeps (P := fun u => u.mem = s.mem) rfl fun u e he hu =>
    (apply_mem_of_not_store (fun pa bs hst => hn pa bs (hst ▸ he)) u).trans hu)

/-! ## The mark of a changed byte -/

theorem Marks.get_set_stored {m : Marks} (h : assocGet m a = some .stored) (b : Nat) :
    assocGet (assocSet m b (some .stored)) a = some .stored := by
  by_cases hab : a = b
  · rw [hab, assocGet_assocSet_some]
  · rw [assocGet_assocSet_of_ne hab, h]

/-- A byte marked as stored keeps that mark when more bytes are stored. -/
theorem Marks.get_stored_of_stored {m : Marks} (h : assocGet m a = some .stored) (pa : Word) (n : Nat) :
    assocGet (m.stored pa n) a = some .stored := by
  induction n generalizing m pa with
  | zero => exact h
  | succ n ih => exact ih (Marks.get_set_stored h _) _

/-- A byte that a write of bytes changes is among those that are marked for it, in any list and at any address. -/
theorem Marks.get_stored_of_changed {m : Memory} {pa : Word} {bs : List Byte}
    (h : (m.writeBytes pa bs).read a ≠ m.read a) (k : Marks) :
    assocGet (k.stored pa bs.length) a = some .stored := by
  induction bs generalizing m pa k with
  | nil => exact absurd rfl h
  | cons b bs ih =>
    rw [Memory.writeBytes] at h
    by_cases ha : a = pa.toNat
    · subst ha
      exact Marks.get_stored_of_stored (assocGet_assocSet_some _ _ _) _ _
    · exact ih (by rwa [Memory.read_write_of_ne b ha]) _

/-- Byte `a` is marked as stored in `t` if it reads otherwise there than in `s`. -/
def MarkedIfChanged (s t : State) (a : Nat) : Prop := t.mem.read a ≠ s.mem.read a → assocGet t.marks a = some .stored

theorem MarkedIfChanged.of_mem_eq (h : t.mem = s.mem) : MarkedIfChanged s t a := fun hne => absurd (by rw [h]) hne

/-- Every effect but a FLUSH keeps the mark of a changed byte. -/
theorem MarkedIfChanged.apply (h : MarkedIfChanged s t a) (hf : ∀ k pa, e ≠ .flush k pa) :
    MarkedIfChanged s (t.apply e) a := by
  cases e with
  | store pa bs =>
    intro hne
    by_cases hw : (t.mem.writeBytes pa bs).read a = t.mem.read a
    · exact Marks.get_stored_of_stored (h (hw ▸ hne)) _ _
    · exact Marks.get_stored_of_changed hw _
  | flush k pa => exact absurd rfl (hf k pa)
  | pred n b => simpa [MarkedIfChanged] using h
  | _ => exact h

/-- What slot 0 commits marks what it changes: it cannot both store and FLUSH. -/
theorem markedIfChanged_slot_zero (hm : t.mem = s.mem) (i : Instr) (u : State) :
    MarkedIfChanged s ((collectedBy (exec i u)).foldl State.apply t) a := by
  by_cases hc : i.slotClass = .control
  · exact .of_mem_eq (foldl_apply_keeps (P := fun v => v.mem = s.mem) hm fun v e he hv =>
      (apply_mem_of_not_store (not_store_of_control hc he) v).trans hv)
  · exact foldl_apply_keeps (P := (MarkedIfChanged s · a)) (.of_mem_eq hm) fun v e he hv =>
      hv.apply (not_flush_of_not_control hc he)

/-- A packet whose control instructions stand in slot 0 only marks what it changes: no FLUSH follows its stores. -/
theorem markedIfChanged_commit (hs : ∀ j ∈ is, j.slotClass ≠ .control) :
    MarkedIfChanged s (s.commit (packetEffects (i :: is) s)) a := by
  rw [packetEffects_cons, State.commit_eq_foldl, List.foldl_append]
  refine foldl_apply_keeps (P := (MarkedIfChanged s · a)) (markedIfChanged_slot_zero rfl i s) fun v e he hv => ?_
  obtain ⟨j, hj, he⟩ := mem_packetEffects he
  exact hv.apply (not_flush_of_not_control (hs j hj) he)

/-- Settles O50: what changes a byte is a store that an executed slot collected, and its mark stays because a FLUSH stands in
slot 0 only, before every store of its packet. -/
theorem memoryChangesOnlyByStores : Obligations.MemoryChangesOnlyByStores := by
  intro s t a h hne
  rcases step_next_stepRuns h with ⟨c, rfl⟩ | ⟨is, es, hr, rfl, hc⟩
  · exact absurd rfl hne
  · obtain ⟨ws, -, hd⟩ := id hr
    obtain ⟨pa, bs, hst⟩ := exists_store_mem_of_commit (s := s.nextIrqs) fun hm => hne (by rw [hm]; rfl)
    obtain ⟨i, hi, _, _, _, hp, hk⟩ := hc.collector hst
    refine ⟨?_, is, i, hr, hi, hp, mayCollect_store hk⟩
    cases is with
    | nil => cases hi
    | cons j js =>
      rw [hc.eq] at hne ⊢
      exact markedIfChanged_commit (s := s.nextIrqs) (not_control_of_decodePacket hd) hne

end Sys2Proof.Machine

/-! The decoder undoes the encoder (R61 to R77, R81, R84): each format's fields read back, the major decode picks the format
that was written, and so every instruction decodes to itself. -/

namespace Sys2Proof

variable {w lim : Word} {i : Instr}

/-! ## The fields of an encoded word, by format -/

theorem predOf_eq_of {p : Pred} (h : field w 29 3 = p.bits) : predOf w = p := by
  rw [predOf, h, Pred.ofBits_bits]

/-- A field that a format writes as a constant. -/
theorem field_eq_num {lo n : Nat} (k : Nat) (h : w.toNat / 2 ^ lo % 2 ^ n = k % 2 ^ n) : field w lo n = BitVec.ofNat n k :=
  field_eq_of (h.trans (BitVec.toNat_ofNat k n).symm)

/-- A field inside a field. -/
theorem extractLsb'_field {lo n k m : Nat} (h : k + m ≤ n) : (field w lo n).extractLsb' k m = field w (lo + k) m := by
  apply BitVec.eq_of_getLsbD_eq
  intro j hj
  simp [field, show k + j < n by omega, Nat.add_assoc]

/-- The CMP field is the top of the RD field (R70). -/
theorem field_cmp (w : Word) : field w 7 3 = (field w 5 5).extractLsb' 2 3 :=
  (extractLsb'_field (n := 5) (k := 2) (m := 3) (by decide)).symm

/-- The PD field is the bottom of the RD field (R70). -/
theorem field_pd (w : Word) : field w 5 2 = (field w 5 5).extractLsb' 0 2 :=
  (extractLsb'_field (n := 5) (k := 0) (m := 2) (by decide)).symm

/-- The word of formats A-L and M-L, without LIM (R65, R69). -/
def longWord (p : Pred) (opcode : BitVec 4) (rd rs : BitVec 5) : Word :=
  p.bits ++ 0b100000000000000#15 ++ opcode ++ rd ++ rs

theorem encodeLong_eq (p : Pred) (opcode : BitVec 4) (rd rs : BitVec 5) (lim : Word) :
    encodeLong p opcode rd rs lim = [longWord p opcode rd rs, lim] := rfl

theorem toNat_longWord (p : Pred) (opcode : BitVec 4) (rd rs : BitVec 5) :
    (longWord p opcode rd rs).toNat =
      p.bits.toNat * 2 ^ 29 + 16384 * 2 ^ 14 + opcode.toNat * 2 ^ 10 + rd.toNat * 2 ^ 5 + rs.toNat :=
  toNat_encodeLong p opcode rd rs

section Fields

variable (p : Pred) (c : BitVec 10) (rot opcode subop : BitVec 4) (amt rt rd rs : BitVec 5) (shf : ShiftKind)
  (l : BitVec 1) (off25 : BitVec 25) (off20 low : BitVec 20) (off12 : BitVec 12) (off11 : BitVec 11) (width : BitVec 2)

theorem fields_encodeShort :
    let w := encodeShort p c rot opcode rd rs
    predOf w = p ∧ field w 28 1 = 0 ∧ field w 18 10 = c ∧ field w 14 4 = rot ∧ field w 10 4 = opcode ∧
      field w 5 5 = rd ∧ field w 0 5 = rs := by
  refine ⟨predOf_eq_of (field_eq_of ?_), field_eq_num 0 ?_, field_eq_of ?_, field_eq_of ?_, field_eq_of ?_,
    field_eq_of ?_, field_eq_of ?_⟩
  all_goals rw [toNat_encodeShort]; omega

theorem fields_encodeShifted :
    let w := encodeShifted p amt shf rt opcode rd rs
    predOf w = p ∧ field w 26 3 = 0b101 ∧ field w 21 5 = amt ∧ field w 19 2 = shf.bits ∧
      field w 14 5 = rt ∧ field w 10 4 = opcode ∧ field w 5 5 = rd ∧ field w 0 5 = rs := by
  refine ⟨predOf_eq_of (field_eq_of ?_), field_eq_num 0b101 ?_, field_eq_of ?_, field_eq_of ?_, field_eq_of ?_,
    field_eq_of ?_, field_eq_of ?_, field_eq_of ?_⟩
  all_goals rw [toNat_encodeShifted]; omega

theorem fields_encodeRegShift :
    let w := encodeRegShift p shf rt opcode rd rs
    predOf w = p ∧ field w 21 8 = 0b10000001 ∧ field w 19 2 = shf.bits ∧
      field w 14 5 = rt ∧ field w 10 4 = opcode ∧ field w 5 5 = rd ∧ field w 0 5 = rs := by
  refine ⟨predOf_eq_of (field_eq_of ?_), field_eq_num 0b10000001 ?_, field_eq_of ?_, field_eq_of ?_, field_eq_of ?_,
    field_eq_of ?_, field_eq_of ?_⟩
  all_goals rw [toNat_encodeRegShift]; omega

theorem fields_longWord :
    let w := longWord p opcode rd rs
    predOf w = p ∧ field w 14 15 = 0x4000 ∧ field w 10 4 = opcode ∧ field w 5 5 = rd ∧ field w 0 5 = rs := by
  refine ⟨predOf_eq_of (field_eq_of ?_), field_eq_num 0x4000 ?_, field_eq_of ?_, field_eq_of ?_, field_eq_of ?_⟩
  all_goals rw [toNat_longWord]; omega

theorem fields_encodeBranchPc :
    let w := encodeBranchPc p l off25
    predOf w = p ∧ field w 27 2 = 0b11 ∧ field w 25 2 = 0#1 ++ l ∧ field w 0 25 = off25 := by
  have h := toNat_encodeBranchPc p l off25
  have hl : (0#1 ++ l).toNat = 0 * 2 ^ 1 + l.toNat := toNat_append_eq 0#1 l
  refine ⟨predOf_eq_of (field_eq_of ?_), field_eq_num 0b11 ?_, field_eq_of ?_, field_eq_of ?_⟩
  all_goals omega

theorem fields_encodeBranchReg :
    let w := encodeBranchReg p l off20 rs
    predOf w = p ∧ field w 27 2 = 0b11 ∧ field w 25 2 = 1#1 ++ l ∧ field w 5 20 = off20 ∧ field w 0 5 = rs := by
  have h := toNat_encodeBranchReg p l off20 rs
  have hl : (1#1 ++ l).toNat = 1 * 2 ^ 1 + l.toNat := toNat_append_eq 1#1 l
  refine ⟨predOf_eq_of (field_eq_of ?_), field_eq_num 0b11 ?_, field_eq_of ?_, field_eq_of ?_, field_eq_of ?_⟩
  all_goals omega

theorem fields_encodeLoad :
    let w := encodeLoad p off12 width rd rs
    predOf w = p ∧ field w 25 4 = 0b1001 ∧ field w 13 12 = off12 ∧ field w 12 1 = 0 ∧ field w 10 2 = width ∧
      field w 5 5 = rd ∧ field w 0 5 = rs := by
  refine ⟨predOf_eq_of (field_eq_of ?_), field_eq_num 0b1001 ?_, field_eq_of ?_, field_eq_num 0 ?_, field_eq_of ?_,
    field_eq_of ?_, field_eq_of ?_⟩
  all_goals rw [toNat_encodeLoad]; omega

theorem fields_encodeStore :
    let w := encodeStore p off11 width rt rs
    predOf w = p ∧ field w 25 4 = 0b1001 ∧ field w 19 6 = off11.extractLsb' 5 6 ∧ field w 14 5 = rt ∧
      field w 13 1 = 0 ∧ field w 12 1 = 1 ∧ field w 10 2 = width ∧ field w 5 5 = off11.extractLsb' 0 5 ∧
      field w 0 5 = rs := by
  refine ⟨predOf_eq_of (field_eq_of ?_), field_eq_num 0b1001 ?_, field_eq_of ?_, field_eq_of ?_, field_eq_num 0 ?_,
    field_eq_num 1 ?_, field_eq_of ?_, field_eq_of ?_, field_eq_of ?_⟩
  all_goals rw [toNat_encodeStore]; omega

theorem fields_encodeOther :
    let w := encodeOther p subop low
    predOf w = p ∧ field w 24 5 = 0b10001 ∧ field w 20 4 = subop ∧ field w 0 20 = low := by
  refine ⟨predOf_eq_of (field_eq_of ?_), field_eq_num 0b10001 ?_, field_eq_of ?_, field_eq_of ?_⟩
  all_goals rw [toNat_encodeOther]; omega

end Fields

/-! ## The major decode, by the bits that tell each format (R62) -/

theorem field_ne_num {lo n : Nat} (k : Nat) (h : w.toNat / 2 ^ lo % 2 ^ n ≠ k % 2 ^ n) :
    field w lo n ≠ BitVec.ofNat n k :=
  fun e => h ((toNat_of_field_eq e).trans (BitVec.toNat_ofNat k n))

theorem decodeWord_short (h : field w 28 1 = 0) : decodeWord w lim = decodeShort w := if_pos h

theorem decodeWord_shifted (h : field w 26 3 = 0b101) : decodeWord w lim = decodeShifted w := by
  have hn : w.toNat / 2 ^ 26 % 2 ^ 3 = 5 := toNat_of_field_eq h
  have short : field w 28 1 ≠ 0 := field_ne_num 0 (by omega)
  rw [decodeWord, if_neg short, if_pos h]

theorem decodeWord_branch (h : field w 27 2 = 0b11) : decodeWord w lim = decodeBranch w := by
  have hn : w.toNat / 2 ^ 27 % 2 ^ 2 = 3 := toNat_of_field_eq h
  have short : field w 28 1 ≠ 0 := field_ne_num 0 (by omega)
  have shifted : field w 26 3 ≠ 0b101 := field_ne_num 0b101 (by omega)
  rw [decodeWord, if_neg short, if_neg shifted, if_pos h]

theorem decodeWord_memory (h : field w 25 4 = 0b1001) : decodeWord w lim = decodeMemory w := by
  have hn : w.toNat / 2 ^ 25 % 2 ^ 4 = 9 := toNat_of_field_eq h
  have short : field w 28 1 ≠ 0 := field_ne_num 0 (by omega)
  have shifted : field w 26 3 ≠ 0b101 := field_ne_num 0b101 (by omega)
  have branch : field w 27 2 ≠ 0b11 := field_ne_num 0b11 (by omega)
  rw [decodeWord, if_neg short, if_neg shifted, if_neg branch, if_pos h]

theorem decodeWord_other (h : field w 24 5 = 0b10001) : decodeWord w lim = decodeOther w := by
  have hn : w.toNat / 2 ^ 24 % 2 ^ 5 = 17 := toNat_of_field_eq h
  have short : field w 28 1 ≠ 0 := field_ne_num 0 (by omega)
  have shifted : field w 26 3 ≠ 0b101 := field_ne_num 0b101 (by omega)
  have branch : field w 27 2 ≠ 0b11 := field_ne_num 0b11 (by omega)
  have memory : field w 25 4 ≠ 0b1001 := field_ne_num 0b1001 (by omega)
  rw [decodeWord, if_neg short, if_neg shifted, if_neg branch, if_neg memory, if_pos h]

/-- With bits 28:24 = 10000 the bits 23:14 tell the long-immediate from the register-shift pattern (R65, R68, R83 c). -/
theorem decodeWord_alu_tail (h : field w 24 5 = 0b10000) :
    decodeWord w lim = if field w 14 10 = 0 then decodeLong w lim
      else if field w 21 3 = 0b001 then decodeRegShift w else .error .longPattern := by
  have hn : w.toNat / 2 ^ 24 % 2 ^ 5 = 16 := toNat_of_field_eq h
  have short : field w 28 1 ≠ 0 := field_ne_num 0 (by omega)
  have shifted : field w 26 3 ≠ 0b101 := field_ne_num 0b101 (by omega)
  have branch : field w 27 2 ≠ 0b11 := field_ne_num 0b11 (by omega)
  have memory : field w 25 4 ≠ 0b1001 := field_ne_num 0b1001 (by omega)
  have other : field w 24 5 ≠ 0b10001 := field_ne_num 0b10001 (by omega)
  rw [decodeWord, if_neg short, if_neg shifted, if_neg branch, if_neg memory, if_neg other]

theorem decodeWord_long (h : field w 14 15 = 0x4000) : decodeWord w lim = decodeLong w lim := by
  have hn : w.toNat / 2 ^ 14 % 2 ^ 15 = 0x4000 := toNat_of_field_eq h
  have alu : field w 24 5 = 0b10000 := field_eq_num 0b10000 (by omega)
  have long : field w 14 10 = 0 := field_eq_num 0 (by omega)
  rw [decodeWord_alu_tail alu, if_pos long]

theorem decodeWord_regShift (h : field w 21 8 = 0b10000001) : decodeWord w lim = decodeRegShift w := by
  have hn : w.toNat / 2 ^ 21 % 2 ^ 8 = 129 := toNat_of_field_eq h
  have alu : field w 24 5 = 0b10000 := field_eq_num 0b10000 (by omega)
  have long : field w 14 10 ≠ 0 := field_ne_num 0 (by omega)
  have reg : field w 21 3 = 0b001 := field_eq_num 0b001 (by omega)
  rw [decodeWord_alu_tail alu, if_neg long, if_pos reg]

/-! ## Operands that share a field, and the low bits of format O -/

/-- CMP and PD make the RD field of a compare (R70). -/
theorem cmp_pd_append (k : BitVec 3) (pd : PredNum) :
    (k ++ pd : BitVec 5).extractLsb' 2 3 = k ∧ (k ++ pd : BitVec 5).extractLsb' 0 2 = pd :=
  ⟨BitVec.extractLsb'_append_eq_left, BitVec.extractLsb'_append_eq_right⟩

/-- A value is its two parts. -/
theorem append_extractLsb' {n k : Nat} (c : BitVec (n + k)) : c.extractLsb' k n ++ c.extractLsb' 0 k = c := by
  apply BitVec.eq_of_getLsbD_eq
  intro j hj
  rw [BitVec.getLsbD_append]
  by_cases h : j < k
  · simp [h]
  · simp [h, show j - k < n by omega, show k + (j - k) = j by omega]

/-- CONSTHI and CONSTLOW make the constant of format M-I (R66). -/
theorem constant_parts (c : BitVec 15) : c.extractLsb' 10 5 ++ c.extractLsb' 0 10 = c :=
  append_extractLsb' (n := 5) (k := 10) c

/-- OFFSETHIGH and OFFSETLOW make the offset of format ST (R76). -/
theorem offset_parts (off : BitVec 11) : off.extractLsb' 5 6 ++ off.extractLsb' 0 5 = off :=
  append_extractLsb' (n := 6) (k := 5) off

/-- The operands of format O stand in the low twenty bits (R77). -/
theorem field_encodeOther (p : Pred) (subop : BitVec 4) (low : BitVec 20) {lo n : Nat} (h : lo + n ≤ 20) :
    field (encodeOther p subop low) lo n = low.extractLsb' lo n := by
  obtain ⟨-, -, -, hlow⟩ := fields_encodeOther p subop low
  have hsub := extractLsb'_field (w := encodeOther p subop low) (lo := 0) h
  rw [hlow, Nat.zero_add] at hsub
  exact hsub.symm

/-- The operands of FLUSH (R204): TYPE and RS. -/
theorem operands_flush (k : BitVec 2) (rs : RegNum) :
    let low : BitVec 20 := 0#8 ++ k ++ 0#5 ++ rs
    low.extractLsb' 10 2 = k ∧ low.extractLsb' 0 5 = rs := by
  constructor <;>
    simp (disch := omega) only [BitVec.extractLsb'_append_eq_of_le, BitVec.extractLsb'_append_eq_of_add_le] <;> simp

/-- The operands of MFC, MTC and MFHI (R77): two register numbers. -/
theorem operands_two (a b : BitVec 5) :
    (0#10 ++ a ++ b : BitVec 20).extractLsb' 5 5 = a ∧ (0#10 ++ a ++ b : BitVec 20).extractLsb' 0 5 = b := by
  constructor <;>
    simp (disch := omega) only [BitVec.extractLsb'_append_eq_of_le, BitVec.extractLsb'_append_eq_of_add_le] <;> simp

/-- The operands of MULT, MULTS and DIV (R77): bit 19 and three register numbers. -/
theorem operands_three (u : BitVec 1) (rt rd rs : RegNum) :
    let low : BitVec 20 := u ++ rt ++ 0#4 ++ rd ++ rs
    low.extractLsb' 19 1 = u ∧ low.extractLsb' 14 5 = rt ∧ low.extractLsb' 5 5 = rd ∧ low.extractLsb' 0 5 = rs := by
  refine ⟨?_, ?_, ?_, ?_⟩ <;>
    simp (disch := omega) only [BitVec.extractLsb'_append_eq_of_le, BitVec.extractLsb'_append_eq_of_add_le] <;> simp

/-- The operand of MTHI (R77). -/
theorem operands_one (rs : RegNum) : (0#15 ++ rs : BitVec 20).extractLsb' 0 5 = rs := BitVec.extractLsb'_append_eq_right

/-! ## Every instruction -/

/-- The first word of an encoding decodes to the instruction, given the second word where there is one, and else whatever
word follows. -/
theorem decodeWord_encode (i : Instr) (lim : Word) :
    decodeWord ((encode i).headD 0) ((encode i).tail.headD lim) = .ok i := by
  cases i with
  | addI p c rot rd rs | andI p c rot rd rs | norI p c rot rd rs | orI p c rot rd rs | subI p c rot rd rs
  | rsbI p c rot rd rs | xorI p c rot rd rs =>
    simp [encode, decodeWord_short, decodeShort, fields_encodeShort]
  | movI p c rot rd | mvnI p c rot rd | sxbI p c rot rd | sxhI p c rot rd =>
    simp [encode, decodeWord_short, decodeShort, fields_encodeShort, constant_parts]
  | cmpltuI p c rot pd rs | cmpleuI p c rot pd rs | cmpeqI p c rot pd rs | cmpltsI p c rot pd rs | cmplesI p c rot pd rs
  | cmpbsI p c rot pd rs | cmpbcI p c rot pd rs =>
    simp [encode, decodeWord_short, decodeShort, fields_encodeShort, field_cmp, field_pd, cmp_pd_append]
  | addS p amt shf rt rd rs | andS p amt shf rt rd rs | norS p amt shf rt rd rs | orS p amt shf rt rd rs
  | subS p amt shf rt rd rs | rsbS p amt shf rt rd rs | xorS p amt shf rt rd rs =>
    simp [encode, decodeWord_shifted, decodeShifted, fields_encodeShifted, ShiftKind.ofBits_bits]
  | movS p amt shf rd rs | mvnS p amt shf rd rs | sxbS p amt shf rd rs | sxhS p amt shf rd rs =>
    simp [encode, decodeWord_shifted, decodeShifted, fields_encodeShifted, ShiftKind.ofBits_bits]
  | cmpltuS p amt shf rt pd rs | cmpleuS p amt shf rt pd rs | cmpeqS p amt shf rt pd rs | cmpltsS p amt shf rt pd rs
  | cmplesS p amt shf rt pd rs | cmpbsS p amt shf rt pd rs | cmpbcS p amt shf rt pd rs =>
    simp [encode, decodeWord_shifted, decodeShifted, fields_encodeShifted, ShiftKind.ofBits_bits, field_cmp, field_pd,
      cmp_pd_append]
  | addL p rd rs lim | andL p rd rs lim | norL p rd rs lim | orL p rd rs lim | subL p rd rs lim | rsbL p rd rs lim
  | xorL p rd rs lim =>
    simp [encode, encodeLong_eq, decodeWord_long, decodeLong, fields_longWord]
  | movL p rd lim | mvnL p rd lim | sxbL p rd lim | sxhL p rd lim =>
    simp [encode, encodeLong_eq, decodeWord_long, decodeLong, fields_longWord]
  | cmpltuL p pd rs lim | cmpleuL p pd rs lim | cmpeqL p pd rs lim | cmpltsL p pd rs lim | cmplesL p pd rs lim
  | cmpbsL p pd rs lim | cmpbcL p pd rs lim =>
    simp [encode, encodeLong_eq, decodeWord_long, decodeLong, fields_longWord, field_cmp, field_pd, cmp_pd_append]
  | movR p shf rt rd rs | mvnR p shf rt rd rs | sxbR p shf rt rd rs | sxhR p shf rt rd rs =>
    simp [encode, decodeWord_regShift, decodeRegShift, fields_encodeRegShift, ShiftKind.ofBits_bits]
  | bP p off | blP p off =>
    simp [encode, decodeWord_branch, decodeBranch, fields_encodeBranchPc, branchOffset_eq]
  | bR p off rs | blR p off rs =>
    simp [encode, decodeWord_branch, decodeBranch, fields_encodeBranchReg]
  | lb p off rd rs | lh p off rd rs | lw p off rd rs | ll p off rd rs =>
    simp [encode, decodeWord_memory, decodeMemory, fields_encodeLoad]
  | sb p off rt rs | sh p off rt rs | sw p off rt rs | sc p off rt rs =>
    simp [encode, decodeWord_memory, decodeMemory, fields_encodeStore, offset_parts]
  | brk p | syscall p | fence p | eret p =>
    simp [encode, decodeWord_other, decodeOther, fields_encodeOther]
  | flush p target rs =>
    simp [encode, decodeWord_other, decodeOther, fields_encodeOther, field_encodeOther, operands_flush,
      FlushTarget.ofBits_bits]
  | mfc p rd n | mtc p rd n | mfhi p rd =>
    simp [encode, decodeWord_other, decodeOther, fields_encodeOther, field_encodeOther, operands_two, encMfhi]
  | mult p rt rd rs | mults p rt rd rs | div p rt rd rs =>
    simp [encode, decodeWord_other, decodeOther, fields_encodeOther, field_encodeOther, operands_three]
  | mthi p rs =>
    simp [encode, decodeWord_other, decodeOther, fields_encodeOther, field_encodeOther, operands_one, encMfhi, encMthi]
/-! ## One word or two: the long-immediate pattern (R60, R81) -/

theorem isLongWord_iff : isLongWord w = true ↔ field w 14 15 = 0x4000 := by simp [isLongWord]

theorem decodeWord_of_isLongWord (h : isLongWord w = true) : decodeWord w lim = decodeLong w lim :=
  decodeWord_long (isLongWord_iff.1 h)

/-- A word that no other format claims has bits 28:24 = 10000 (R62). -/
theorem field_of_no_format (short : field w 28 1 ≠ 0) (shifted : field w 26 3 ≠ 0b101) (branch : field w 27 2 ≠ 0b11)
    (memory : field w 25 4 ≠ 0b1001) (other : field w 24 5 ≠ 0b10001) : field w 24 5 = 0b10000 := by
  have short : w.toNat / 2 ^ 28 % 2 ^ 1 ≠ 0 := fun e => short (field_eq_num 0 e)
  have shifted : w.toNat / 2 ^ 26 % 2 ^ 3 ≠ 5 := fun e => shifted (field_eq_num 5 e)
  have branch : w.toNat / 2 ^ 27 % 2 ^ 2 ≠ 3 := fun e => branch (field_eq_num 3 e)
  have memory : w.toNat / 2 ^ 25 % 2 ^ 4 ≠ 9 := fun e => memory (field_eq_num 9 e)
  have other : w.toNat / 2 ^ 24 % 2 ^ 5 ≠ 17 := fun e => other (field_eq_num 17 e)
  exact field_eq_num 16 (by omega)

theorem isLongWord_of_fields (alu : field w 24 5 = 0b10000) (long : field w 14 10 = 0) : isLongWord w = true := by
  have alu : w.toNat / 2 ^ 24 % 2 ^ 5 = 16 := toNat_of_field_eq alu
  have long : w.toNat / 2 ^ 14 % 2 ^ 10 = 0 := toNat_of_field_eq long
  exact isLongWord_iff.2 (field_eq_num 0x4000 (by omega))

/-- The decoder of a word without the long-immediate pattern (R62). -/
def decodeSingle (w : Word) : Except DecodeStop Instr :=
  if field w 28 1 = 0 then decodeShort w
  else if field w 26 3 = 0b101 then decodeShifted w
  else if field w 27 2 = 0b11 then decodeBranch w
  else if field w 25 4 = 0b1001 then decodeMemory w
  else if field w 24 5 = 0b10001 then decodeOther w
  else if field w 21 3 = 0b001 then decodeRegShift w
  else .error .longPattern

/-- Only a word with the long-immediate pattern reads the word after it (R81). -/
theorem decodeWord_of_not_isLongWord (h : isLongWord w = false) : decodeWord w lim = decodeSingle w := by
  unfold decodeWord decodeSingle
  split_ifs with short shifted branch memory other long
  any_goals rfl
  all_goals
    have := isLongWord_of_fields (field_of_no_format short shifted branch memory other) long
    simp [h] at this

/-! ## The slots of what each format decodes to -/

theorem slots_of_decodeShort (h : decodeShort w = .ok i) : i.slots = 1 := by
  unfold decodeShort at h
  split at h
  case h_8 => split at h <;> cases h <;> rfl
  all_goals cases h <;> rfl

theorem slots_of_decodeShifted (h : decodeShifted w = .ok i) : i.slots = 1 := by
  unfold decodeShifted at h
  split at h
  case h_8 => split at h <;> cases h <;> rfl
  all_goals cases h <;> rfl

theorem slots_of_decodeLong (h : decodeLong w lim = .ok i) : i.slots = 2 := by
  unfold decodeLong at h
  split at h
  case h_8 => split at h <;> cases h <;> rfl
  all_goals cases h <;> rfl

theorem slots_of_decodeRegShift (h : decodeRegShift w = .ok i) : i.slots = 1 := by
  unfold decodeRegShift at h
  split at h <;> cases h <;> rfl

/-- A memory or control instruction takes one slot: only ALU instructions have a long immediate (R65, R69). -/
theorem slots_of_not_alu (h : i.slotClass ≠ .alu) : i.slots = 1 := by
  cases i with
  | bP | bR | blP | blR | lb | lh | lw | ll | sb | sh | sw | sc => rfl
  | brk | syscall | fence | eret | flush | mfc | mtc | mult | mults | div | mfhi | mthi => rfl
  | _ => exact absurd rfl h

theorem alu_of_slots_two (h : i.slots = 2) : i.slotClass = .alu := by
  by_contra hc
  rw [slots_of_not_alu hc] at h
  cases h

theorem slots_of_decodeSingle (h : decodeSingle w = .ok i) : i.slots = 1 := by
  unfold decodeSingle at h
  split_ifs at h
  · exact slots_of_decodeShort h
  · exact slots_of_decodeShifted h
  · exact slots_of_not_alu (by simp [slotClass_of_decodeBranch h])
  · exact slots_of_not_alu (by simp [slotClass_of_decodeMemory h])
  · exact slots_of_not_alu (by simp [decodesTo_decodeOther w i h])
  · exact slots_of_decodeRegShift h

/-- The pattern of a word tells how many slots its instruction takes (R60, R81). -/
theorem slots_of_decodeWord (h : decodeWord w lim = .ok i) : i.slots = if isLongWord w then 2 else 1 := by
  cases hl : isLongWord w with
  | true => exact slots_of_decodeLong (decodeWord_of_isLongWord hl ▸ h)
  | false => exact slots_of_decodeSingle (decodeWord_of_not_isLongWord hl ▸ h)

theorem isLongWord_of_decodeWord (h : decodeWord w lim = .ok i) : isLongWord w = (i.slots == 2) := by
  cases hl : isLongWord w <;> simp [slots_of_decodeWord h, hl]

/-- An instruction takes one slot or two. -/
theorem slots_one_or_two (i : Instr) : i.slots = 1 ∨ i.slots = 2 := by
  rw [slots_of_decodeWord (decodeWord_encode i 0)]
  split <;> simp

/-! ## The words of an encoding -/

/-- An encoding has one word for each slot its instruction takes (R60, R81). -/
theorem length_encode (i : Instr) : (encode i).length = i.slots := by cases i <;> rfl

/-- An encoding in words: one, which needs no second, or two. -/
theorem encode_cases (i : Instr) :
    (∃ w, encode i = [w] ∧ isLongWord w = false ∧ i.slots = 1 ∧ ∀ lim, decodeWord w lim = .ok i) ∨
      ∃ w lim, encode i = [w, lim] ∧ isLongWord w = true ∧ i.slots = 2 ∧ decodeWord w lim = .ok i := by
  have hlen := length_encode i
  have hdec := decodeWord_encode i
  rcases slots_one_or_two i with hs | hs
  · rw [hs] at hlen
    obtain ⟨w, hw⟩ := List.length_eq_one_iff.1 hlen
    simp only [hw, List.headD_cons, List.tail_cons, List.headD_nil] at hdec
    exact .inl ⟨w, hw, (isLongWord_of_decodeWord (hdec 0)).trans (by simp [hs]), hs, hdec⟩
  · rw [hs] at hlen
    obtain ⟨w, lim, hw⟩ := List.length_eq_two.1 hlen
    simp only [hw, List.headD_cons, List.tail_cons] at hdec
    exact .inr ⟨w, lim, hw, (isLongWord_of_decodeWord (hdec 0)).trans (by simp [hs]), hs, hdec 0⟩

/-! ## The bytes of an encoding -/

theorem decodeBytes_single {bs : List Byte} (hl : isLongWord w = false) (h : decodeWord w 0 = .ok i) :
    decodeBytes (bytesOfWord w ++ bs) = some (i, bs) := by
  simp only [bytesOfWord, List.cons_append, List.nil_append, decodeBytes, wordOfBytes_fields, hl, h]
  rfl

theorem decodeBytes_long {bs : List Byte} (hl : isLongWord w = true) (h : decodeWord w lim = .ok i) :
    decodeBytes (bytesOfWord w ++ (bytesOfWord lim ++ bs)) = some (i, bs) := by
  simp only [bytesOfWord, List.cons_append, List.nil_append, decodeBytes, wordOfBytes_fields, hl, h]
  rfl

/-- The bytes of an encoding decode to the instruction, and what follows them is left over. -/
theorem decodeBytes_encode (i : Instr) (bs : List Byte) :
    decodeBytes ((encode i).flatMap bytesOfWord ++ bs) = some (i, bs) := by
  rcases encode_cases i with ⟨w, hw, hl, -, hd⟩ | ⟨w, lim, hw, hl, -, hd⟩
  · simpa [hw] using decodeBytes_single hl (hd 0)
  · simpa [hw] using decodeBytes_long hl hd

/-- Settles O39: every format's fields read back (`decodeWord_encode`), and the long-immediate pattern tells how many words
to read. -/
theorem decodeInvertsEncode : Obligations.DecodeInvertsEncode := by
  refine ⟨fun i => ?_, fun i w lim hw => ?_⟩
  · simpa using decodeBytes_encode i []
  · have h := decodeWord_encode i lim
    rwa [hw] at h

end Sys2Proof

/-! Packets: decoding slot by slot, the slot rules, and long immediates (R81, R82, R86). -/

namespace Sys2Proof

variable {w lim : Word} {ws : List Word} {i : Instr} {is : List Instr} {slot : Nat}

/-! ## One instruction at the front of the words of a packet -/

/-- What decoding makes of an instruction in front of what the later slots decode to. -/
def consDecoded (i : Instr) : Except DecodeStop (List Instr) → Except DecodeStop (List Instr)
  | .ok is => .ok (i :: is)
  | .error e => .error e

theorem consDecoded_eq_ok {d : Except DecodeStop (List Instr)} {js : List Instr} :
    consDecoded i d = .ok js ↔ ∃ is, d = .ok is ∧ js = i :: is := by
  cases d <;> simp [consDecoded, eq_comm]

theorem decodeFrom_of_error {e : DecodeStop} (h : decodeWord w (ws.headD 0) = .error e) :
    decodeFrom slot (w :: ws) = .error e := by
  rw [decodeFrom.eq_def]; simp only [h]

theorem decodeFrom_of_not_allowed (h : decodeWord w (ws.headD 0) = .ok i) (ha : i.slotClass.allows slot = false) :
    decodeFrom slot (w :: ws) = .error .slotClass := by
  rw [slotClass_of_decodeWord h] at ha
  rw [decodeFrom.eq_def]; simp only [h, ha]; rfl

/-- An instruction of one word is followed by what the next slot decodes to. -/
theorem decodeFrom_single (h : decodeWord w (ws.headD 0) = .ok i) (ha : i.slotClass.allows slot = true)
    (hs : i.slots = 1) : decodeFrom slot (w :: ws) = consDecoded i (decodeFrom (slot + 1) ws) := by
  rw [slotClass_of_decodeWord h] at ha
  have hl : isLongWord w = false := by simp [isLongWord_of_decodeWord h, hs]
  rw [decodeFrom.eq_def]
  simp only [h, ha, hl]
  cases decodeFrom (slot + 1) ws <;> rfl

/-- A long immediate takes the next word, which is not decoded (R81). -/
theorem decodeFrom_long (h : decodeWord w lim = .ok i) (ha : i.slotClass.allows slot = true) (hs : i.slots = 2) :
    decodeFrom slot (w :: lim :: ws) = consDecoded i (decodeFrom (slot + 2) ws) := by
  rw [slotClass_of_decodeWord h] at ha
  have hl : isLongWord w = true := by simp [isLongWord_of_decodeWord h, hs]
  rw [decodeFrom.eq_def]
  simp only [List.headD_cons, h, ha, hl]
  cases decodeFrom (slot + 2) ws <;> rfl

/-- A long immediate with no word after it is rejected (R81). -/
theorem decodeFrom_long_last (h : decodeWord w 0 = .ok i) (ha : i.slotClass.allows slot = true) (hs : i.slots = 2) :
    decodeFrom slot [w] = .error .longInLastSlot := by
  rw [slotClass_of_decodeWord h] at ha
  have hl : isLongWord w = true := by simp [isLongWord_of_decodeWord h, hs]
  rw [decodeFrom.eq_def]
  simp only [List.headD_nil, h, ha, hl]; rfl

/-- Everything that a word in front of others can decode to: an instruction in a slot its class allows, with its LIM if it
has one, and what the later slots decode to. -/
theorem decodeFrom_cons_eq_ok (h : decodeFrom slot (w :: ws) = .ok is) :
    ∃ i js, is = i :: js ∧ decodeWord w (ws.headD 0) = .ok i ∧ i.slotClass.allows slot = true ∧
      ((i.slots = 1 ∧ decodeFrom (slot + 1) ws = .ok js) ∨
        (i.slots = 2 ∧ ∃ lim rest, ws = lim :: rest ∧ decodeFrom (slot + 2) rest = .ok js)) := by
  cases hd : decodeWord w (ws.headD 0) with
  | error e => rw [decodeFrom_of_error hd] at h; cases h
  | ok i =>
    cases ha : i.slotClass.allows slot with
    | false => rw [decodeFrom_of_not_allowed hd ha] at h; cases h
    | true =>
      rcases slots_one_or_two i with hs | hs
      · rw [decodeFrom_single hd ha hs] at h
        obtain ⟨js, hj, rfl⟩ := consDecoded_eq_ok.1 h
        exact ⟨i, js, rfl, rfl, ha, .inl ⟨hs, hj⟩⟩
      · cases ws with
        | nil => rw [decodeFrom_long_last hd ha hs] at h; cases h
        | cons lim rest =>
          rw [decodeFrom_long (lim := lim) hd ha hs] at h
          obtain ⟨js, hj, rfl⟩ := consDecoded_eq_ok.1 h
          exact ⟨i, js, rfl, rfl, ha, .inr ⟨hs, lim, rest, rfl, hj⟩⟩

/-- No words are left where no instruction is decoded. -/
theorem eq_nil_of_decodeFrom (h : decodeFrom slot ws = .ok []) : ws = [] := by
  cases ws with
  | nil => rfl
  | cons w ws => obtain ⟨_, _, hne, -⟩ := decodeFrom_cons_eq_ok h; cases hne

/-! ## Packets that were encoded -/

theorem wellPlacedFrom_cons : wellPlacedFrom slot (i :: is) = true ↔
    i.slotClass.allows slot = true ∧ slot + i.slots ≤ 4 ∧ wellPlacedFrom (slot + i.slots) is = true := by
  simp [wellPlacedFrom, and_assoc]

/-- An encoded instruction in a slot its class allows decodes, and the words after it from its next slot on. -/
theorem decodeFrom_encode_append (ha : i.slotClass.allows slot = true) (ws : List Word) :
    decodeFrom slot (encode i ++ ws) = consDecoded i (decodeFrom (slot + i.slots) ws) := by
  rcases encode_cases i with ⟨w, hw, -, hs, hd⟩ | ⟨w, lim, hw, -, hs, hd⟩ <;> rw [hw, hs]
  · exact decodeFrom_single (hd _) ha hs
  · exact decodeFrom_long hd ha hs

/-- Instructions placed well from a slot on fill the packet and decode to themselves. -/
theorem decodeFrom_flatMap_encode (h : wellPlacedFrom slot is = true) :
    slot + (is.flatMap encode).length = 4 ∧ decodeFrom slot (is.flatMap encode) = .ok is := by
  induction is generalizing slot with
  | nil => exact ⟨by simpa [wellPlacedFrom] using h, decodeFrom_nil slot⟩
  | cons i is ih =>
    obtain ⟨ha, -, hrest⟩ := wellPlacedFrom_cons.1 h
    obtain ⟨hlen, hdec⟩ := ih hrest
    rw [List.flatMap_cons, decodeFrom_encode_append ha, hdec, List.length_append, length_encode]
    exact ⟨by omega, rfl⟩

/-- Settles O40: each instruction decodes in its slot (`decodeFrom_encode_append`), by induction on the packet. -/
theorem packetDecodeInvertsEncode : Obligations.PacketDecodeInvertsEncode := by
  intro is h
  simpa [decodePacket] using decodeFrom_flatMap_encode h

/-! ## Packets that decode -/

/-- What decodes from a slot on, up to the packet's end, is placed well from there on. -/
theorem wellPlacedFrom_of_decodeFrom (h : decodeFrom slot ws = .ok is) (hlen : slot + ws.length = 4) :
    wellPlacedFrom slot is = true := by
  induction is generalizing slot ws with
  | nil =>
    obtain rfl := eq_nil_of_decodeFrom h
    simpa [wellPlacedFrom] using hlen
  | cons i is ih =>
    cases ws with
    | nil => rw [decodeFrom_nil] at h; cases h
    | cons w rest =>
      simp only [List.length_cons] at hlen
      obtain ⟨_, _, ⟨⟩, -, ha, ⟨hs, hr⟩ | ⟨hs, lim, rest', rfl, hr⟩⟩ := decodeFrom_cons_eq_ok h
      · exact wellPlacedFrom_cons.2 ⟨ha, by omega, by rw [hs]; exact ih hr (by omega)⟩
      · simp only [List.length_cons] at hlen
        exact wellPlacedFrom_cons.2 ⟨ha, by omega, by rw [hs]; exact ih hr (by omega)⟩

/-- Settles O41: every instruction that is decoded stands where its class allows (`decodeFrom_eq_ok`), and the four words
are used up. -/
theorem decodedPacketsAreWellFormed : Obligations.DecodedPacketsAreWellFormed :=
  fun _ _ _ _ _ h => wellPlacedFrom_of_decodeFrom h rfl

/-- A word of one slot decodes alike whatever word follows it (R81). -/
theorem decodeWord_of_slots_one (h : decodeWord w lim = .ok i) (hs : i.slots = 1) (lim' : Word) :
    decodeWord w lim' = .ok i := by
  have hl : isLongWord w = false := by simp [isLongWord_of_decodeWord h, hs]
  rw [decodeWord_of_not_isLongWord hl] at h ⊢
  exact h

theorem decodeWord_nopWord (lim : Word) : decodeWord nopWord lim = .ok nopInstr :=
  decodeWord_encode nopInstr lim

section Last

variable {w' : Word} (hd : decodeWord w' 0 = .ok i) (hs : i.slots = 2)
include hd hs

/-- Where a NOP is the one word left, a long immediate is rejected in its place. -/
theorem decodeFrom_long_for_last_nop (h : decodeFrom slot [nopWord] = .ok is) :
    decodeFrom slot [w'] = .error .longInLastSlot := by
  obtain ⟨j, _, -, hj, ha, -⟩ := decodeFrom_cons_eq_ok h
  cases hj.symm.trans (decodeWord_nopWord _)
  refine decodeFrom_long_last hd ?_ hs
  rw [alu_of_slots_two hs]
  exact ha

/-- In the place of a NOP that decodes as the last instruction, a long immediate is rejected: no word before it takes it as
its LIM, and the words before it decode alike. -/
theorem decodeFrom_long_for_nop (h : decodeFrom slot (ws ++ [nopWord]) = .ok (is ++ [nopInstr])) :
    decodeFrom slot (ws ++ [w']) = .error .longInLastSlot := by
  induction is generalizing slot ws with
  | nil =>
    cases ws with
    | nil => exact decodeFrom_long_for_last_nop hd hs h
    | cons w ws =>
      obtain ⟨_, _, ⟨⟩, -, -, ⟨-, hr⟩ | ⟨hj, -⟩⟩ := decodeFrom_cons_eq_ok h
      · simpa using eq_nil_of_decodeFrom hr
      · cases hj
  | cons j is ih =>
    cases ws with
    | nil => exact decodeFrom_long_for_last_nop hd hs h
    | cons w ws =>
      obtain ⟨_, _, ⟨⟩, hw, ha, ⟨hj, hr⟩ | ⟨hj, lim, rest, hws, hr⟩⟩ := decodeFrom_cons_eq_ok h
      · rw [List.cons_append, decodeFrom_single (decodeWord_of_slots_one hw hj _) ha hj, ih hr]
        rfl
      · cases ws with
        | nil =>
          cases hws
          rw [decodeFrom_nil] at hr
          simp at hr
        | cons l ws =>
          cases hws
          rw [List.cons_append, List.cons_append, decodeFrom_long (lim := lim) hw ha hj, ih hr]
          rfl

end Last

/-- Settles O42: the NOP of slot 3 is decoded as an instruction, so a long immediate in its place is decoded as the last. -/
theorem longImmediateInTheLastSlotIsIllegal : Obligations.LongImmediateInTheLastSlotIsIllegal :=
  fun w0 w1 w2 _ _ _ h hd hs => decodeFrom_long_for_nop (ws := [w0, w1, w2]) hd hs h

end Sys2Proof
/-! Words of the spec's figures, the operand forms, and instructions that do not execute (R61 to R80). -/

namespace Sys2Proof

/-- Settles O43: each word is decoded by evaluation. -/
theorem specWordsDecode : Obligations.SpecWordsDecode :=
  ⟨rfl, rfl, rfl, rfl, rfl, rfl, rfl, rfl, rfl, rfl, rfl⟩

end Sys2Proof

namespace Sys2Proof.Machine

/-- Settles O3: what the PRED field asks for, and that every instruction asks for it first. -/
theorem falsePredicateHasNoEffect : Obligations.FalsePredicateHasNoEffect :=
  ⟨State.holds_eq_true_iff, fun _ _ h => exec_of_not_holds h⟩

/-! ## Rotation and short immediates (R78, R80) -/

/-- A rotation right by `r` moves bit `(k + r) mod 32` to bit `k`. -/
theorem getLsbD_rotateRight_word (v : Word) {r k : Nat} (hr : r < 32) (hk : k < 32) :
    (v.rotateRight r).getLsbD k = v.getLsbD ((k + r) % 32) := by
  rw [BitVec.getLsbD_rotateRight, Nat.mod_eq_of_lt hr]
  by_cases h : k < 32 - r
  · simp [h, show (k + r) % 32 = r + k by omega]
  · simp [h, hk, show (k + r) % 32 = k - (32 - r) by omega]

theorem rotateRight_zero_word (v : Word) : v.rotateRight 0 = v := by
  apply BitVec.eq_of_getLsbD_eq
  intro k hk
  rw [getLsbD_rotateRight_word v (by decide) hk, Nat.add_zero, Nat.mod_eq_of_lt hk]

theorem getLsbD_shortImm {n : Nat} (c : BitVec n) (rot : BitVec 4) {k : Nat} (hk : k < 32) :
    (shortImm c rot).getLsbD k = (c.setWidth 32).getLsbD ((k + 2 * rot.toNat) % 32) :=
  getLsbD_rotateRight_word _ (by omega) hk

theorem toNat_shortImm_zero {n : Nat} (hn : n ≤ 32) (c : BitVec n) : (shortImm c 0).toNat = c.toNat := by
  have hc : c.toNat < 2 ^ 32 := lt_of_lt_of_le c.isLt (Nat.pow_le_pow_right (by decide) hn)
  have hrot : shortImm c 0 = c.setWidth 32 := rotateRight_zero_word _
  rw [hrot, BitVec.toNat_setWidth, Nat.mod_eq_of_lt hc]

/-- Settles O55: a short immediate is a rotation, which moves bits as `getLsbD_rotateRight_word` says. -/
theorem shortImmediateIsARotatedConstant : Obligations.ShortImmediateIsARotatedConstant :=
  ⟨fun c rot _ => getLsbD_shortImm c rot, fun c rot _ => getLsbD_shortImm c rot,
    toNat_shortImm_zero (by decide), toNat_shortImm_zero (by decide)⟩

/-! ## Shifts (R80) -/

theorem toNat_shift_lsl (v : Word) (n : Nat) : (shift v .lsl n).toNat = v.toNat * 2 ^ n % 2 ^ 32 := by
  rw [shift, BitVec.toNat_shiftLeft, Nat.shiftLeft_eq]

theorem toNat_shift_lsr (v : Word) (n : Nat) : (shift v .lsr n).toNat = v.toNat / 2 ^ n := by
  rw [shift, BitVec.toNat_ushiftRight, Nat.shiftRight_eq_div_pow]

theorem toInt_shift_asr (v : Word) (n : Nat) : (shift v .asr n).toInt = v.toInt / 2 ^ n := by
  rw [shift, BitVec.toInt_sshiftRight, Int.shiftRight_eq_div_pow]
  norm_cast

theorem shift_zero (v : Word) (kind : ShiftKind) : shift v kind 0 = v := by
  cases kind with
  | lsl => exact BitVec.shiftLeft_zero v
  | lsr => exact BitVec.ushiftRight_zero v
  | asr => exact BitVec.sshiftRight_zero
  | ror => exact rotateRight_zero_word v

/-- Settles O56: each kind of shift as a fact about numbers or bits, and the register amount compared with 31. -/
theorem shiftsMoveBitsAsNamed : Obligations.ShiftsMoveBitsAsNamed :=
  ⟨fun v n _ => toNat_shift_lsl v n, fun v n _ => toNat_shift_lsr v n, fun v n _ => toInt_shift_asr v n,
    fun v _ _ hn hk => getLsbD_rotateRight_word v hn hk, shift_zero,
    fun _ _ _ _ _ hm => if_pos (Nat.le_of_lt_succ hm)⟩

end Sys2Proof.Machine

/-! A packet as what its slots collect: when it commits them all, when it is refused, and when it is one instruction (R90 to
R92, R42). -/

namespace Sys2Proof.Machine

variable {s t : State} {i j : Instr} {is : List Instr} {e f : Effect} {es : List Effect}

/-! ## Slots that raise no exception and do not stop -/

theorem CollectsAlone.collectedBy (h : CollectsAlone i s es) : collectedBy (exec i s) = es := by
  rw [h.1, Machine.collectedBy, State.commit_collected]

theorem CollectsAlone.not_stop (h : CollectsAlone i s es) : isStop (exec i s) = false := by
  rw [h.1, isStop]

theorem packetEffects_of_collectsAlone {c : Instr → List Effect} (h : ∀ i ∈ is, CollectsAlone i s (c i)) :
    packetEffects is s = is.flatMap c := by
  rw [packetEffects, List.flatMap_map]
  exact List.flatMap_congr fun i hi => (h i hi).collectedBy

/-- A packet whose slots all collect commits what they collect together, or is refused where two effects conflict. -/
theorem runPacket_of_collectsAlone {c : Instr → List Effect} (h : ∀ i ∈ is, CollectsAlone i s (c i)) :
    runPacket is s =
      if conflictFree (is.flatMap c) then .next (s.commit (is.flatMap c)) else .refused .writeConflict := by
  have heffects : (is.map fun i => exec i s).flatMap collectedBy = is.flatMap c := packetEffects_of_collectsAlone h
  have htrap : firstTrap (is.flatMap c) = none := firstTrap_eq_none.2 fun cause hm => by
    obtain ⟨i, hi, hc⟩ := List.mem_flatMap.1 hm
    exact (h i hi).2 cause hc
  have hstop : (is.map fun i => exec i s).find? isStop = none := List.find?_eq_none.2 fun o ho => by
    obtain ⟨i, hi, rfl⟩ := List.mem_map.1 ho
    simp [(h i hi).not_stop]
  simp only [runPacket, heffects, htrap, hstop]

/-! ## Steps -/

theorem runWords_of_decodePacket {ws : List Word} (h : decodePacket ws = .ok is) : runWords ws s = runPacket is s := by
  rw [runWords, h]

/-- A step without an interrupt runs the packet that it fetches. -/
theorem step_of_stepRuns (hq : s.irqs.headD false = false) (h : StepRuns s is) : step s = runPacket is s.nextIrqs := by
  obtain ⟨ws, hf, hd⟩ := h
  have hf : s.nextIrqs.fetch = .words ws := hf
  rw [step_eq, hq, hf]
  exact runWords_of_decodePacket hd

/-- Settles O33: the slots' effects are free of conflicts, so `runPacket_of_collectsAlone` commits them; a step runs that
packet. -/
theorem packetCommitsWhatEachSlotCollects : Obligations.PacketCommitsWhatEachSlotCollects := by
  intro is s c h hfree
  have hrun : runPacket is s = .next (s.commit (is.flatMap c)) := by rw [runPacket_of_collectsAlone h, if_pos hfree]
  refine ⟨hrun, ?_⟩
  rintro u hq rfl hr
  exact (step_of_stepRuns hq hr).trans hrun

/-! ## Write conflicts -/

theorem overlap_of_common {a b : Word} {n m x : Nat} (ha : a.toNat ≤ x) (hn : x < a.toNat + n) (hb : b.toNat ≤ x)
    (hm : x < b.toNat + m) : overlap a n b m = true := by
  simp only [overlap, Bool.and_eq_true, decide_eq_true_eq]
  omega

/-- Two effects on one place conflict (R42, R92). -/
theorem clash_of_samePlace (h : SamePlace e f) : clash e f = true := by
  rcases h with ⟨r, v, v', rfl, rfl⟩ | ⟨n, b, b', hn, rfl, rfl⟩ | ⟨v, v', rfl, rfl⟩ | ⟨b, b', rfl, rfl⟩ |
    ⟨pa, pb, bs, cs, a, rfl, rfl, h⟩ | ⟨pa, pb, bs, n, a, rfl, rfl, h⟩ | ⟨pa, pb, n, cs, a, rfl, rfl, h⟩
  case inl => simp [clash]
  case inr.inl => simpa [clash] using hn
  case inr.inr.inl => rfl
  case inr.inr.inr.inl => rfl
  all_goals
    obtain ⟨ha, hn, hb, hm⟩ := h
    exact overlap_of_common ha hn hb hm

theorem conflictFree_iff_pairwise : conflictFree es = true ↔ es.Pairwise fun e f => clash e f = false := by
  induction es with
  | nil => simp [conflictFree]
  | cons e es ih => simp [conflictFree, ih]

/-- Effects that conflict, in two slots one after the other, make the packet's effects conflict. -/
theorem not_conflictFree_of_clash {as bs cs ds xs : List Effect} (he : e ∈ as) (hf : f ∈ bs) (h : clash e f = true) :
    conflictFree (xs ++ (as ++ (cs ++ (bs ++ ds)))) = false := by
  rw [Bool.eq_false_iff, ne_eq, conflictFree_iff_pairwise]
  intro hp
  obtain ⟨-, -, hsep⟩ := List.pairwise_append.1 (List.pairwise_append.1 hp).2.1
  have := hsep e he f (by simp [hf])
  simp [h] at this

/-- Settles O36: effects on one place clash, and one clash is enough for a refusal. -/
theorem writeConflictsAreRefused : Obligations.WriteConflictsAreRefused := by
  rintro is js ks i j s c h ⟨e, he, f, hf, hplace⟩
  have hclash : conflictFree ((is ++ i :: js ++ j :: ks).flatMap c) = false := by
    simpa using not_conflictFree_of_clash he hf (clash_of_samePlace hplace)
  rw [runPacket_of_collectsAlone h, hclash]
  rfl

/-! ## The swap (R90) -/

theorem shift_lsl_zero_amount (s : State) (r : RegNum) : s.shifted r .lsl 0 = s.reg r := shift_zero _ .lsl

theorem collectsAlone_mov {p : Pred} (h : s.holds p = true) (rd rs : RegNum) :
    CollectsAlone (.movS p 0 .lsl rd rs) s [.reg rd (s.reg rs)] := by
  refine ⟨(State.whenHolds_true h _).trans ?_, by simp⟩
  rw [shift_lsl_zero_amount, movValue]

/-- Settles O34: both moves read the state before the packet, and their two writes do not conflict. -/
theorem packetMatesSwapRegisters : Obligations.PacketMatesSwapRegisters := by
  intro s p q a b hab hp hq
  have ha := collectsAlone_mov hp a b
  have hb := collectsAlone_mov hq b a
  have hslots : ∀ i ∈ [Instr.movS p 0 .lsl a b, .movS q 0 .lsl b a], CollectsAlone i s (collectedBy (exec i s)) := by
    simp only [List.forall_mem_cons, ha.collectedBy, hb.collectedBy]
    exact ⟨ha, hb, by simp⟩
  have hrun := runPacket_of_collectsAlone hslots
  have hfree : conflictFree [.reg a (s.reg b), .reg b (s.reg a)] = true := by simp [conflictFree, clash, hab]
  simp only [List.flatMap_cons, List.flatMap_nil, List.append_nil, ha.collectedBy, hb.collectedBy, List.singleton_append,
    hfree, if_true] at hrun
  have hreg (r : RegNum) : (s.commit [.reg a (s.reg b), .reg b (s.reg a)]).reg r =
      if r = b then s.reg a else if r = a then s.reg b else s.reg r :=
    (State.reg_setReg _ b r _).trans (by rw [apply_reg, State.reg_setReg]; rfl)
  refine ⟨_, hrun, ?_, ?_, fun r hra hrb => ?_, rfl⟩
  · rw [hreg, if_neg hab, if_pos rfl]
  · rw [hreg, if_pos rfl]
  · rw [hreg, if_neg hrb, if_neg hra]

/-! ## One instruction and NOPs -/

theorem packetEffects_nops (n : Nat) (s : State) : packetEffects (List.replicate n nopInstr) s = [] := by
  simp [packetEffects, exec_nop, collectedBy]

theorem collectedBy_of_isStop {o : Host.Outcome State Fault Refusal} (h : isStop o = true) : collectedBy o = [] := by
  cases o with
  | next t => cases h
  | fault r => rfl
  | refused r => rfl

/-- A packet whose first slot stops, beside NOPs, stops as that slot does. -/
theorem runPacket_alone_of_isStop (h : isStop (exec i s) = true) (n : Nat) :
    runPacket (i :: List.replicate n nopInstr) s = exec i s := by
  have heffects : ((i :: List.replicate n nopInstr).map fun i => exec i s).flatMap collectedBy = [] :=
    (packetEffects_cons i _ s).trans (by rw [collectedBy_of_isStop h, packetEffects_nops]; rfl)
  simp only [runPacket, heffects, firstTrap]
  simp only [List.map_cons, List.find?_cons, h]

/-- A packet of one instruction and NOPs answers what the instruction does. -/
theorem runPacket_alone (i : Instr) (s : State) (n : Nat) : runPacket (i :: List.replicate n nopInstr) s = exec i s := by
  cases hx : exec i s with
  | next t => exact runPacket_alone_next hx n
  | fault r => exact (runPacket_alone_of_isStop (by rw [hx, isStop]) n).trans hx
  | refused r => exact (runPacket_alone_of_isStop (by rw [hx, isStop]) n).trans hx

/-- Settles O32: a step runs the fetched packet, and NOPs add nothing to its one instruction. -/
theorem stepRunsTheDecodedInstruction : Obligations.StepRunsTheDecodedInstruction :=
  fun s i n hq hr => (step_of_stepRuns hq hr).trans (runPacket_alone i s.nextIrqs n)

end Sys2Proof.Machine

/-! Placing a packet for the next step (log 34): the fetch reaches the sixteen bytes, reads the placed words, and so the step
runs them (R85, R86, R90). -/

namespace Sys2Proof

variable {i : Instr}

/-! ## The packet of a row of the opcode table -/

/-- Every class may stand in slot 0 (R82). -/
theorem allows_zero (c : SlotClass) : c.allows 0 = true := by cases c <;> rfl

theorem length_packetOf (nbits w : Nat) : (Machine.packetOf nbits w).length = 4 := by
  rw [Machine.packetOf]; split <;> rfl

/-- What a row decodes to is what its first word decodes to in front of its second. -/
theorem decodeWord_of_decodeTableWord {nbits w : Nat} (h : decodeTableWord nbits w = some i) :
    decodeWord (tableWords nbits w).1 (if isLongWord (tableWords nbits w).1 then (tableWords nbits w).2 else 0) =
      .ok i := by
  rw [decodeTableWord] at h
  generalize (tableWords nbits w).1 = a, (tableWords nbits w).2 = b at h ⊢
  simp only [bytesOfWord, List.cons_append, List.nil_append, decodeBytes, wordOfBytes_fields] at h
  cases hl : isLongWord a with
  | true =>
    simp only [hl, if_true] at h ⊢
    cases hd : decodeWord a b with
    | error e => simp [hd] at h
    | ok j => simpa [hd] using h
  | false =>
    simp only [hl, Bool.false_eq_true, if_false] at h ⊢
    cases hd : decodeWord a 0#32 with
    | error e => simp [hd] at h
    | ok j => simpa [hd] using h

/-- The packet of a row decodes to the row's instruction, followed by NOPs. -/
theorem decodePacket_packetOf {nbits w : Nat} (h : decodeTableWord nbits w = some i) :
    ∃ n, decodePacket (Machine.packetOf nbits w) = .ok (i :: List.replicate n nopInstr) := by
  have hd := decodeWord_of_decodeTableWord h
  have hs := slots_of_decodeWord hd
  rw [Machine.packetOf, decodePacket]
  generalize (tableWords nbits w).1 = a, (tableWords nbits w).2 = b at hd hs ⊢
  cases hl : isLongWord a with
  | true =>
    simp only [hl, if_true] at hd hs ⊢
    exact ⟨2, decodeFrom_long hd (allows_zero _) hs⟩
  | false =>
    simp only [hl, Bool.false_eq_true, if_false] at hd hs ⊢
    exact ⟨3, decodeFrom_single (decodeWord_of_slots_one hd hs _) (allows_zero _) hs⟩

end Sys2Proof

namespace Sys2Proof.Machine

variable {s : State}

/-! ## Where the packet is placed -/

/-- The physical address that the packet of the pc is placed at. -/
def State.placedAt (s : State) : Word := (s.mapPc.translate .fetch s.pc).getD s.pc

/-- An entry put first decides for its own page (R38). -/
theorem State.translate_of_head {k : Access} {va : Word} {f : BitVec 20} {l : List PageEntry}
    (h : s.params.pages = ⟨s.mode, k, va.extractLsb' 12 20, some f⟩ :: l) :
    s.translate k va = some (f ++ va.extractLsb' 0 12) := by
  simp [State.translate, h]

/-- Translation looks at the page entries and the mode only (R38). -/
theorem State.translate_congr {t : State} (hp : t.params.pages = s.params.pages) (hm : t.mode = s.mode) (k : Access)
    (va : Word) : t.translate k va = s.translate k va := by
  rw [State.translate, State.translate, hp, hm]

/-- The address map looks at the holes only (R33). -/
theorem State.backed_congr {t : State} (hp : t.params.memHoles = s.params.memHoles) (pa : Word) (n : Nat) :
    t.backed pa n = s.backed pa n := by
  rw [State.backed, State.backed, hp]

theorem mapPc_pages (s : State) : s.mapPc.params.pages = match s.translate .fetch s.pc with
    | some _ => s.params.pages
    | none => ⟨s.mode, .fetch, s.pc.extractLsb' 12 20, some (s.pc.extractLsb' 12 20)⟩ :: s.params.pages := rfl

theorem mapPc_holes (s : State) : s.mapPc.params.memHoles =
    s.params.memHoles.filter fun h => h.2 ≤ s.placedAt.toNat || s.placedAt.toNat + 16 ≤ h.1 := rfl

theorem mapPc_params (s : State) : s.mapPc.params =
    { s.params with pages := s.mapPc.params.pages, memHoles := s.mapPc.params.memHoles } := rfl

/-- The fetch at the pc does not page-fault any more. -/
theorem mapPc_translate (s : State) : s.mapPc.translate .fetch s.pc = some s.placedAt := by
  have hsome : ∃ pa, s.mapPc.translate .fetch s.pc = some pa := by
    have hpages := mapPc_pages s
    cases ht : s.translate .fetch s.pc with
    | some pa =>
      rw [ht] at hpages
      exact ⟨pa, (State.translate_congr hpages rfl _ _).trans ht⟩
    | none =>
      rw [ht] at hpages
      exact ⟨_, State.translate_of_head hpages⟩
  obtain ⟨pa, hpa⟩ := hsome
  rw [State.placedAt, hpa, Option.getD_some]

/-- No hole is left over the sixteen bytes. -/
theorem mapPc_backed (s : State) : s.mapPc.backed s.placedAt 16 = true := by
  rw [State.backed, mapPc_holes, List.all_eq_true]
  intro h hh
  exact (List.mem_filter.1 hh).2

/-- From a pc that is a multiple of 16 the packet does not pass the top of the address space. -/
theorem placedAt_room (h : s.Legal) : s.placedAt.toNat + 16 ≤ 2 ^ 32 := by
  have hlow := State.translate_low (mapPc_translate s)
  have hpc := (low4_eq_zero_iff s.pc).1 h.pcAligned
  have := s.placedAt.isLt
  omega

/-! ## What the fetch reads -/

/-- Sixteen bytes that are those of four words are fetched as these words (R31). -/
theorem fetchWords_of_readBytes {m : Memory} {pa : Word} {ws : List Word} (hw : ws.length = 4)
    (h : m.readBytes pa 16 = ws.flatMap bytesOfWord) :
    [m.fetchWord pa, m.fetchWord (pa + 4), m.fetchWord (pa + 8), m.fetchWord (pa + 12)] = ws := by
  match ws, hw with
  | [a, b, c, d], _ =>
    simp only [Memory.readBytes, List.flatMap_cons, List.flatMap_nil, bytesOfWord, List.cons_append, List.nil_append,
      BitVec.add_assoc, BitVec.ofNat_eq_ofNat, BitVec.reduceAdd, List.cons.injEq] at h
    simp only [Memory.fetchWord, BitVec.add_assoc, BitVec.ofNat_eq_ofNat, BitVec.reduceAdd, h, wordOfBytes_fields]

theorem length_flatMap_bytesOfWord (ws : List Word) : (ws.flatMap bytesOfWord).length = 4 * ws.length := by
  induction ws with
  | nil => rfl
  | cons w ws ih => simp [bytesOfWord, ih]; omega

/-! ## What placing a packet changes -/

section Fields

variable (s) (ws : List Word)

@[simp] theorem mapPc_mode : s.mapPc.mode = s.mode := rfl
@[simp] theorem placePacket_pc : (s.placePacket ws).pc = s.pc := rfl
@[simp] theorem placePacket_mode : (s.placePacket ws).mode = s.mapPc.mode := rfl
@[simp] theorem placePacket_params : (s.placePacket ws).params = s.mapPc.params := rfl
@[simp] theorem placePacket_irqs : (s.placePacket ws).irqs = quietNext s.irqs := rfl
@[simp] theorem placePacket_mem : (s.placePacket ws).mem = s.mem.writeBytes s.placedAt (ws.flatMap bytesOfWord) := rfl
@[simp] theorem placePacket_marks : (s.placePacket ws).marks = s.marks.clear s.placedAt 16 := by
  rw [State.placePacket, State.placedAt]

/-- Mapping the pc writes the parameters only; the bytes, the marks and the schedule are put beside. -/
theorem mapPc_with (m : Memory) (k : Marks) (l : List Bool) : ({ s.mapPc with mem := m, marks := k, irqs := l } : State) =
    { s with mem := m, marks := k, params := s.mapPc.params, irqs := l } := rfl

/-- Placing a packet writes memory, the marks, the parameters and the schedule only. -/
theorem placePacket_eq : s.placePacket ws =
    { s with
      mem := (s.placePacket ws).mem
      marks := (s.placePacket ws).marks
      params := (s.placePacket ws).params
      irqs := (s.placePacket ws).irqs } := by
  rw [placePacket_mem, placePacket_marks, placePacket_params, placePacket_irqs, ← mapPc_with, State.placePacket,
    State.placedAt]

end Fields

section Placed

variable {ws : List Word} (hs : s.Legal) (hw : ws.length = 4)
include hs hw

theorem placePacket_readBytes : (s.placePacket ws).mem.readBytes s.placedAt 16 = ws.flatMap bytesOfWord := by
  have hlen : (ws.flatMap bytesOfWord).length = 16 := by rw [length_flatMap_bytesOfWord, hw]
  have hroom := placedAt_room hs
  rw [← hlen] at hroom ⊢
  rw [placePacket_mem, Memory.readBytes_writeBytes hs.memWf hroom]

theorem placePacket_read_of_outside {a : Nat} (h : a < s.placedAt.toNat ∨ s.placedAt.toNat + 16 ≤ a) :
    (s.placePacket ws).mem.read a = s.mem.read a := by
  have hlen : (ws.flatMap bytesOfWord).length = 16 := by rw [length_flatMap_bytesOfWord, hw]
  have hroom := placedAt_room hs
  rw [← hlen] at hroom h
  rw [placePacket_mem, Memory.read_writeBytes_of_outside hroom h]

omit hw in
theorem placePacket_getMark (a : Nat) : assocGet (s.placePacket ws).marks a =
    if s.placedAt.toNat ≤ a ∧ a < s.placedAt.toNat + 16 then none else assocGet s.marks a := by
  rw [placePacket_marks, Marks.get_clear hs.marksWf (placedAt_room hs)]

/-- The next fetch gives the placed words. -/
theorem placePacket_fetch : (s.placePacket ws).nextIrqs.fetch = .words ws := by
  have htranslate : (s.placePacket ws).nextIrqs.translate .fetch (s.placePacket ws).nextIrqs.pc = some s.placedAt := by
    rw [nextIrqs_pc, placePacket_pc, ← mapPc_translate s]
    exact State.translate_congr (by rw [nextIrqs_params, placePacket_params]) (by rw [nextIrqs_mode, placePacket_mode]) _ _
  have hbacked : (s.placePacket ws).nextIrqs.backed s.placedAt 16 = true := by
    rw [← mapPc_backed s]
    exact State.backed_congr (by rw [nextIrqs_params, placePacket_params]) _ _
  have hmarks : (s.placePacket ws).nextIrqs.marks.anyMarked s.placedAt 16 = false := by
    rw [nextIrqs_marks, Bool.eq_false_iff, ne_eq, Marks.anyMarked_iff (placedAt_room hs)]
    rintro ⟨k, hk, hm⟩
    rw [placePacket_getMark hs, if_pos (by omega)] at hm
    cases hm
  rw [State.fetch_words htranslate hbacked hmarks, nextIrqs_mem,
    fetchWords_of_readBytes hw (placePacket_readBytes hs hw)]

end Placed

theorem quietNext_eq (l : List Bool) : quietNext l = if l.headD false then false :: l.tail else l := by
  match l with
  | [] | true :: _ | false :: _ => rfl

theorem quietNext_headD (l : List Bool) : (quietNext l).headD false = false := by
  match l with
  | [] | true :: _ | false :: _ => rfl

/-- Settles O57: the next fetch gives the placed words (`placePacket_fetch`), which decode to the instruction and NOPs; the
rest says what `mapPc` and the writes of the bytes and marks change. -/
theorem placedInstructionRunsNext : Obligations.PlacedInstructionRunsNext := by
  intro s w i hs hi u pa
  have hw := length_packetOf 32 w
  have hpa : pa = s.placedAt := by rw [State.placedAt]
  refine ⟨?_, placePacket_eq s _, ?_, ?_, ?_, fun k hk => ?_, fun a ha => ⟨?_, ?_⟩, ?_, ?_, ?_⟩
  · obtain ⟨n, hd⟩ := decodePacket_packetOf hi
    exact stepRunsTheDecodedInstruction u i n (quietNext_headD s.irqs) ⟨_, placePacket_fetch hs hw, hd⟩
  · exact mapPc_params s
  · rw [hpa]; exact mapPc_translate s
  · rw [hpa]; exact placePacket_readBytes hs hw
  · rw [hpa]; exact (placePacket_getMark hs _).trans (if_pos ⟨Nat.le_add_right _ _, Nat.add_lt_add_left hk _⟩)
  · exact placePacket_read_of_outside hs hw (hpa ▸ ha)
  · rw [hpa] at ha; exact (placePacket_getMark hs _).trans (if_neg (by omega))
  · exact mapPc_pages s
  · exact mapPc_holes s
  · exact quietNext_eq s.irqs

end Sys2Proof.Machine

/-! The three-operand ALU instructions (R100 to R108): the value of an operation on RS and OP2 goes into RD, and nothing else
is written. -/

namespace Sys2Proof.Machine

variable {s : State} {p : Pred}

/-- Committing one register write changes that register and passes the packet. -/
theorem commit_reg_eq_wroteReg (s : State) (rd : RegNum) (v : Word) :
    s.commit [.reg rd v] = s.wroteReg rd v [.reg rd v] := rfl

/-- An executed ALU instruction writes its result and nothing else (R100, R140). -/
theorem aluResult_of_holds (h : s.holds p = true) (rd : RegNum) (v : Word) :
    s.aluResult p rd v = .next (s.wroteReg rd v [.reg rd v]) := by
  rw [State.aluResult, State.whenHolds_true h, commit_reg_eq_wroteReg]

/-- Settles O4: each form hands its operation's value on RS and its own OP2 to the shared ALU result. -/
theorem arithmeticWritesTheWrappedResult : Obligations.ArithmeticWritesTheWrappedResult := by
  intro s p c rot amt shf rt rd rs lim h
  have writes (op : Word → Word → Word) (op2 : Word) := aluResult_of_holds h rd (op (s.reg rs) op2)
  exact ⟨writes addValue (shortImm c rot), writes addValue (s.shifted rt shf amt), writes addValue lim,
    writes subValue (shortImm c rot), writes subValue (s.shifted rt shf amt), writes subValue lim,
    writes rsbValue (shortImm c rot), writes rsbValue (s.shifted rt shf amt), writes rsbValue lim⟩

/-- Settles O5 as O4 is settled, with the bitwise values. -/
theorem logicWritesTheBitwiseResult : Obligations.LogicWritesTheBitwiseResult := by
  intro s p c rot amt shf rt rd rs lim h
  have writes (op : Word → Word → Word) (op2 : Word) := aluResult_of_holds h rd (op (s.reg rs) op2)
  exact ⟨writes andValue (shortImm c rot), writes andValue (s.shifted rt shf amt), writes andValue lim,
    writes norValue (shortImm c rot), writes norValue (s.shifted rt shf amt), writes norValue lim,
    writes orValue (shortImm c rot), writes orValue (s.shifted rt shf amt), writes orValue lim,
    writes xorValue (shortImm c rot), writes xorValue (s.shifted rt shf amt), writes xorValue lim⟩

end Sys2Proof.Machine

/-! The compares (R120 to R127): one bit made of RS and OP2 goes into P[PD], and nothing else is written. -/

namespace Sys2Proof.Machine

variable {s : State} {p : Pred}

/-- Committing one predicate write changes that predicate, or nothing where it is P3, and passes the packet. -/
theorem commit_pred_eq_wrotePred (s : State) (pd : PredNum) (b : Bool) :
    s.commit [.pred pd b] = s.wrotePred pd b := by
  match pd with | 0#2 => rfl | 1#2 => rfl | 2#2 => rfl | 3#2 => rfl

/-- An executed compare writes its bit and nothing else (R120). -/
theorem compareResult_of_holds (h : s.holds p = true) (pd : PredNum) (b : Bool) :
    s.compareResult p pd b = .next (s.wrotePred pd b) := by
  rw [State.compareResult, State.whenHolds_true h, commit_pred_eq_wrotePred]

/-- The unary OR of the bits in (a & b) is 1 exactly when one of those bits is (R126). -/
theorem anyBitSet_eq_true_iff (a b : Word) :
    anyBitSet a b = true ↔ ∃ k, a.getLsbD k = true ∧ b.getLsbD k = true := by
  have no_bit : a &&& b = 0 ↔ ∀ k, (a &&& b).getLsbD k = false := BitVec.zero_iff_eq_false
  rw [anyBitSet, bne_iff_ne, ne_eq, no_bit, not_forall]
  simp only [BitVec.getLsbD_and, Bool.not_eq_false, Bool.and_eq_true]

/-- CMPBC's bit is CMPBS's on the complement of its operand (R127, D36): above bit 31 the selecting word has no 1. -/
theorem anyBitClear_eq_true_iff (a b : Word) :
    anyBitClear a b = true ↔ ∃ k, a.getLsbD k = false ∧ b.getLsbD k = true := by
  have selected_not (k : Nat) :
      (~~~a).getLsbD k = true ∧ b.getLsbD k = true ↔ a.getLsbD k = false ∧ b.getLsbD k = true :=
    and_congr_left fun hb => by simp [BitVec.lt_of_getLsbD hb]
  exact (anyBitSet_eq_true_iff (~~~a) b).trans (exists_congr selected_not)

/-- Settles O8: each form writes `anyBitSet` of RS and its own OP2. -/
theorem cmpbsTestsForASetBit : Obligations.CmpbsTestsForASetBit := by
  intro s p c rot amt shf rt pd rs lim h
  have tests (op2 : Word) := anyBitSet_eq_true_iff (s.reg rs) op2
  have writes (op2 : Word) := compareResult_of_holds h pd (anyBitSet (s.reg rs) op2)
  exact ⟨_, _, _, ⟨tests _, writes (shortImm c rot)⟩, ⟨tests _, writes (s.shifted rt shf amt)⟩, tests _, writes lim⟩

/-- Settles O9 as O8 is settled, with `anyBitClear`. -/
theorem cmpbcTestsForAClearBit : Obligations.CmpbcTestsForAClearBit := by
  intro s p c rot amt shf rt pd rs lim h
  have tests (op2 : Word) := anyBitClear_eq_true_iff (s.reg rs) op2
  have writes (op2 : Word) := compareResult_of_holds h pd (anyBitClear (s.reg rs) op2)
  exact ⟨_, _, _, ⟨tests _, writes (shortImm c rot)⟩, ⟨tests _, writes (s.shifted rt shf amt)⟩, tests _, writes lim⟩

/-- CMPEQ's bit decides equality of all 32 bits (R123). -/
theorem isEq_eq_decide (a b : Word) : isEq a b = decide (a = b) := beq_eq_decide a b

/-- Settles O6: each form hands its test of RS and its own OP2 to the shared compare result. -/
theorem unsignedComparesWriteThePredicate : Obligations.UnsignedComparesWriteThePredicate := by
  intro s p c rot amt shf rt pd rs lim h
  have writes (test : Word → Word → Bool) (op2 : Word) := compareResult_of_holds h pd (test (s.reg rs) op2)
  have writesEq (op2 : Word) := isEq_eq_decide (s.reg rs) op2 ▸ writes isEq op2
  exact ⟨writes isLtu (shortImm c rot), writes isLtu (s.shifted rt shf amt), writes isLtu lim,
    writes isLeu (shortImm c rot), writes isLeu (s.shifted rt shf amt), writes isLeu lim,
    writesEq (shortImm c rot), writesEq (s.shifted rt shf amt), writesEq lim⟩

/-- Settles O7 as O6 is settled, with the tests by signed integers. -/
theorem signedComparesWriteThePredicate : Obligations.SignedComparesWriteThePredicate := by
  intro s p c rot amt shf rt pd rs lim h
  have writes (test : Word → Word → Bool) (op2 : Word) := compareResult_of_holds h pd (test (s.reg rs) op2)
  exact ⟨writes isLts (shortImm c rot), writes isLts (s.shifted rt shf amt), writes isLts lim,
    writes isLes (shortImm c rot), writes isLes (s.shifted rt shf amt), writes isLes lim⟩

end Sys2Proof.Machine

/-! The one-operand ALU instructions (R140 to R144): the operand OP1, its complement or the sign extension of its low part
goes into RD, and nothing else is written. -/

namespace Sys2Proof.Machine

/-- SXB's result, read as signed, is the low byte of the operand read as signed (R143). -/
theorem toInt_sxbValue (a : Word) : (sxbValue a).toInt = (a.setWidth 8).toInt :=
  BitVec.toInt_signExtend_of_le (by decide)

/-- SXH's result, read as signed, is the low half-word of the operand read as signed (R144). -/
theorem toInt_sxhValue (a : Word) : (sxhValue a).toInt = (a.setWidth 16).toInt :=
  BitVec.toInt_signExtend_of_le (by decide)

/-- Settles O11: each form hands the sign extension of its own OP1 to the shared ALU result, and a sign extension keeps the
signed value of the part that it extends. -/
theorem signExtensionsKeepTheSignedValue : Obligations.SignExtensionsKeepTheSignedValue := by
  rintro s p c rot amt shf rt rd rs lim h _ rfl
  have byte (op1 : Word) : ∃ v : Word, v.toInt = (op1.setWidth 8).toInt ∧
      s.aluResult p rd (sxbValue op1) = .next (s.wroteReg rd v [.reg rd v]) :=
    ⟨_, toInt_sxbValue op1, aluResult_of_holds h rd _⟩
  have half (op1 : Word) : ∃ v : Word, v.toInt = (op1.setWidth 16).toInt ∧
      s.aluResult p rd (sxhValue op1) = .next (s.wroteReg rd v [.reg rd v]) :=
    ⟨_, toInt_sxhValue op1, aluResult_of_holds h rd _⟩
  exact ⟨byte (shortImm c rot), byte (s.shifted rs shf amt), byte (s.shiftedByReg rd rs shf rt), byte lim,
    half (shortImm c rot), half (s.shifted rs shf amt), half (s.shiftedByReg rd rs shf rt), half lim⟩

/-- Settles O10: each form hands its own OP1, or its complement, to the shared ALU result; with a register amount OP1 is
`shiftReg`'s value, the shift up to 31 and the free value from 32 on. -/
theorem movesWriteTheOperand : Obligations.MovesWriteTheOperand := by
  intro s p c rot amt shf rt rd rs lim h
  have writes (move : Word → Word) (op1 : Word) := aluResult_of_holds h rd (move op1)
  exact ⟨writes movValue (shortImm c rot), writes movValue (s.shifted rs shf amt),
    writes movValue (s.shiftedByReg rd rs shf rt), writes movValue lim,
    writes mvnValue (shortImm c rot), writes mvnValue (s.shifted rs shf amt),
    writes mvnValue (s.shiftedByReg rd rs shf rt), writes mvnValue lim⟩

end Sys2Proof.Machine

/-! The branches (R160 to R164): the target as a number, and what B and BL write. -/

namespace Sys2Proof.Machine

variable {s : State} {p : Pred} {n : Nat}

/-! ## The target (R160) -/

/-- Sign-extending an OFFSET and shifting it left by 4 is multiplying its signed value by 16, modulo 2^32. -/
theorem signExtend_shiftLeft_four (off : BitVec n) : off.signExtend 32 <<< 4 = BitVec.ofInt 32 (16 * off.toInt) := by
  rw [BitVec.shiftLeft_eq_mul_twoPow, BitVec.ofInt_mul, BitVec.mul_comm]; rfl

/-- The wrap-around of an address plus a signed distance (D28). -/
theorem toNat_add_ofInt (base : Word) (k : Int) :
    (base + BitVec.ofInt 32 k).toNat = ((base.toNat + k) % 2 ^ 32).toNat := by
  rw [BitVec.toNat_add, BitVec.toNat_ofInt]; omega

/-- The target counts whole packets: the wrapped sum, rounded down to a multiple of 16. -/
theorem toNat_branchTarget_eq_packets (base : Word) (off : BitVec n) :
    (branchTarget base off).toNat = 16 * (((base.toNat : Int) + 16 * off.toInt) % 2 ^ 32 / 16).toNat := by
  rw [toNat_branchTarget, signExtend_shiftLeft_four, toNat_add_ofInt]; omega

/-- From the address of a packet nothing is rounded off: 16 divides 2^32, so the wrapped sum is a multiple of 16 too. -/
theorem branchTarget_of_aligned {base : Word} (h : base.toNat % 16 = 0) (off : BitVec n) :
    branchTarget base off = base + BitVec.ofInt 32 (16 * off.toInt) := by
  apply BitVec.eq_of_toNat_eq
  rw [toNat_branchTarget_eq_packets, toNat_add_ofInt]; omega

/-- Settles O14: both offset widths are instances of the same two facts. -/
theorem branchTargetCountsPackets : Obligations.BranchTargetCountsPackets :=
  ⟨toNat_branchTarget_eq_packets, toNat_branchTarget_eq_packets,
    fun _ off aligned => branchTarget_of_aligned aligned off, fun _ off aligned => branchTarget_of_aligned aligned off⟩

/-! ## What an executed branch writes -/

/-- The jump is committed over the step to the next packet (R93), so only the target is left in the pc. -/
theorem commit_jump (s : State) (target : Word) :
    s.commit [.jump target] = { s with pc := target, tick := s.tick + 1, collected := [.jump target] } := rfl

/-- R31 gets the pc of the state before the packet, not the target (R162). -/
theorem commit_link_jump (s : State) (target : Word) :
    s.commit [.reg 31 s.pc, .jump target] =
      { s with
        regs := s.regs.set 31 s.pc
        pc := target
        tick := s.tick + 1
        collected := [.reg 31 s.pc, .jump target] } := rfl

/-- An executed B sets the pc and writes nothing else (R161). -/
theorem branchTo_of_holds (h : s.holds p = true) (target : Word) :
    s.branchTo p target = .next { s with pc := target, tick := s.tick + 1, collected := [.jump target] } := by
  rw [State.branchTo, State.whenHolds_true h, commit_jump]

/-- An executed BL sets the pc and R31 and writes nothing else (R162). -/
theorem branchLink_of_holds (h : s.holds p = true) (target : Word) :
    s.branchLink p target = .next
      { s with
        regs := s.regs.set 31 s.pc
        pc := target
        tick := s.tick + 1
        collected := [.reg 31 s.pc, .jump target] } := by
  rw [State.branchLink, State.whenHolds_true h, commit_link_jump]

/-- Settles O12: each form hands the target from its own base to the shared B. -/
theorem branchOnlyMovesThePc : Obligations.BranchOnlyMovesThePc := by
  intro s p off off' rs h
  exact ⟨branchTo_of_holds h (branchTarget s.pc off), branchTo_of_holds h (branchTarget (s.reg rs) off')⟩

/-- Settles O13: each form hands the target from its own base to the shared BL; the base register is read in the state
before R31 is written, also where it is R31. -/
theorem branchWithLinkSavesItsOwnAddress : Obligations.BranchWithLinkSavesItsOwnAddress := by
  intro s p off off' rs h
  exact ⟨branchLink_of_holds h (branchTarget s.pc off), branchLink_of_holds h (branchTarget (s.reg rs) off')⟩

end Sys2Proof.Machine

/-! Loads from memory that the map backs (R170 to R174). -/

namespace Sys2Proof.Machine

variable {s : State} {p : Pred} {va pa : Word} {n : Nat}

/-! ## The bytes of a wide load (R32) -/

/-- A load of two bytes joins them little-endian, where it does not pass the top of the address space. -/
theorem Memory.load_two (m : Memory) (hw : pa.toNat + 2 ≤ 2 ^ 32) :
    m.load pa 2 = 0#16 ++ m.read (pa.toNat + 1) ++ m.read pa.toNat := by
  rw [Memory.load_eq, Memory.readBytes_eq hw]
  exact littleEndian_two _ _

/-- A load of four bytes joins them little-endian, where it does not pass the top of the address space. -/
theorem Memory.load_four (m : Memory) (hw : pa.toNat + 4 ≤ 2 ^ 32) :
    m.load pa 4 = m.read (pa.toNat + 3) ++ m.read (pa.toNat + 2) ++ m.read (pa.toNat + 1) ++ m.read pa.toNat := by
  rw [Memory.load_eq, Memory.readBytes_eq hw]
  exact littleEndian_four _ _ _ _

/-! ## What an executed load writes -/

/-- An executed load inside the map commits the loaded value and what the instruction does besides. -/
theorem State.loadInto_of_backed (hp : s.holds p = true) (ht : s.translate .load va = some pa)
    (hb : s.backed pa n = true) (rd : RegNum) (more : List Effect) :
    s.loadInto p rd va n more = .next (s.commit ([.load pa n, .reg rd (s.mem.load pa n)] ++ more)) :=
  (State.whenHolds_true hp _).trans (State.accessData_of_backed ht hb _)

/-- The record of the access commits nothing, so a load changes RD and passes the packet. -/
theorem commit_load_eq_wroteReg (s : State) (pa : Word) (n : Nat) (rd : RegNum) (v : Word) :
    s.commit [.load pa n, .reg rd v] = s.wroteReg rd v [.load pa n, .reg rd v] := rfl

/-- LL changes the link bit beside (R174). -/
theorem commit_load_link_eq_wroteReg (s : State) (pa : Word) (n : Nat) (rd : RegNum) (v : Word) :
    s.commit [.load pa n, .reg rd v, .link true] =
      { s.wroteReg rd v [.load pa n, .reg rd v, .link true] with link := true } := rfl

/-- An executed LB, LH or LW writes the bytes' value `v` into RD and nothing else (R171 to R173). -/
theorem State.loadInto_eq_wroteReg {v : Word} (hv : s.mem.load pa n = v) (hp : s.holds p = true)
    (ht : s.translate .load va = some pa) (hb : s.backed pa n = true) (rd : RegNum) :
    s.loadInto p rd va n [] = .next (s.wroteReg rd v [.load pa n, .reg rd v]) := by
  rw [State.loadInto_of_backed hp ht hb, List.append_nil, hv, commit_load_eq_wroteReg]

/-- An executed LL writes the bytes' value `v` into RD and 1 into the link bit (R174). -/
theorem State.loadInto_link_eq_wroteReg {v : Word} (hv : s.mem.load pa n = v) (hp : s.holds p = true)
    (ht : s.translate .load va = some pa) (hb : s.backed pa n = true) (rd : RegNum) :
    s.loadInto p rd va n [.link true] =
      .next { s.wroteReg rd v [.load pa n, .reg rd v, .link true] with link := true } := by
  rw [State.loadInto_of_backed hp ht hb, hv, List.cons_append, List.cons_append, List.nil_append,
    commit_load_link_eq_wroteReg]

/-- Settles O15: LB is the shared load at the effective address, of one byte. -/
theorem loadByteZeroExtends : Obligations.LoadByteZeroExtends := by
  intro s p off rd rs pa hp ht hb
  exact State.loadInto_eq_wroteReg (Memory.load_one s.mem pa) hp ht hb rd

/-- Settles O16: each is the shared load at its aligned address, and an aligned access does not pass the top of the address
space, so its bytes stand at rising addresses. -/
theorem wideLoadsReadLittleEndian : Obligations.WideLoadsReadLittleEndian := by
  intro s p off rd rs pa hp
  refine ⟨fun ht hb => ?lh, fun ht hb => ?word⟩
  case lh =>
    obtain ⟨-, hw⟩ := translate_align2 ht
    exact State.loadInto_eq_wroteReg (Memory.load_two s.mem hw) hp ht hb rd
  case word =>
    obtain ⟨-, hw⟩ := translate_align4 ht
    have hv := Memory.load_four s.mem hw
    exact ⟨State.loadInto_eq_wroteReg hv hp ht hb rd, State.loadInto_link_eq_wroteReg hv hp ht hb rd⟩

end Sys2Proof.Machine

/-! Stores to memory that the map backs (R170, R175 to R178). -/

namespace Sys2Proof.Machine

variable {s t : State} {p : Pred} {va pa : Word} {n : Nat} {v : Word}

/-! ## Which bytes and marks a store changes -/

/-- Writing the low bytes of `v` and marking them is what `Stored` says (R32, R45), in canonical memory and marks and where
the bytes do not pass the top of the address space. -/
theorem stored_of_writeBytes (hs : s.Legal) (hw : pa.toNat + n ≤ 2 ^ 32)
    (hmem : t.mem = s.mem.writeBytes pa (bytesOf n v)) (hmarks : t.marks = s.marks.stored pa n) : Stored s t pa n v := by
  have hl := length_bytesOf n v
  have hmark (a : Nat) := hmarks ▸ Marks.get_stored hs.marksWf hw a
  refine ⟨fun k hk => ?written, fun a ha => ?kept, fun k hk => ?marked, fun a ha => ?markKept⟩
  case written => rw [hmem, Memory.read_writeBytes_of_inside hs.memWf (by rwa [hl]) (by rwa [hl]), getElem_bytesOf]
  case kept => rw [hmem, Memory.read_writeBytes_of_outside (by rwa [hl]) (by rwa [hl])]
  case marked => rw [hmark, if_pos (by omega)]
  case markKept => rw [hmark, if_neg (by omega)]

/-! ## What an executed store writes -/

/-- An executed store inside the map commits the stored bytes and what the instruction does besides. -/
theorem State.storeAt_of_backed (hp : s.holds p = true) (ht : s.translate .store va = some pa)
    (hb : s.backed pa n = true) (v : Word) (more : List Effect) :
    s.storeAt p v va n more = .next (s.commit (.store pa (bytesOf n v) :: more)) :=
  (State.whenHolds_true hp _).trans (State.accessData_of_backed ht hb _)

/-- Committing a store changes memory and the marks and passes the packet. -/
theorem commit_store (s : State) (pa : Word) (n : Nat) (v : Word) :
    s.commit [.store pa (bytesOf n v)] =
      { s.passed [.store pa (bytesOf n v)] with
        mem := s.mem.writeBytes pa (bytesOf n v)
        marks := s.marks.stored pa n } := by
  rw [State.commit_eq_foldl, List.foldl_cons, apply_store, length_bytesOf]; rfl

/-- A store that succeeds under the link bit changes P0 and the link bit beside (R178). -/
theorem commit_store_conditional (s : State) (pa : Word) (n : Nat) (v : Word) :
    s.commit [.store pa (bytesOf n v), .pred 0 true, .link false] =
      { s.passed [.store pa (bytesOf n v), .pred 0 true, .link false] with
        mem := s.mem.writeBytes pa (bytesOf n v)
        marks := s.marks.stored pa n
        p0 := true
        link := false } := by
  rw [State.commit_eq_foldl, List.foldl_cons, apply_store, length_bytesOf]; rfl

/-- An SC that fails changes P0 and the link bit only (R178). -/
theorem commit_failed_conditional (s : State) :
    s.commit [.pred 0 false, .link false] =
      { s.passed [.pred 0 false, .link false] with p0 := false, link := false } := rfl

/-- An executed SB, SH or SW stores its bytes and writes nothing else (R175 to R177). -/
theorem State.storeAt_stores (hs : s.Legal) (hw : pa.toNat + n ≤ 2 ^ 32) (hp : s.holds p = true)
    (ht : s.translate .store va = some pa) (hb : s.backed pa n = true) (v : Word) :
    ∃ t, s.storeAt p v va n [] = .next t ∧ Stored s t pa n v ∧
      t = { s.passed t.collected with mem := t.mem, marks := t.marks } := by
  rw [State.storeAt_of_backed hp ht hb, commit_store]
  exact ⟨_, rfl, stored_of_writeBytes hs hw rfl rfl, rfl⟩

/-- A store that succeeds under the link bit stores its bytes, sets P0, clears the link bit and writes nothing else (R178). -/
theorem State.storeAt_stores_conditional (hs : s.Legal) (hw : pa.toNat + n ≤ 2 ^ 32) (hp : s.holds p = true)
    (ht : s.translate .store va = some pa) (hb : s.backed pa n = true) (v : Word) :
    ∃ t, s.storeAt p v va n [.pred 0 true, .link false] = .next t ∧ Stored s t pa n v ∧
      t = { s.passed t.collected with mem := t.mem, marks := t.marks, p0 := true, link := false } := by
  rw [State.storeAt_of_backed hp ht hb, commit_store_conditional]
  exact ⟨_, rfl, stored_of_writeBytes hs hw rfl rfl, rfl⟩

/-- With the link bit clear SC accesses no memory: it writes 0 to P0 and to the link bit (R178, D26). -/
theorem exec_sc_of_not_link (hl : s.link = false) (p : Pred) (off : BitVec 11) (rt rs : RegNum) :
    exec (.sc p off rt rs) s = s.whenHolds p (.next (s.commit [.pred 0 false, .link false])) :=
  if_neg (by rw [hl]; exact Bool.false_ne_true)

/-- Settles O17: SB is the shared store at the effective address, of one byte, which any address leaves room for. -/
theorem storeByteWritesOneByte : Obligations.StoreByteWritesOneByte := by
  intro s p off rt rs pa hs hp ht hb
  exact State.storeAt_stores hs pa.isLt hp ht hb (s.reg rt)

/-- Settles O18: each is the shared store at its aligned address, and an aligned access does not pass the top of the address
space. -/
theorem wideStoresWriteTheAlignedBytes : Obligations.WideStoresWriteTheAlignedBytes := by
  intro s p off rt rs pa hs hp
  refine ⟨fun ht hb => ?sh, fun ht hb => ?sw⟩
  case sh => exact State.storeAt_stores hs (translate_align2 ht).2 hp ht hb (s.reg rt)
  case sw => exact State.storeAt_stores hs (translate_align4 ht).2 hp ht hb (s.reg rt)

/-- Settles O19: with the link bit set SC is the shared store with two more writes, and with the link bit clear it commits
two writes without reaching for memory. -/
theorem storeConditionalNeedsTheLinkBit : Obligations.StoreConditionalNeedsTheLinkBit := by
  intro s p off rt rs hp
  refine ⟨fun pa hs hl ht hb => ?succeeds, fun hl => ?fails⟩
  case succeeds =>
    obtain ⟨-, hw⟩ := translate_align4 ht
    rw [exec_sc_of_link hl]
    exact State.storeAt_stores_conditional hs hw hp ht hb (s.reg rt)
  case fails => rw [exec_sc_of_not_link hl, State.whenHolds_true hp, commit_failed_conditional]

end Sys2Proof.Machine

/-! Multiplication, division and the moves of `hi` (R190 to R194). -/

namespace Sys2Proof.Machine

variable {s : State} {p : Pred} {n d : Word}

/-! ## The two words of a product (R190, R191) -/

/-- A doubleword is its high word followed by its low word. -/
theorem high_append_low (x : BitVec 64) : x.extractLsb' 32 32 ++ x.extractLsb' 0 32 = x :=
  append_extractLsb' (n := 32) (k := 32) x

/-- The low and the high word of a doubleword make up its unsigned value. -/
theorem toNat_low_add_high (x : BitVec 64) :
    (x.extractLsb' 0 32).toNat + 2 ^ 32 * (x.extractLsb' 32 32).toNat = x.toNat := by
  have h := congrArg BitVec.toNat (high_append_low x)
  rwa [toNat_append_eq, Nat.mul_comm, Nat.add_comm] at h

/-- The low word, unsigned, and the high word, signed, make up the signed value of a doubleword. -/
theorem toInt_low_add_high (x : BitVec 64) :
    ((x.extractLsb' 0 32).toNat : Int) + 2 ^ 32 * (x.extractLsb' 32 32).toInt = x.toInt := by
  have h := congrArg BitVec.toInt (high_append_low x)
  rwa [BitVec.toInt_append, if_neg (by decide), Int.add_comm] at h

/-- The unsigned product of two words fits 64 bits. -/
theorem toNat_unsignedProduct (a b : Word) : (unsignedProduct a b).toNat = a.toNat * b.toNat := by
  have fits : a.toNat * b.toNat < 2 ^ 32 * 2 ^ 32 := Nat.mul_lt_mul'' a.isLt b.isLt
  exact (BitVec.toNat_ofNat ..).trans (Nat.mod_eq_of_lt fits)

/-- The signed product of two words fits 64 bits: its absolute value is at most 2^62. -/
theorem toInt_signedProduct (a b : Word) : (signedProduct a b).toInt = a.toInt * b.toInt := by
  have low : -2 ^ 62 ≤ a.toInt * b.toInt := BitVec.le_toInt_mul_toInt
  have high : a.toInt * b.toInt ≤ 2 ^ 62 := BitVec.toInt_mul_toInt_le
  exact BitVec.toInt_ofInt_eq_self (by decide) (by omega) (by omega)

/-! ## Quotient and remainder (R192) -/

/-- In the unsigned reading only the divisor 0 is left open (D13). -/
theorem divOpen_eq_false (h : d ≠ 0) : divOpen n d = false := by
  rw [divOpen, beq_eq_false_iff_ne.mpr h]; rfl

/-- By a divisor that is not 0 the quotient is the one of unsigned division. -/
theorem State.quotient_of_ne_zero (h : d ≠ 0) : s.quotient n d = n / d := by
  rw [State.quotient, divOpen_eq_false h, BitVec.udiv_def]; rfl

/-- By a divisor that is not 0 the remainder is the one of unsigned division. -/
theorem State.remainder_of_ne_zero (h : d ≠ 0) : s.remainder n d = n % d := by
  rw [State.remainder, divOpen_eq_false h, BitVec.umod_def]; rfl

/-- The division law of unsigned words. -/
theorem toNat_udiv_umod (h : d ≠ 0) :
    n.toNat = d.toNat * (n / d).toNat + (n % d).toNat ∧ (n % d).toNat < d.toNat := by
  have hpos : 0 < d.toNat := Nat.pos_of_ne_zero fun h0 => h (BitVec.eq_of_toNat_eq h0)
  rw [BitVec.toNat_udiv, BitVec.toNat_umod]
  exact ⟨(Nat.div_add_mod ..).symm, Nat.mod_lt _ hpos⟩

/-! ## What the executed instructions write -/

/-- Committing a register and `hi` changes these two and passes the packet. -/
theorem commit_reg_hi_eq_wroteRegHi (s : State) (rd : RegNum) (v h : Word) :
    s.commit [.reg rd v, .hi h] = s.wroteRegHi rd v h := rfl

/-- Committing a write of `hi` changes it and passes the packet. -/
theorem commit_hi (s : State) (v : Word) : s.commit [.hi v] = { s.passed [.hi v] with hi := v } := rfl

/-- An executed multiplication writes the two words of the product and nothing else (R190). -/
theorem State.product_of_holds (h : s.holds p = true) (rd : RegNum) (prod : BitVec 64) :
    s.product p rd prod = .next (s.wroteRegHi rd (prod.extractLsb' 0 32) (prod.extractLsb' 32 32)) := by
  rw [State.product, State.whenHolds_true h, commit_reg_hi_eq_wroteRegHi]

/-- An executed DIV writes the quotient and the remainder and nothing else, whatever the divisor (R192). -/
theorem execDiv_of_holds (h : s.holds p = true) (rt rd rs : RegNum) :
    execDiv p rt rd rs s = .next (s.wroteRegHi rd (s.quotient (s.reg rs) (s.reg rt)) (s.remainder (s.reg rs) (s.reg rt))) := by
  rw [execDiv, State.whenHolds_true h, commit_reg_hi_eq_wroteRegHi]

/-- Settles O22: the written words are the two halves of the exact product. -/
theorem unsignedProductFillsRdAndHi : Obligations.UnsignedProductFillsRdAndHi := by
  intro s p rt rd rs h
  have halves := (toNat_low_add_high _).trans (toNat_unsignedProduct (s.reg rs) (s.reg rt))
  exact ⟨_, _, halves, State.product_of_holds h rd _⟩

/-- Settles O23 as O22 is settled, with the signed product and its high half read as signed. -/
theorem signedProductFillsRdAndHi : Obligations.SignedProductFillsRdAndHi := by
  intro s p rt rd rs h
  have halves := (toInt_low_add_high _).trans (toInt_signedProduct (s.reg rs) (s.reg rt))
  exact ⟨_, _, halves, State.product_of_holds h rd _⟩

/-- Settles O24: DIV completes for every divisor, and by one that is not 0 its two results obey the division law. -/
theorem divisionGivesQuotientAndRemainder : Obligations.DivisionGivesQuotientAndRemainder := by
  intro s p rt rd rs h
  refine ⟨_, _, execDiv_of_holds h rt rd rs, fun hd => ?_⟩
  rw [State.quotient_of_ne_zero hd, State.remainder_of_ne_zero hd]
  exact toNat_udiv_umod hd

/-- Settles O25: each is a committed write of one place. -/
theorem hiMovesToAndFromRegisters : Obligations.HiMovesToAndFromRegisters := by
  intro s p rd rs h
  refine ⟨?mfhi, ?mthi⟩
  case mfhi => exact (State.whenHolds_true h _).trans (congrArg _ (commit_reg_eq_wroteReg s rd s.hi))
  case mthi => exact (State.whenHolds_true h _).trans (congrArg _ (commit_hi s (s.reg rs)))

end Sys2Proof.Machine

/-! The system instructions in the modes that may use them (R200 to R206). -/

namespace Sys2Proof.Machine

variable {s : State} {p : Pred}

/-! ## What an executed system instruction commits -/

/-- Committing nothing passes the packet. -/
theorem commit_nil_eq_passed (s : State) : s.commit [] = s.passed [] := rfl

/-- Committing a FLUSH changes the marks and passes the packet. -/
theorem commit_flush (s : State) (target : FlushTarget) (pa : Word) :
    s.commit [.flush target pa] = { s.passed [.flush target pa] with marks := s.marks.flush target pa } := rfl

/-- The return from an exception changes the pc, the mode and the link bit (R203, R229). -/
theorem commit_returnEffects (s : State) :
    s.commit s.returnEffects =
      { s with
        pc := s.epc
        mode := .user
        link := false
        tick := s.tick + 1
        collected := [.jump s.epc, .mode .user, .link false] } := rfl

/-- Committing a write of Error PC changes it and passes the packet. -/
theorem commit_epc (s : State) (v : Word) : s.commit [.epc v] = { s.passed [.epc v] with epc := v } := rfl

/-- Committing a write of a coprocessor register changes that register and passes the packet. -/
theorem commit_cpr (s : State) (n : CprNum) (v : Word) :
    s.commit [.cpr n v] = { s.passed [.cpr n v] with cpr := s.cpr.set n.toNat v n.isLt } := rfl

/-! ## FLUSH (R204) -/

/-- An executed FLUSH of a TLB, which no page fault guards, only passes the packet (R46, D35). -/
theorem execFlush_of_tlb {target : FlushTarget} (hk : flushAccess target = none) (hp : s.holds p = true) (rs : RegNum) :
    execFlush p target rs s = .next (s.passed []) := by
  rw [execFlush, State.whenHolds_true hp, hk, commit_nil_eq_passed]

/-- An executed FLUSH of a cache takes the page fault of its address (R39). -/
theorem execFlush_of_pageFault {target : FlushTarget} {k : Access} {rs : RegNum} (hk : flushAccess target = some k)
    (hp : s.holds p = true) (ht : s.translate k (s.reg rs) = none) :
    execFlush p target rs s = .next (s.trapped (.pageFault (s.reg rs))) := by
  rw [execFlush, State.whenHolds_true hp, hk]
  simp only [ht, enterTrap_eq_trapped]

/-- An executed FLUSH of a cache moves the marks of the addressed word and writes nothing else (R45). -/
theorem execFlush_moves_marks {target : FlushTarget} {k : Access} {rs : RegNum} {pa : Word}
    (hk : flushAccess target = some k) (hs : s.Legal) (hp : s.holds p = true) (ht : s.translate k (s.reg rs) = some pa) :
    ∃ t, execFlush p target rs s = .next t ∧ t = { s.passed t.collected with marks := t.marks } ∧
      ∀ a, assocGet t.marks a =
        if a / 4 = pa.toNat / 4 then flushedMark target (assocGet s.marks a) else assocGet s.marks a := by
  rw [execFlush, State.whenHolds_true hp, hk]
  simp only [ht, commit_flush]
  exact ⟨_, rfl, rfl, Marks.get_flush hs.marksWf⟩

/-- FLUSH DATA changes the mark of a stored byte only. -/
theorem flushedMark_data (o : Option Stage) : flushedMark .data o = if o = some .stored then some .dataFlushed else o := by
  match o with
  | none => rfl
  | some .stored => rfl
  | some .dataFlushed => rfl

/-- FLUSH INST changes the mark of a data-flushed byte only. -/
theorem flushedMark_inst (o : Option Stage) : flushedMark .inst o = if o = some .dataFlushed then none else o := by
  match o with
  | none => rfl
  | some .stored => rfl
  | some .dataFlushed => rfl

/-- Settles O28: DATA and INST are the shared FLUSH of a cache, each with its kind of access and its change of a mark. -/
theorem cacheFlushOnlyMovesMarks : Obligations.CacheFlushOnlyMovesMarks := by
  intro s p rs hp
  refine ⟨fun ht => ?dataFault, fun ht => ?instFault, fun pa hs ht => ?data, fun pa hs ht => ?inst⟩
  case dataFault => exact execFlush_of_pageFault (target := .data) rfl hp ht
  case instFault => exact execFlush_of_pageFault (target := .inst) rfl hp ht
  case data =>
    simp only [ite_and, ← flushedMark_data]
    exact execFlush_moves_marks (target := .data) rfl hs hp ht
  case inst =>
    simp only [ite_and, ← flushedMark_inst]
    exact execFlush_moves_marks (target := .inst) rfl hs hp ht

/-- Settles O27: FENCE commits nothing, and the two TLB targets are the FLUSH that takes no page fault. -/
theorem fenceAndTlbFlushOnlyPass : Obligations.FenceAndTlbFlushOnlyPass := by
  intro s p rs hp
  refine ⟨?fence, ?dtlb, ?itlb⟩
  case fence => exact (State.whenHolds_true hp _).trans (congrArg _ (commit_nil_eq_passed s))
  case dtlb => exact execFlush_of_tlb (target := .dtlb) rfl hp rs
  case itlb => exact execFlush_of_tlb (target := .itlb) rfl hp rs

/-! ## BREAK and SYSCALL (R200, R201) -/

/-- Settles O26: each is trap entry for its own cause, in either mode. -/
theorem breakAndSyscallTakeTheirTraps : Obligations.BreakAndSyscallTakeTheirTraps := by
  intro s p hp
  have traps (c : Cause) : s.whenHolds p (.next (s.enterTrap c)) = .next (s.trapped c) := by
    rw [State.whenHolds_true hp, enterTrap_eq_trapped]
  exact ⟨traps .brk, traps .syscall⟩

/-! ## Kernel mode: ERET, MFC and MTC (R203, R205, R206) -/

/-- In kernel mode a kernel-only instruction whose predicate holds is executed. -/
theorem State.kernelOnly_of_kernel (hp : s.holds p = true) (hm : s.mode = .kernel)
    (o : Host.Outcome State Fault Refusal) : s.kernelOnly p o = o := by
  rw [State.kernelOnly, State.whenHolds_true hp, hm]

/-- In kernel mode ERET returns to an Error PC that is a multiple of 16, or is refused (R203, D27). -/
theorem execEret_of_kernel (hp : s.holds p = true) (hm : s.mode = .kernel) :
    execEret p s = if s.epc.toNat % 16 = 0 then .next (s.commit s.returnEffects) else .refused .eretTarget := by
  rw [execEret, State.kernelOnly_of_kernel hp hm]
  simp only [low4_eq_zero_iff]

/-- Settles O29: the alignment of Error PC decides between the return and the refusal. -/
theorem eretReturnsToUserMode : Obligations.EretReturnsToUserMode := by
  intro s p hp hm
  have eret := execEret_of_kernel hp hm
  refine ⟨fun aligned => ?returns, fun misaligned => ?refused⟩
  case returns => rwa [if_pos aligned, commit_returnEffects] at eret
  case refused => rwa [if_neg misaligned] at eret

/-- In kernel mode MFC writes RD from the register that its number names, or is refused (R205). -/
theorem execMfc_of_kernel (hp : s.holds p = true) (hm : s.mode = .kernel) (rd : RegNum) (n : CprNum) :
    execMfc p rd n s =
      if n = s.params.cprEpc then .next (s.wroteReg rd s.epc [.reg rd s.epc])
      else if s.params.cprMap.getLsbD n.toNat then .next (s.wroteReg rd (s.cprAt n) [.reg rd (s.cprAt n)])
      else .refused (.coprocessorRegister n) := by
  rw [execMfc, State.kernelOnly_of_kernel hp hm, commit_reg_eq_wroteReg, commit_reg_eq_wroteReg, Params.hasCpr]

/-- In kernel mode MTC writes the register that its number names from RS, or is refused (R206). -/
theorem execMtc_of_kernel (hp : s.holds p = true) (hm : s.mode = .kernel) (n : CprNum) (rs : RegNum) :
    execMtc p n rs s =
      if n = s.params.cprEpc then .next { s.passed [.epc (s.reg rs)] with epc := s.reg rs }
      else if s.params.cprMap.getLsbD n.toNat then
        .next { s.passed [.cpr n (s.reg rs)] with cpr := s.cpr.set n.toNat (s.reg rs) n.isLt }
      else .refused (.coprocessorRegister n) := by
  rw [execMtc, State.kernelOnly_of_kernel hp hm, commit_epc, commit_cpr, Params.hasCpr]

/-- Settles O30: the number is CPR_EPC, another one of CPR_MAP, or neither, for the two moves alike. -/
theorem coprocessorMovesUseTheNamedRegister : Obligations.CoprocessorMovesUseTheNamedRegister := by
  intro s p rd rs n hp hm
  have mfc := execMfc_of_kernel hp hm rd n
  have mtc := execMtc_of_kernel hp hm n rs
  refine ⟨fun isEpc => ?errorPc, fun notEpc inMap => ?mapped, fun notEpc outside => ?refused⟩
  case errorPc =>
    rw [if_pos isEpc] at mfc mtc
    exact ⟨mfc, mtc⟩
  case mapped =>
    rw [if_neg notEpc, if_pos inMap] at mfc mtc
    exact ⟨mfc, mtc⟩
  case refused =>
    rw [if_neg notEpc, if_neg (Bool.eq_false_iff.mp outside)] at mfc mtc
    exact ⟨mfc, mtc⟩

end Sys2Proof.Machine

/-! Where a step changes the mode (R17, R231): ERET leaves kernel mode and a trap leaves user mode. -/

namespace Sys2Proof

/-- A control instruction of a decoded packet is its first, and the others are of another class (R82). -/
theorem eq_cons_of_control {ws : List Word} {is : List Instr} {i : Instr} (hd : decodePacket ws = .ok is)
    (hi : i ∈ is) (hc : i.slotClass = .control) : ∃ rest, is = i :: rest ∧ ∀ j ∈ rest, j.slotClass ≠ .control := by
  cases is with
  | nil => cases hi
  | cons j rest =>
    have hrest := not_control_of_decodePacket hd
    rcases List.mem_cons.1 hi with rfl | hi
    · exact ⟨rest, rfl, hrest⟩
    · exact absurd hc (hrest i hi)

end Sys2Proof

namespace Sys2Proof.Machine

variable {s t : State} {i : Instr} {is rest : List Instr} {e : Effect} {es : List Effect} {p : Pred} {m : Mode}

/-! ## The mode -/

/-- A commit that turns the mode to `m` commits that write. -/
theorem mode_mem_of_commit (hs : s.mode ≠ m) (ht : (s.commit es).mode = m) : Effect.mode m ∈ es := by
  by_contra hn
  refine State.commit_keeps (P := fun u => u.mode ≠ m) hs (fun u e he hu => ?_) ht
  cases e with
  | mode m' => exact fun hm : m' = m => hn (hm ▸ he)
  | _ => simpa using hu

/-- Only ERET may write the mode (R17). -/
theorem mayCollect_mode (h : mayCollect i (.mode m) = true) : ∃ p, i = .eret p := by
  cases i with
  | eret p => exact ⟨p, rfl⟩
  | _ => cases h

/-- An ERET that writes the mode is the return from an exception (R203, R229). -/
theorem collected_of_eret (h : exec (.eret p) s = .next t) (hm : Effect.mode m ∈ t.collected) :
    t.collected = s.returnEffects := by
  rcases State.kernelOnly_next h with ⟨-, rfl⟩ | ⟨-, -, rfl⟩ | ⟨-, -, h⟩
  · simp at hm
  · simp at hm
  · split at h
    · cases h
      exact State.commit_collected s _
    · cases h

/-! ## The slots beside an ERET -/

/-- The instructions that may jump are control instructions. -/
theorem control_of_mayCollect_jump {a : Word} (h : mayCollect i (.jump a) = true) : i.slotClass = .control := by
  cases i with
  | bP | bR | blP | blR | eret => rfl
  | _ => cases h

theorem not_jump_of_not_control (h : i.slotClass ≠ .control) (he : e ∈ collectedBy (exec i s)) (a : Word) :
    e ≠ .jump a := by
  rintro rfl
  exact h (control_of_mayCollect_jump (mayCollect_of_mem_collectedBy he (by simp)))

/-- No effect beside the return writes the link bit: it would conflict with the return's own write of it (R92). -/
theorem not_link_of_conflictFree (h : conflictFree (s.returnEffects ++ es) = true) (he : e ∈ es) (b : Bool) :
    e ≠ .link b := by
  rintro rfl
  obtain ⟨-, -, hsep⟩ := List.pairwise_append.1 (conflictFree_iff_pairwise.1 h)
  have hclash := hsep (.link false) (by simp [State.returnEffects]) _ he
  cases hclash

/-- The return, committed before effects that neither jump nor write the link bit, is at Error PC with the link bit 0. -/
theorem commit_return_append (hj : ∀ e ∈ es, ∀ a, e ≠ .jump a) (hl : ∀ e ∈ es, ∀ b, e ≠ .link b) :
    (s.commit (s.returnEffects ++ es)).pc = s.epc ∧ (s.commit (s.returnEffects ++ es)).link = false := by
  rw [State.commit_eq_foldl, List.foldl_append]
  refine foldl_apply_keeps (P := fun u => u.pc = s.epc ∧ u.link = false) ⟨rfl, rfl⟩ fun u e he hu => ?_
  cases e with
  | jump a => exact absurd rfl (hj _ he a)
  | link b => exact absurd rfl (hl _ he b)
  | _ => simpa using hu

/-- A packet with an ERET in front that returns, and no other control instruction, ends at Error PC with the link bit 0. -/
theorem PacketCollects.pc_link_of_return (hc : PacketCollects (i :: rest) s es)
    (hi : collectedBy (exec i s) = s.returnEffects) (hrest : ∀ j ∈ rest, j.slotClass ≠ .control) :
    (s.commit es).pc = s.epc ∧ (s.commit es).link = false := by
  have hes : es = s.returnEffects ++ packetEffects rest s := by rw [hc.eq, packetEffects_cons, hi]
  have hfree := hc.noConflict
  subst hes
  refine commit_return_append (fun e he => ?_) fun e he => not_link_of_conflictFree hfree he
  obtain ⟨j, hj, he⟩ := mem_packetEffects he
  exact not_jump_of_not_control (hrest j hj) he

/-- Settles O46: only an executed ERET collects a write of the mode; it stands in slot 0, its packet-mates cannot jump and
must not write the link bit. From user mode only a trap leads to kernel mode (`userModeStepsKeepPrivilegedState`). -/
theorem modesChangeOnlyByTrapAndEret : Obligations.ModesChangeOnlyByTrapAndEret := by
  intro s t h
  refine ⟨fun hk hu => ?leavesKernel, fun hu hk => ?leavesUser⟩
  case leavesKernel =>
    rcases step_next_stepRuns h with ⟨c, rfl⟩ | ⟨is, es, hr, rfl, hc⟩
    · cases hu
    · have hmode : Effect.mode .user ∈ es := mode_mem_of_commit (by simp [hk]) hu
      obtain ⟨i, hi, u, hx, hm, hp, hmay⟩ := hc.collector hmode
      obtain ⟨p, rfl⟩ := mayCollect_mode hmay
      refine ⟨⟨is, p, hr, hi, hp⟩, ?_⟩
      obtain ⟨ws, -, hd⟩ := hr
      obtain ⟨rest, rfl, hrest⟩ := eq_cons_of_control hd hi rfl
      have hcollected : collectedBy (exec (.eret p) s.nextIrqs) = s.nextIrqs.returnEffects := by
        rw [hx]; exact collected_of_eret hx hm
      exact hc.pc_link_of_return hcollected hrest
  case leavesUser =>
    obtain ⟨-, -, ⟨hm, -⟩ | htrap⟩ := userModeStepsKeepPrivilegedState s t hu h
    · cases hk.symm.trans hm
    · exact htrap

end Sys2Proof.Machine

/-! A packet that traps (R226, R228): the lowest slot's exception is taken, whatever the other slots would do. -/

namespace Sys2Proof.Machine

variable {s : State} {i : Instr} {is : List Instr} {es fs : List Effect} {c : Cause}

theorem firstTrap_append_of_none (h : firstTrap es = none) : firstTrap (es ++ fs) = firstTrap fs := by
  induction es with
  | nil => rfl
  | cons e es ih =>
    cases e with
    | trap c => cases h
    | _ => exact ih h

theorem packetEffects_append (is js : List Instr) (s : State) :
    packetEffects (is ++ js) s = packetEffects is s ++ packetEffects js s := by
  simp [packetEffects]

/-- Slots that raise no exception leave the packet's first trap to the slots above them. -/
theorem firstTrap_packetEffects_eq_none (h : ∀ j ∈ is, ∀ c, Effect.trap c ∉ collectedBy (exec j s)) :
    firstTrap (packetEffects is s) = none := by
  refine firstTrap_eq_none.2 fun c hc => ?_
  obtain ⟨j, hj, hc⟩ := mem_packetEffects hc
  exact h j hj c hc

/-- The first trap among the effects is taken before a stop or a conflict is looked for (R226, log 20). -/
theorem runPacket_of_firstTrap (h : firstTrap (packetEffects is s) = some c) : runPacket is s = .next (s.enterTrap c) := by
  rw [packetEffects] at h
  simp only [runPacket, h]

/-- Settles O35: the slots below collect no trap, so the packet's first trap is that of the instruction. -/
theorem trappingPacketCommitsNothing : Obligations.TrappingPacketCommitsNothing := by
  intro lower i higher s c hx hlower
  have hslot : collectedBy (exec i s) = [.trap c] := by rw [hx, collectedBy, enterTrap_collected]
  have hfirst : firstTrap (packetEffects (lower ++ i :: higher) s) = some c := by
    rw [packetEffects_append, firstTrap_append_of_none (firstTrap_packetEffects_eq_none hlower), packetEffects_cons,
      hslot]
    rfl
  rw [runPacket_of_firstTrap hfirst, enterTrap_eq_trapped]

end Sys2Proof.Machine

/-! Exceptions that one instruction raises: page faults of data accesses (R222) and kernel-only instructions in user mode
(R221, R232). -/

namespace Sys2Proof.Machine

variable {s : State} {p : Pred} {va : Word}

/-- An executed load whose address page-faults takes the trap. -/
theorem State.loadInto_of_pageFault (hp : s.holds p = true) (ht : s.translate .load va = none) (rd : RegNum) (n : Nat)
    (more : List Effect) : s.loadInto p rd va n more = .next (s.trapped (.pageFault va)) := by
  rw [State.loadInto, State.whenHolds_true hp, State.accessData_of_pageFault ht, enterTrap_eq_trapped]

/-- An executed store whose address page-faults takes the trap. -/
theorem State.storeAt_of_pageFault (hp : s.holds p = true) (ht : s.translate .store va = none) (v : Word) (n : Nat)
    (more : List Effect) : s.storeAt p v va n more = .next (s.trapped (.pageFault va)) := by
  rw [State.storeAt, State.whenHolds_true hp, State.accessData_of_pageFault ht, enterTrap_eq_trapped]

/-- Settles O20: each of the eight is one load or one store at its aligned address. -/
theorem dataPageFaultsTrap : Obligations.DataPageFaultsTrap := by
  intro s p off off' rd rt rs hp ld st
  refine ⟨fun ht => ?lb, fun ht => ?lh, fun ht => ⟨?lw, ?ll⟩, fun ht => ?sb, fun ht => ?sh,
    fun ht => ⟨?sw, fun hl => ?sc⟩⟩
  case lb | lh | lw | ll => exact State.loadInto_of_pageFault hp ht _ _ _
  case sb | sh | sw => exact State.storeAt_of_pageFault hp ht _ _ _
  case sc => exact (exec_sc_of_link hl p off' rt rs).trans (State.storeAt_of_pageFault hp ht _ _ _)

/-- In user mode a kernel-only instruction whose predicate holds raises IllegalInstruction, whatever it would do (D17). -/
theorem State.kernelOnly_of_user (hp : s.holds p = true) (hm : s.mode = .user)
    (o : Host.Outcome State Fault Refusal) : s.kernelOnly p o = .next (s.trapped .illegalInstruction) := by
  rw [State.kernelOnly, State.whenHolds_true hp, hm, enterTrap_eq_trapped]

/-- Settles O31: the three are the kernel-only instructions. -/
theorem privilegedInstructionsTrapInUserMode : Obligations.PrivilegedInstructionsTrapInUserMode := by
  intro s p rd rs n hp hm
  refine ⟨?eret, ?mfc, ?mtc⟩
  case eret | mfc | mtc => exact State.kernelOnly_of_user hp hm _

end Sys2Proof.Machine

/-! What comes before any instruction of a packet: the interrupt, the fetch and the decoder (R225, R226, R45, R33, R86). -/

namespace Sys2Proof.Machine

variable {s : State} {pa : Word} {ws : List Word}

/-- Settles O37: a dispatched interrupt is looked for before the fetch. -/
theorem aDispatchedInterruptIsTakenFirst : Obligations.ADispatchedInterruptIsTakenFirst := by
  intro s hirq
  rw [step_eq, if_pos hirq, enterTrap_eq_trapped, State.nextIrqs]

/-! ## The fetch -/

/-- A step without an interrupt runs what it fetches. -/
theorem step_of_fetch {f : Fetched} (hq : s.irqs.headD false = false) (hf : s.nextIrqs.fetch = f) :
    step s = runFetched f s.nextIrqs := by
  rw [step_eq, if_neg (Bool.eq_false_iff.mp hq), hf]

theorem State.fetch_of_pageFault (ht : s.translate .fetch s.pc = none) : s.fetch = .pageFault := by
  rw [State.fetch, State.reach_pageFault.2 ht]

/-- A marked byte of the packet makes the fetch stale (R45). -/
theorem State.fetch_of_marked (ht : s.translate .fetch s.pc = some pa) (hb : s.backed pa 16 = true)
    (hm : s.marks.anyMarked pa 16 = true) : s.fetch = .stale := by
  rw [State.fetch, State.reach_memory.2 ⟨ht, hb⟩]
  exact if_pos hm

theorem State.reach_of_unbacked {k : Access} {va : Word} {n : Nat} (ht : s.translate k va = some pa)
    (hb : s.backed pa n = false) : s.reach k va n = .unbacked pa := by
  simp [State.reach, ht, hb]

theorem State.fetch_of_unbacked (ht : s.translate .fetch s.pc = some pa) (hb : s.backed pa 16 = false) :
    s.fetch = .unbacked pa := by
  rw [State.fetch, State.reach_of_unbacked ht hb]

/-! ## The decoder -/

/-- Four words that do not decode raise IllegalInstruction, but for a store with M set (R86, R76). -/
theorem runWords_of_error {e : DecodeStop} (hd : decodePacket ws = .error e) (he : e ≠ .storeM) :
    runWords ws s = .next (s.trapped .illegalInstruction) := by
  rw [runWords, hd, ← enterTrap_eq_trapped]
  cases e with
  | storeM => exact absurd rfl he
  | _ => rfl

theorem runWords_of_storeM (hd : decodePacket ws = .error .storeM) : runWords ws s = .refused .storeMBit := by
  rw [runWords, hd]

/-- Settles O38: the fetch gives no words, or words that do not decode, in each of the five ways. -/
theorem badFetchesAndPacketsDoNotRun : Obligations.BadFetchesAndPacketsDoNotRun := by
  intro s hq s'
  refine ⟨fun ht => ?pageFault, fun ws e hf hd he => ?illegal, fun ws hf hd => ?storeM, fun pa ht hb hm => ?stale,
    fun pa ht hb => ?unbacked⟩
  case pageFault =>
    rw [step_of_fetch hq (State.fetch_of_pageFault (s := s.nextIrqs) ht), runFetched, enterTrap_eq_trapped, nextIrqs_pc,
      State.nextIrqs]
  case illegal => exact (step_of_fetch hq hf).trans (runWords_of_error hd he)
  case storeM => exact (step_of_fetch hq hf).trans (runWords_of_storeM hd)
  case stale => exact step_of_fetch hq (State.fetch_of_marked (s := s.nextIrqs) ht hb hm)
  case unbacked => exact step_of_fetch hq (State.fetch_of_unbacked (s := s.nextIrqs) ht hb)

end Sys2Proof.Machine

/-! The machine right after reset (R22, R260 to R262). -/

namespace Sys2Proof.Machine

/-- RESET_PC is a multiple of 16 (R261). -/
theorem resetPc_aligned : Config.resetPc.extractLsb' 0 4 = 0 := by decide

theorem reset_legal : State.reset.Legal := ⟨resetPc_aligned, reset_mem_wf, reset_marks_wf⟩

/-- Where no page entry is given, translation is the identity (R38, D26). -/
theorem State.translate_of_no_pages {s : State} (h : s.params.pages = []) (k : Access) (va : Word) :
    s.translate k va = some va := by
  rw [State.translate, h, List.find?_nil]

/-- Settles O1: reset has no page entry, so translation is the identity in either mode. -/
theorem resetIsLegalInKernelMode : Obligations.ResetIsLegalInKernelMode :=
  ⟨reset_legal, rfl, State.pred_three _, rfl, fun _ k va => State.translate_of_no_pages rfl k va⟩

end Sys2Proof.Machine
